-- ==== Sys2Proof/Word.lean ====
section
/-! DEFINITION. The word types of the Huffman core (00_scope.md R8, R9; 10_state.md R20, R25).
Every integer of this hardware is unsigned (00_scope.md R10). -/

namespace Sys2Proof

/-- A command word, 64 bits (30_encoding.md R60). -/
abbrev Word := BitVec 64

/-- A byte of a payload, of a byte store or of an output payload. -/
abbrev Byte := BitVec 8

/-- A symbol, `SYM_W = 8` bits (00_scope.md R8). -/
abbrev Symbol := BitVec 8

/-- The immediate field, `LEN_W = 32` bits; also a result, `RES_W = 32` (00_scope.md R9). -/
abbrev Imm := BitVec 32

/-- A frequency, `FREQ_W = 32` bits (00_scope.md R9). -/
abbrev Freq := BitVec 32

/-- A tiebreaker, which is also a node index, `TIE_W = 9` bits (00_scope.md R9, 10_state.md R25). -/
abbrev NodeIx := BitVec 9

/-- The symbols in ascending order, unsigned (42_tree_builder.md R103). -/
def allSymbols : List Symbol := (List.range 256).map (BitVec.ofNat 8)

end Sys2Proof
end

