-- ==== Sys2Proof/Syntax.lean ====
section
/-! DEFINITION. The 17 commands of 30_encoding.md R66, one constructor each, and the sequence selectors of R63. -/

namespace Sys2Proof

/-- A selector `(K, S)` (30_encoding.md R63): the kinds 0 and 1 carry no symbol. -/
inductive Selector where
  | scr
  | out
  | raw (s : Symbol)
  | can (s : Symbol)
  deriving DecidableEq, Repr

/-- A command with its operands (30_encoding.md R62, R66). -/
inductive Instr where
  | newsession
  | rdstage
  | rdfreq (s : Symbol)
  | count (n : Imm)
  | build
  | gencodes
  | canon
  | encode (useCanonical : Bool) (n : Imm)
  | bsclr
  | bsappb (b : Bool)
  | bsapps (a : Selector)
  | bsbit (a : Selector) (i : Imm)
  | bslen (a : Selector)
  | bsbytes (a : Selector)
  | bsbin (a : Selector)
  | bshex (a : Selector) (limit : Imm)
  | bseq (a b : Selector)
  deriving DecidableEq, Repr

end Sys2Proof
end

