-- ==== Sys2Proof/WellFormed.lean ====
section
/-! DEFINITION. Which terms of `Instr` are commands. The must-be-zero fields (30_encoding.md R65) and the symbol of an
`SCR` or `OUT` selector (R63) have no place in a term, so one check is left. -/

namespace Sys2Proof

/-- 30_encoding.md R68 (4), 41_bit_sequence.md R84: `BSAPPS` may not name `SCR`. -/
def Instr.wellFormed : Instr → Bool
  | .newsession => true
  | .rdstage => true
  | .rdfreq _ => true
  | .count _ => true
  | .build => true
  | .gencodes => true
  | .canon => true
  | .encode _ _ => true
  | .bsclr => true
  | .bsappb _ => true
  | .bsapps a => a != .scr
  | .bsbit _ _ => true
  | .bslen _ => true
  | .bsbytes _ => true
  | .bsbin _ => true
  | .bshex _ _ => true
  | .bseq _ _ => true

end Sys2Proof
end

