-- ==== Sys2Proof/Decode.lean ====
section
/-! DEFINITION. The decoder, total on any 64-bit word, and after it the encoder (30_encoding.md R60 to R69). -/

namespace Sys2Proof

/-! ## Fields of the command word (30_encoding.md R61) -/

/-- `CW[63:56]`. -/
def opField (w : Word) : BitVec 8 := w.extractLsb' 56 8
/-- `CW[55:54]`. -/
def kaField (w : Word) : BitVec 2 := w.extractLsb' 54 2
/-- `CW[53:46]`. -/
def saField (w : Word) : BitVec 8 := w.extractLsb' 46 8
/-- `CW[45:44]`. -/
def kbField (w : Word) : BitVec 2 := w.extractLsb' 44 2
/-- `CW[43:36]`. -/
def sbField (w : Word) : BitVec 8 := w.extractLsb' 36 8
/-- `CW[35]`. -/
def fField (w : Word) : BitVec 1 := w.extractLsb' 35 1
/-- `CW[34:32]`. -/
def rsvField (w : Word) : BitVec 3 := w.extractLsb' 32 3
/-- `CW[31:0]`. -/
def immField (w : Word) : BitVec 32 := w.extractLsb' 0 32

/-! ## The opcode map (30_encoding.md R66) -/

/-- The 17 opcodes, named by their mnemonics. -/
inductive Opcode where
  | newsession | rdstage | rdfreq | count | build | gencodes | canon | encode
  | bsclr | bsappb | bsapps | bsbit | bslen | bsbytes | bsbin | bshex | bseq
  deriving DecidableEq, Repr

/-- The rows of R66 in the table's order. -/
def Opcode.all : List Opcode :=
  [.newsession, .rdstage, .rdfreq, .count, .build, .gencodes, .canon, .encode] ++
  [.bsclr, .bsappb, .bsapps, .bsbit, .bslen, .bsbytes, .bsbin, .bshex, .bseq]

/-- The column `OP` of R66. -/
def Opcode.code : Opcode → BitVec 8
  | .newsession => 0x01#8
  | .rdstage => 0x02#8
  | .rdfreq => 0x03#8
  | .count => 0x10#8
  | .build => 0x11#8
  | .gencodes => 0x12#8
  | .canon => 0x13#8
  | .encode => 0x14#8
  | .bsclr => 0x20#8
  | .bsappb => 0x21#8
  | .bsapps => 0x22#8
  | .bsbit => 0x23#8
  | .bslen => 0x24#8
  | .bsbytes => 0x25#8
  | .bsbin => 0x26#8
  | .bshex => 0x27#8
  | .bseq => 0x28#8

/-- The eight formats (30_encoding.md R62). -/
inductive Format where
  | n | y | t | tf | b | s | si | ss
  deriving DecidableEq, Repr

/-- The column `format` of R66. -/
def Opcode.format : Opcode → Format
  | .newsession => .n
  | .rdstage => .n
  | .rdfreq => .y
  | .count => .t
  | .build => .n
  | .gencodes => .n
  | .canon => .n
  | .encode => .tf
  | .bsclr => .n
  | .bsappb => .b
  | .bsapps => .s
  | .bsbit => .si
  | .bslen => .s
  | .bsbytes => .s
  | .bsbin => .s
  | .bshex => .si
  | .bseq => .ss

/-- The formats in which `KA` is an operand field. -/
def Format.hasKA : Format → Bool
  | .s | .si | .ss => true
  | .n | .y | .t | .tf | .b => false
/-- The formats in which `SA` is an operand field. -/
def Format.hasSA : Format → Bool
  | .y | .s | .si | .ss => true
  | .n | .t | .tf | .b => false
/-- The formats in which `KB` and `SB` are operand fields. -/
def Format.hasB : Format → Bool
  | .ss => true
  | .n | .y | .t | .tf | .b | .s | .si => false
/-- The formats in which `F` is an operand field. -/
def Format.hasF : Format → Bool
  | .tf | .b => true
  | .n | .y | .t | .s | .si | .ss => false
/-- The formats in which `IMM` is an operand field. -/
def Format.hasImm : Format → Bool
  | .t | .tf | .si => true
  | .n | .y | .b | .s | .ss => false

/-- The column `match` of R66. -/
def Opcode.pattern : Opcode → Word
  | .newsession => 0x0100000000000000#64
  | .rdstage => 0x0200000000000000#64
  | .rdfreq => 0x0300000000000000#64
  | .count => 0x1000000000000000#64
  | .build => 0x1100000000000000#64
  | .gencodes => 0x1200000000000000#64
  | .canon => 0x1300000000000000#64
  | .encode => 0x1400000000000000#64
  | .bsclr => 0x2000000000000000#64
  | .bsappb => 0x2100000000000000#64
  | .bsapps => 0x2200000000000000#64
  | .bsbit => 0x2300000000000000#64
  | .bslen => 0x2400000000000000#64
  | .bsbytes => 0x2500000000000000#64
  | .bsbin => 0x2600000000000000#64
  | .bshex => 0x2700000000000000#64
  | .bseq => 0x2800000000000000#64

/-- The column `mask` of R66. -/
def Opcode.mask : Opcode → Word
  | .newsession => 0xFFFFFFFFFFFFFFFF#64
  | .rdstage => 0xFFFFFFFFFFFFFFFF#64
  | .rdfreq => 0xFFC03FFFFFFFFFFF#64
  | .count => 0xFFFFFFFF00000000#64
  | .build => 0xFFFFFFFFFFFFFFFF#64
  | .gencodes => 0xFFFFFFFFFFFFFFFF#64
  | .canon => 0xFFFFFFFFFFFFFFFF#64
  | .encode => 0xFFFFFFF700000000#64
  | .bsclr => 0xFFFFFFFFFFFFFFFF#64
  | .bsappb => 0xFFFFFFF7FFFFFFFF#64
  | .bsapps => 0xFF003FFFFFFFFFFF#64
  | .bsbit => 0xFF003FFF00000000#64
  | .bslen => 0xFF003FFFFFFFFFFF#64
  | .bsbytes => 0xFF003FFFFFFFFFFF#64
  | .bsbin => 0xFF003FFFFFFFFFFF#64
  | .bshex => 0xFF003FFF00000000#64
  | .bseq => 0xFF00000FFFFFFFFF#64

/-- The opcode of an `OP` field; `none` for the 239 reserved values (R67). -/
def Opcode.ofCode (c : BitVec 8) : Option Opcode := Opcode.all.find? (fun o => o.code == c)

/-! ## Decoding (30_encoding.md R68) -/

/-- The test of R68 that a word failed first. -/
inductive DecodeError where
  /-- R68 (1): `OP` is none of the 17 opcodes. -/
  | reservedOpcode
  /-- R68 (2): `RSV` or a field that is no operand of the format is not 0. -/
  | fieldNotZero
  /-- R68 (3): an `SCR` or `OUT` selector with a symbol field that is not 0. -/
  | selectorSymbolNotZero
  /-- R68 (4): `BSAPPS` with `KA = 0`. -/
  | selfAppend
  deriving DecidableEq, Repr

/-- 30_encoding.md R63: the selector of a kind and a symbol field. -/
def Selector.ofFields (k : BitVec 2) (s : BitVec 8) : Except DecodeError Selector :=
  if k = 0#2 then (if s = 0#8 then .ok .scr else .error .selectorSymbolNotZero)
  else if k = 1#2 then (if s = 0#8 then .ok .out else .error .selectorSymbolNotZero)
  else if k = 2#2 then .ok (.raw s)
  else .ok (.can s)

/-- Selector A of a word. -/
def selectorA (w : Word) : Except DecodeError Selector := Selector.ofFields (kaField w) (saField w)

/-- Selector B of a word. -/
def selectorB (w : Word) : Except DecodeError Selector := Selector.ofFields (kbField w) (sbField w)

/-- Decoding goes on with a selector, or ends with its error. -/
def withSelector (e : Except DecodeError Selector) (k : Selector → Except DecodeError Instr) :
    Except DecodeError Instr :=
  match e with
  | .error d => .error d
  | .ok a => k a

/-- The flag bit `F` as it stands (R64). -/
def flagOf (w : Word) : Bool := fField w == 1#1

/-- R68 (3) and (4): the operands of a word that passed the mask test. -/
def decodeOperands (w : Word) : Opcode → Except DecodeError Instr
  | .newsession => .ok .newsession
  | .rdstage => .ok .rdstage
  | .rdfreq => .ok (.rdfreq (saField w))
  | .count => .ok (.count (immField w))
  | .build => .ok .build
  | .gencodes => .ok .gencodes
  | .canon => .ok .canon
  | .encode => .ok (.encode (flagOf w) (immField w))
  | .bsclr => .ok .bsclr
  | .bsappb => .ok (.bsappb (flagOf w))
  | .bsapps => withSelector (selectorA w) fun a => if a = .scr then .error .selfAppend else .ok (.bsapps a)
  | .bsbit => withSelector (selectorA w) fun a => .ok (.bsbit a (immField w))
  | .bslen => withSelector (selectorA w) fun a => .ok (.bslen a)
  | .bsbytes => withSelector (selectorA w) fun a => .ok (.bsbytes a)
  | .bsbin => withSelector (selectorA w) fun a => .ok (.bsbin a)
  | .bshex => withSelector (selectorA w) fun a => .ok (.bshex a (immField w))
  | .bseq => withSelector (selectorA w) fun a => withSelector (selectorB w) fun b => .ok (.bseq a b)

/-- 30_encoding.md R68: the tests in their order; the first that fails makes the word illegal. -/
def decode (w : Word) : Except DecodeError Instr :=
  match Opcode.ofCode (opField w) with
  | none => .error .reservedOpcode
  | some o => if w &&& o.mask = o.pattern then decodeOperands w o else .error .fieldNotZero

/-- 30_encoding.md R72: the `OP` values whose word is followed by `IMM` payload bytes, legal or not. -/
def takesPayload (w : Word) : Bool := opField w == 0x10#8 || opField w == 0x14#8

/-- The instruction of a table word, bit 0 the least significant. A command word is presented whole
(30_encoding.md R60), so no byte order arises. -/
def decodeTableWord (nbits w : Nat) : Option Instr := (decode (BitVec.ofNat 64 (w % 2 ^ nbits))).toOption

/-! ## Encoding (30_encoding.md R61, R62, R66) -/

/-- The word with the given fields; `RSV` is 0. -/
def assembleWord (op : BitVec 8) (ka : BitVec 2) (sa : BitVec 8) (kb : BitVec 2) (sb : BitVec 8) (f : BitVec 1)
    (imm : BitVec 32) : Word :=
  (op ++ ka ++ sa ++ kb ++ sb ++ f ++ 0#3 ++ imm : BitVec 64)

/-- The kind of a selector (R63). -/
def Selector.kind : Selector → BitVec 2
  | .scr => 0#2
  | .out => 1#2
  | .raw _ => 2#2
  | .can _ => 3#2

/-- The symbol field of a selector (R63). -/
def Selector.symbol : Selector → BitVec 8
  | .scr => 0#8
  | .out => 0#8
  | .raw s => s
  | .can s => s

/-- The opcode of a command. -/
def Instr.opcode : Instr → Opcode
  | .newsession => .newsession
  | .rdstage => .rdstage
  | .rdfreq _ => .rdfreq
  | .count _ => .count
  | .build => .build
  | .gencodes => .gencodes
  | .canon => .canon
  | .encode _ _ => .encode
  | .bsclr => .bsclr
  | .bsappb _ => .bsappb
  | .bsapps _ => .bsapps
  | .bsbit _ _ => .bsbit
  | .bslen _ => .bslen
  | .bsbytes _ => .bsbytes
  | .bsbin _ => .bsbin
  | .bshex _ _ => .bshex
  | .bseq _ _ => .bseq

/-- Format `N`: no operand. -/
def formatN (o : Opcode) : Word := assembleWord o.code 0#2 0#8 0#2 0#8 0#1 0#32
/-- Formats `S` and `SI`: selector A and an immediate. -/
def formatSI (o : Opcode) (a : Selector) (imm : Imm) : Word :=
  assembleWord o.code a.kind a.symbol 0#2 0#8 0#1 imm

/-- The word of a command. -/
def encode (i : Instr) : Word :=
  match i with
  | .newsession => formatN .newsession
  | .rdstage => formatN .rdstage
  | .rdfreq s => assembleWord Opcode.rdfreq.code 0#2 s 0#2 0#8 0#1 0#32
  | .count n => assembleWord Opcode.count.code 0#2 0#8 0#2 0#8 0#1 n
  | .build => formatN .build
  | .gencodes => formatN .gencodes
  | .canon => formatN .canon
  | .encode f n => assembleWord Opcode.encode.code 0#2 0#8 0#2 0#8 (BitVec.ofBool f) n
  | .bsclr => formatN .bsclr
  | .bsappb b => assembleWord Opcode.bsappb.code 0#2 0#8 0#2 0#8 (BitVec.ofBool b) 0#32
  | .bsapps a => formatSI .bsapps a 0#32
  | .bsbit a n => formatSI .bsbit a n
  | .bslen a => formatSI .bslen a 0#32
  | .bsbytes a => formatSI .bsbytes a 0#32
  | .bsbin a => formatSI .bsbin a 0#32
  | .bshex a n => formatSI .bshex a n
  | .bseq a b => assembleWord Opcode.bseq.code a.kind a.symbol b.kind b.symbol 0#1 0#32

end Sys2Proof
end

