-- ==== Sys2Proof/Config.lean ====
section
/-! DEFINITION. What an implementation fixes (00_scope.md R9). The two capacities are named parameters;
the other sizes are fixed. The spec leaves no value free, so there is no opaque constant here. -/

namespace Sys2Proof

/-- The two OPEN parameters of R9. Thirty-two bits hold exactly the values up to `2^32 - 1`. -/
structure Config where
  /-- `OUT_CAP_BITS`, the capacity of `OUT` in bits. -/
  outCapBits : BitVec 32
  /-- `SCR_CAP_BITS`, the capacity of `SCR` in bits. -/
  scrCapBits : BitVec 32
  deriving DecidableEq, Repr

/-- The defaults of R9. -/
def Config.default : Config := { outCapBits := 0xFFFFFFFF#32, scrCapBits := 0xFFFFFFFF#32 }

/-- R9: each capacity is at least 1. -/
abbrev Config.wf (c : Config) : Prop := 1 ≤ c.outCapBits.toNat ∧ 1 ≤ c.scrCapBits.toNat

/-- `NSYM_MAX` (R9). -/
abbrev maxSymbols : Nat := 256

/-- `MAX_NODES` (R9). -/
abbrev maxNodes : Nat := 511

/-- `MAX_CODE_LEN` (R9). -/
abbrev maxCodeLen : Nat := 255

end Sys2Proof
end

