-- ==== Sys2Proof/Machine/State.lean ====
section
/-! DEFINITION. The state of one instance of the block (10_state.md R20), the host's side of the command interface
beside it, the value of everything after reset (R35), and the reasons a step can stop. -/

namespace Sys2Proof.Machine

/-! ## Storage -/

/-- An array held by its entries that are not empty, keyed by index, keys rising. What an unlisted entry reads as is
said where the array is read (log 8). -/
abbrev Sparse (α : Type) := List (Nat × α)

/-- A byte store: byte addresses and bytes; an unlisted byte reads 0 (10_state.md R35, 20_memory.md R43; log 9). -/
abbrev Memory := List Host.Cell

/-- The storage of a Bit Sequence: a length register and a byte store (10_state.md R29, 41_bit_sequence.md R80). -/
structure BitSeq where
  /-- Bits in the sequence. -/
  len : BitVec 32
  /-- The packed bytes, `pack(q)` (20_memory.md R43). -/
  bytes : Memory
  deriving DecidableEq, Repr

/-- The empty Bit Sequence: length 0, byte store all 0 (R35). -/
def BitSeq.empty : BitSeq := { len := 0#32, bytes := [] }

/-- A valid `NODE` record (10_state.md R25). -/
inductive Node where
  | leaf (symbol : Symbol) (frequency : Freq) (tiebreaker : NodeIx)
  | internal (frequency : Freq) (tiebreaker left right : NodeIx)
  deriving DecidableEq, Repr

/-! ## Control -/

/-- The six stages (10_state.md R22); their numbers are `Stage.code`. -/
inductive Stage where
  | empty
  | frequenciesCounted
  | treeBuilt
  | rawCodesGenerated
  | canonicalCodesGenerated
  | encoded
  deriving DecidableEq, Repr

/-- The outcomes a response can report (60_exceptions.md R151); their codes are `Status.code`. -/
inductive Status where
  | ok
  | usageOrder
  | unknownSymbol
  | emptyInput
  | capacity
  | illegalCommand
  deriving DecidableEq, Repr

/-- One response (30_encoding.md R73). -/
structure Response where
  /-- `STATUS`. -/
  status : Status
  /-- `RES`. -/
  res : Imm
  /-- The output payload, one byte a character. -/
  chars : List Byte
  deriving DecidableEq, Repr

/-- What the host can do between commands (70_reset_and_hazards.md R172, R174). -/
inductive HostMove where
  /-- Present a command word and deliver these payload bytes on `tin`. -/
  | command (word : Word) (text : List Byte)
  /-- Assert `rst`. -/
  | reset
  deriving DecidableEq, Repr

/-- The state: the architectural group of R20, its transient group, and the model's own fields. -/
structure State where
  /-- `STAGE`. -/
  stage : Stage
  /-- `NSYM`. -/
  nsym : BitVec 9
  /-- `FREQ[s]`; an unlisted entry is 0. -/
  freq : Sparse Freq
  /-- `NODE[t]`; an unlisted entry is invalid, every field 0. -/
  node : Sparse Node
  /-- `ROOT`. -/
  root : NodeIx
  /-- `RAW[s]`; an unlisted entry is invalid with the empty code. -/
  raw : Sparse BitSeq
  /-- `CAN[s]`; an unlisted entry is invalid with the empty code. -/
  can : Sparse BitSeq
  /-- `OUT`. -/
  out : BitSeq
  /-- `SCR`. -/
  scr : BitSeq
  /-- `TIE`, transient (R32); between commands 0 (log 7). -/
  tie : NodeIx
  /-- `POOL`, transient; between commands empty (log 7). -/
  pool : List NodeIx
  /-- `NEXTCODE`, transient, an unbounded natural (43_canonicalizer.md R125; logs 7, 14). -/
  nextCode : Nat
  /-- `CURLEN`, transient; between commands 0 (log 7). -/
  curLen : BitVec 8
  /-- The parameters of 00_scope.md R9, constant in every run (log 1). -/
  cfg : Config
  /-- The host's moves not yet made, next first (log 2). -/
  moves : List HostMove
  /-- Payload bytes delivered and not consumed, next first (30_encoding.md R72; log 3). -/
  tin : List Byte
  /-- The responses given so far, newest first (70_reset_and_hazards.md R184; log 5). -/
  responses : List Response
  deriving DecidableEq, Repr

/-- The state after hardware reset (10_state.md R35, 70_reset_and_hazards.md R170), no host move pending, the
parameters at their defaults (00_scope.md R9). -/
def State.reset : State where
  stage := .empty
  nsym := 0#9
  freq := []
  node := []
  root := 0#9
  raw := []
  can := []
  out := BitSeq.empty
  scr := BitSeq.empty
  tie := 0#9
  pool := []
  nextCode := 0
  curLen := 0#8
  cfg := Config.default
  moves := []
  tin := []
  responses := []

/-! ## Why a step can stop -/

/-- The faults. -/
inductive Fault where
  /-- Raised by `COUNT`, `ENCODE` and an illegal word of their opcodes when the host has delivered fewer than `IMM`
  payload bytes: the block waits inside the command for ever (70_reset_and_hazards.md R174; log 4). A stuck state; safe. -/
  | payloadWithheld
  deriving DecidableEq, Repr

/-- The refusals. -/
inductive Refusal where
  /-- Raised by `exec` for an instruction that has no meaning yet; every instruction has one, so by none. Safe. -/
  | notModelled (mnemonic : String)
  deriving DecidableEq, Repr

/-- What a step or a meaning answers. -/
abbrev Outcome := Host.Outcome State Fault Refusal

end Sys2Proof.Machine
end

