-- ==== Sys2Proof/Machine/Ops.lean ====
section
/-! DEFINITION. The shared operations: arrays, byte stores, Bit Sequences, giving a response, raising an error,
consuming a payload, the priority-queue sorter, the tree walk, the canonical numbering, and the two resets. -/

namespace Sys2Proof.Machine

/-! ## Arrays (10_state.md R20, 20_memory.md R40) -/

/-- The listed value of entry `k`. -/
def Sparse.entry {α : Type} : Sparse α → Nat → Option α
  | [], _ => none
  | (a, v) :: r, k => if a = k then some v else Sparse.entry r k

/-- List `v` at entry `k`, keys kept rising. -/
def Sparse.put {α : Type} : Sparse α → Nat → α → Sparse α
  | [], k, v => [(k, v)]
  | (a, x) :: r, k, v =>
    if k < a then (k, v) :: (a, x) :: r else if k = a then (k, v) :: r else (a, x) :: Sparse.put r k v

/-- Unlist entry `k`. -/
def Sparse.remove {α : Type} (m : Sparse α) (k : Nat) : Sparse α := m.filter fun e => e.1 != k

/-- Entry `k` of an array of integers; an unlisted entry is 0. -/
def Sparse.read {w : Nat} (m : Sparse (BitVec w)) (k : Nat) : BitVec w := (Sparse.entry m k).getD 0

/-- Write entry `k` of an array of integers; 0 is written by unlisting. -/
def Sparse.write {w : Nat} (m : Sparse (BitVec w)) (k : Nat) (v : BitVec w) : Sparse (BitVec w) :=
  if v = 0 then Sparse.remove m k else Sparse.put m k v

/-- The keys rise strictly and stay below `bound`. -/
abbrev Sparse.wf {α : Type} (bound : Nat) (m : Sparse α) : Prop :=
  (m.map Prod.fst).Pairwise (· < ·) ∧ ∀ e ∈ m, e.1 < bound

/-- Byte `k` of a byte store. -/
def Memory.read (m : Memory) (k : Nat) : Byte := Sparse.read m k

/-- Write byte `k` of a byte store. -/
def Memory.write (m : Memory) (k : Nat) (b : Byte) : Memory := Sparse.write m k b

/-- The canonical form of a byte store: addresses strictly rising, no listed 0. -/
abbrev Memory.wf (m : Memory) : Prop := (m.map Prod.fst).Pairwise (· < ·) ∧ ∀ e ∈ m, e.2 ≠ 0

/-! ## Bit Sequences (41_bit_sequence.md R80, R81, R85; 20_memory.md R41 to R44) -/

/-- `b` with bit `i` set to `v`. -/
def setBit (b : Byte) (i : Nat) (v : Bool) : Byte := if v then b ||| (1#8 <<< i) else b &&& ~~~(1#8 <<< i)

/-- `append(bit)` on the storage (R80): a new byte is begun with 0 at every eighth bit; the bit goes to
bit `7 - (n mod 8)` of byte `n div 8`. -/
def BitSeq.append (q : BitSeq) (v : Bool) : BitSeq :=
  let n := q.len.toNat
  let old := if n % 8 = 0 then 0#8 else q.bytes.read (n / 8)
  { len := q.len + 1, bytes := q.bytes.write (n / 8) (setBit old (7 - n % 8) v) }

/-- `bitAt(i)` (R85): a bit out of range is 0, which is no failure (20_memory.md R47). -/
def BitSeq.bitAt (q : BitSeq) (i : Nat) : Bool :=
  if i < q.len.toNat then (q.bytes.read (i / 8)).getLsbD (7 - i % 8) else false

/-- The bits of a sequence in append order, the abstract Bit Sequence of 00_scope.md R11. -/
def BitSeq.bits (q : BitSeq) : List Bool := (List.range q.len.toNat).map q.bitAt

/-- The sequence with the given bits, appended one by one. -/
def BitSeq.ofBits (bs : List Bool) : BitSeq := bs.foldl BitSeq.append BitSeq.empty

/-- `append(otherSequence)` (R81): every bit of `r` in order, bit by bit. -/
def BitSeq.appendSeq (q r : BitSeq) : BitSeq := r.bits.foldl BitSeq.append q

/-- `byteLength()` (R87), without wrap-around. -/
def BitSeq.byteCount (q : BitSeq) : Nat := (q.len.toNat + 7) / 8

/-- `MemRead(Q, k)` (20_memory.md R44). -/
def BitSeq.byteAt (q : BitSeq) (k : Nat) : Byte := q.bytes.read k

/-- Equality of Bit Sequences (R91): the lengths and the bits below the length, not the byte stores. -/
def BitSeq.same (q p : BitSeq) : Bool :=
  q.len == p.len && (List.range q.len.toNat).all fun i => q.bitAt i == p.bitAt i

/-- The Bit Sequence `bits_L(v)` of 00_scope.md R11, most-significant bit first. -/
def BitSeq.ofNat (L v : Nat) : BitSeq := BitSeq.ofBits ((List.range L).map fun j => v.testBit (L - 1 - j))

/-! ## Characters (30_encoding.md R74) -/

/-- The character of a bit. -/
def bitChar (b : Bool) : Byte := if b then 0x31#8 else 0x30#8

/-- `hexdig` of 41_bit_sequence.md R89, upper case. -/
def hexDigit (d : BitVec 4) : Byte :=
  if d.toNat < 10 then 0x30#8 + d.setWidth 8 else 0x41#8 + (d.setWidth 8 - 10#8)

/-- The two digits of a byte, high digit first. -/
def hexPair (v : Byte) : List Byte := [hexDigit (v.extractLsb' 4 4), hexDigit (v.extractLsb' 0 4)]

/-! ## Responses and errors (30_encoding.md R73, 60_exceptions.md R156) -/

/-- Give one response. -/
def State.respond (s : State) (st : Status) (res : Imm) (chars : List Byte) : State :=
  { s with responses := { status := st, res := res, chars := chars } :: s.responses }

/-- End the command with success (00_scope.md R11 `ok`). -/
def ok (res : Imm) (chars : List Byte) (s : State) : Outcome := .next (s.respond .ok res chars)

/-- Take an error (00_scope.md R11 `raise`, 60_exceptions.md R156): the response carries the code and the info, and
nothing else changes: nothing is saved, no mode changes, control goes nowhere. There is no return from it (R160): the
next command runs as if this one had not been issued. -/
def raise (e : Status) (info : Imm) (s : State) : Outcome := .next (s.respond e info [])

/-! ## Payload (30_encoding.md R72) -/

/-- Run `k` on the `n` payload bytes of the command and the state after their consumption. With fewer bytes delivered
the block waits for ever (70_reset_and_hazards.md R174). -/
def withText (n : Imm) (s : State) (k : List Byte → State → Outcome) : Outcome :=
  if n.toNat ≤ s.tin.length then k (s.tin.take n.toNat) { s with tin := s.tin.drop n.toNat }
  else .fault .payloadWithheld

/-- An illegal word (60_exceptions.md R157): the error, and the payload of a `COUNT` or `ENCODE` opcode consumed all the
same (R72). -/
def illegal (w : Word) (s : State) : Outcome :=
  if takesPayload w then withText (immField w) s fun _ s => raise .illegalCommand 0 s
  else raise .illegalCommand 0 s

/-! ## Resets -/

/-- The session state at its reset values, `SCR` and everything else kept (10_state.md R36, 45_session_readout.md R140). -/
def State.clearSession (s : State) : State :=
  { s with stage := .empty, nsym := 0#9, root := 0#9, freq := [], raw := [], can := [], node := [], out := BitSeq.empty }

/-- Hardware reset (70_reset_and_hazards.md R170 to R172): the reset state from every prior state, unconsumed payload
dropped. The parameters, the host's later moves and the responses already given are not state of the block. -/
def State.hardReset (s : State) : State :=
  { State.reset with cfg := s.cfg, moves := s.moves, responses := s.responses }

/-! ## Counting (42_tree_builder.md R100) -/

/-- One byte of the text counted. -/
def countSymbol (f : Sparse Freq) (b : Byte) : Sparse Freq := Sparse.write f b.toNat (Sparse.read f b.toNat + 1)

/-- The counts of a text. -/
def countText (text : List Byte) : Sparse Freq := text.foldl countSymbol []

/-- The symbols of the Frequency Table, those with a count of at least 1, ascending (10_state.md R24). -/
def presentSymbols (f : Sparse Freq) : List Symbol := allSymbols.filter fun x => 1 ≤ (Sparse.read f x.toNat).toNat

/-! ## The priority-queue sorter (42_tree_builder.md R102 to R105) -/

/-- The frequency of `NODE[t]`; an invalid entry has every field 0. -/
def nodeFrequency (node : Sparse Node) (t : NodeIx) : Freq :=
  match Sparse.entry node t.toNat with
  | none => 0
  | some (.leaf _ f _) => f
  | some (.internal f _ _ _) => f

/-- The tiebreaker of `NODE[t]`. -/
def nodeTiebreaker (node : Sparse Node) (t : NodeIx) : NodeIx :=
  match Sparse.entry node t.toNat with
  | none => 0
  | some (.leaf _ _ k) => k
  | some (.internal _ k _ _) => k

/-- R102: lower frequency first, on equal frequency lower tiebreaker first, both unsigned. -/
def before (node : Sparse Node) (a b : NodeIx) : Bool :=
  (nodeFrequency node a).toNat < (nodeFrequency node b).toNat ||
    ((nodeFrequency node a).toNat == (nodeFrequency node b).toNat &&
      (nodeTiebreaker node a).toNat < (nodeTiebreaker node b).toNat)

/-- The least of `best` and the indices of a list. -/
def leastOf (node : Sparse Node) (best : NodeIx) : List NodeIx → NodeIx
  | [] => best
  | t :: r => leastOf node (if before node t best then t else best) r

/-- `extract_min(POOL)`: the least index and the pool without it. -/
def extractMin (node : Sparse Node) : List NodeIx → Option (NodeIx × List NodeIx)
  | [] => none
  | t :: r => some (leastOf node t r, (t :: r).erase (leastOf node t r))

/-- `NODE[TIE] <- n; POOL <- POOL + {TIE}; TIE <- TIE + 1` (R101). -/
def State.addNode (s : State) (n : Node) : State :=
  { s with node := Sparse.put s.node s.tie.toNat n, pool := s.pool ++ [s.tie], tie := s.tie + 1 }

/-- The leaf of one symbol of the table (R103). -/
def State.addLeaf (s : State) (x : Symbol) : State := s.addNode (.leaf x (Sparse.read s.freq x.toNat) s.tie)

/-- `TIE` and `POOL` initialised and the leaves created, in ascending symbol order (R103). -/
def State.plantLeaves (s : State) : State :=
  (presentSymbols s.freq).foldl State.addLeaf { s with tie := 0#9, pool := [] }

/-- One merge (R104): the first node extracted is the left child, the second the right (R105). A pool of fewer than two
nodes is left as it is, which the loop never asks for. -/
def State.mergeOnce (s : State) : State :=
  match extractMin s.node s.pool with
  | none => s
  | some (a, rest) =>
    match extractMin s.node rest with
    | none => s
    | some (b, rest') =>
      State.addNode { s with pool := rest' }
        (.internal (nodeFrequency s.node a + nodeFrequency s.node b) s.tie a b)

/-- The merge loop, `while |POOL| > 1`; every merge shortens the pool, so its length is enough fuel. -/
def State.mergeLoop : Nat → State → State
  | 0, s => s
  | k + 1, s => if 1 < s.pool.length then State.mergeLoop k s.mergeOnce else s

/-- The whole of `BUILD` before its last three writes: leaves, then merges. -/
def State.buildTree (s : State) : State := State.mergeLoop s.plantLeaves.pool.length s.plantLeaves

/-! ## The tree walk (42_tree_builder.md R107, R108) -/

/-- `walk(t, path)`; the fuel is the number of nodes the walk goes down through, at most 256 in any tree (log 11). -/
def walkTree (node : Sparse Node) : Nat → NodeIx → BitSeq → Sparse BitSeq → Sparse BitSeq
  | 0, _, _, raw => raw
  | fuel + 1, t, path, raw =>
    match Sparse.entry node t.toNat with
    | none => raw
    | some (.leaf x _ _) => Sparse.put raw x.toNat path
    | some (.internal _ _ l r) =>
      walkTree node fuel r (path.append true) (walkTree node fuel l (path.append false) raw)

/-- The raw codes of a tree; a lone leaf gets the designated code `<0>` (R108). -/
def rawCodes (node : Sparse Node) (root : NodeIx) : Sparse BitSeq :=
  match Sparse.entry node root.toNat with
  | none => []
  | some (.leaf x _ _) => Sparse.put [] x.toNat (BitSeq.empty.append false)
  | some (.internal _ _ _ _) => walkTree node (maxCodeLen + 1) root BitSeq.empty []

/-! ## The canonical numbering (43_canonicalizer.md R120 to R123) -/

/-- The order of R121: by length, then by symbol, both unsigned. -/
abbrev keyLe (a b : Nat × Symbol) : Prop := a.1 < b.1 ∨ (a.1 = b.1 ∧ a.2.toNat ≤ b.2.toNat)

/-- The pairs (length, symbol) of a code table, in symbol order. -/
def codeLengths (t : Sparse BitSeq) : List (Nat × Symbol) :=
  allSymbols.filterMap fun x => (Sparse.entry t x.toNat).map fun c => (c.len.toNat, x)

/-- The pairs sorted by R121. -/
def sortedLengths (t : Sparse BitSeq) : List (Nat × Symbol) := (codeLengths t).insertionSort keyLe

/-- The shift of R122, when the length increases. -/
def State.raiseLength (s : State) (L : Nat) : State :=
  if s.curLen.toNat < L then { s with nextCode := s.nextCode <<< (L - s.curLen.toNat), curLen := BitVec.ofNat 8 L } else s

/-- The assignment and the increment of R122, the code rendered by R123. -/
def State.assignCode (s : State) (x : Symbol) : State :=
  { s with can := Sparse.put s.can x.toNat (BitSeq.ofNat s.curLen.toNat s.nextCode), nextCode := s.nextCode + 1 }

/-- One symbol of the sorted list. -/
def State.numberSymbol (s : State) (e : Nat × Symbol) : State := (s.raiseLength e.1).assignCode e.2

/-- The loop of R120 with its initialisations. -/
def State.numberCodes (s : State) : State :=
  (sortedLengths s.raw).foldl State.numberSymbol { s with can := [], nextCode := 0, curLen := 0#8 }

/-! ## The encoder loop (44_encoder.md R130 to R134) -/

/-- The active code map (R131). -/
def State.codeMap (s : State) (useCanonical : Bool) : Sparse BitSeq := if useCanonical then s.can else s.raw

/-- The loop of R130 from byte `i` on: the output, or the error and its info (R132, R134). -/
def encodeText (cap : Nat) (map : Sparse BitSeq) : Nat → BitSeq → List Byte → Except (Status × Imm) BitSeq
  | _, acc, [] => .ok acc
  | i, acc, b :: r =>
    match Sparse.entry map b.toNat with
    | none => .error (.unknownSymbol, BitVec.ofNat 32 i)
    | some c =>
      if cap < acc.len.toNat + c.len.toNat then .error (.capacity, 0)
      else encodeText cap map (i + 1) (acc.appendSeq c) r

/-! ## Receiving a command -/

/-- The state in which a command runs: its move taken and its payload delivered. -/
def State.accept (s : State) (text : List Byte) (rest : List HostMove) : State :=
  { s with moves := rest, tin := s.tin ++ text }

/-- The moves and payload that present word `w` next: a payload command comes with exactly `IMM` bytes of 0. -/
def State.present (s : State) (w : Word) : State :=
  { s with moves := .command w (if takesPayload w then List.replicate (immField w).toNat 0#8 else []) :: s.moves }

end Sys2Proof.Machine
end

