-- ==== Sys2Proof/Machine/Flags.lean ====
section
/-! DEFINITION. The block has no flag and no condition code (10_state.md R34). What a later command tests is `STAGE`, and
what a command reports is `STATUS`; this file gives their numbers and the stage check. -/

namespace Sys2Proof.Machine

/-- The number of a stage (10_state.md R22). -/
def Stage.code : Stage → BitVec 3
  | .empty => 0#3
  | .frequenciesCounted => 1#3
  | .treeBuilt => 2#3
  | .rawCodesGenerated => 3#3
  | .canonicalCodesGenerated => 4#3
  | .encoded => 5#3

/-- The number of a status (60_exceptions.md R151). -/
def Status.code : Status → BitVec 4
  | .ok => 0#4
  | .usageOrder => 1#4
  | .unknownSymbol => 2#4
  | .emptyInput => 3#4
  | .capacity => 4#4
  | .illegalCommand => 5#4

/-- `STAGE >= n`. -/
def Stage.atLeast (st : Stage) (n : Nat) : Bool := n ≤ st.code.toNat

/-- The check of a command that passes at one stage only (60_exceptions.md R152). -/
def atStage (want : Stage) (s : State) (k : State → Outcome) : Outcome :=
  if s.stage = want then k s else raise .usageOrder 0 s

end Sys2Proof.Machine
end

