-- ==== Sys2Proof/Machine/Operands.lean ====
section
/-! DEFINITION. Resolving a selector (41_bit_sequence.md R92). The other operand forms, a symbol, an immediate and a flag bit,
are used as they stand (30_encoding.md R64). -/

namespace Sys2Proof.Machine

/-- Phase 1 of R92: the stage the selector needs. -/
def stagePasses (st : Stage) : Selector → Bool
  | .scr => true
  | .out => st.atLeast 5
  | .raw _ => st.atLeast 3
  | .can _ => st.atLeast 4

/-- Phase 2 of R92 and the denotation: the sequence, `none` when the entry is not valid. -/
def denote (s : State) : Selector → Option BitSeq
  | .scr => some s.scr
  | .out => some s.out
  | .raw x => Sparse.entry s.raw x.toNat
  | .can x => Sparse.entry s.can x.toNat

/-- Phase 2 for one selector: go on with the sequence, or raise `UnknownSymbolError` with `RES = 0`. -/
def withPresent (a : Selector) (s : State) (k : BitSeq → Outcome) : Outcome :=
  match denote s a with
  | none => raise .unknownSymbol 0 s
  | some q => k q

/-- `resolve(KA, SA)`. -/
def withSeq (a : Selector) (s : State) (k : BitSeq → Outcome) : Outcome :=
  if stagePasses s.stage a then withPresent a s k else raise .usageOrder 0 s

/-- Two selectors: phase 1 of A and of B, then phase 2 of A, then of B. -/
def withSeqs (a b : Selector) (s : State) (k : BitSeq → BitSeq → Outcome) : Outcome :=
  if stagePasses s.stage a && stagePasses s.stage b then
    withPresent a s fun q => withPresent b s fun p => k q p
  else raise .usageOrder 0 s

end Sys2Proof.Machine
end

