-- ==== Sys2Proof/Machine/BitSequence.lean ====
section
/-! DEFINITION. The Bit Sequence commands (41_bit_sequence.md). -/

namespace Sys2Proof.Machine

/-- `BSCLR` (R82). -/
def execBsclr (s : State) : Outcome := ok 0 [] { s with scr := BitSeq.empty }

/-- `BSAPPB b` (R83). -/
def execBsappb (b : Bool) (s : State) : Outcome :=
  if s.cfg.scrCapBits.toNat < s.scr.len.toNat + 1 then raise .capacity 0 s
  else ok 0 [] { s with scr := s.scr.append b }

/-- `BSAPPS sel` (R84). The decoder gives no `BSAPPS SCR`; the term is refused as its word is (30_encoding.md R68 (4)). -/
def execBsapps (a : Selector) (s : State) : Outcome :=
  if a = .scr then raise .illegalCommand 0 s
  else withSeq a s fun q =>
    if s.cfg.scrCapBits.toNat < s.scr.len.toNat + q.len.toNat then raise .capacity 0 s
    else ok 0 [] { s with scr := s.scr.appendSeq q }

/-- `BSBIT sel, i` (R85). -/
def execBsbit (a : Selector) (i : Imm) (s : State) : Outcome :=
  withSeq a s fun q => ok (if q.bitAt i.toNat then 1 else 0) [] s

/-- `BSLEN sel` (R86). -/
def execBslen (a : Selector) (s : State) : Outcome := withSeq a s fun q => ok q.len [] s

/-- `BSBYTES sel` (R87). -/
def execBsbytes (a : Selector) (s : State) : Outcome :=
  withSeq a s fun q => ok (BitVec.ofNat 32 q.byteCount) [] s

/-- `BSBIN sel` (R88). -/
def execBsbin (a : Selector) (s : State) : Outcome := withSeq a s fun q => ok q.len (q.bits.map bitChar) s

/-- `BSHEX sel, n` (R89): the first `min(n, byte count)` bytes. -/
def execBshex (a : Selector) (limit : Imm) (s : State) : Outcome :=
  withSeq a s fun q =>
    ok (BitVec.ofNat 32 (2 * min limit.toNat q.byteCount))
      ((List.range (min limit.toNat q.byteCount)).flatMap fun k => hexPair (q.byteAt k)) s

/-- `BSEQ selA, selB` (R90). -/
def execBseq (a b : Selector) (s : State) : Outcome :=
  withSeqs a b s fun q p => ok (if q.same p then 1 else 0) [] s

end Sys2Proof.Machine
end

