-- ==== Sys2Proof/Machine/Canonicalizer.lean ====
section
/-! DEFINITION. The canonical code-table generator (43_canonicalizer.md). -/

namespace Sys2Proof.Machine

/-- `CANON` (R120). `NEXTCODE` and `CURLEN` are not kept (10_state.md R20; log 7). -/
def execCanon (s : State) : Outcome :=
  atStage .rawCodesGenerated s fun s =>
    ok 0 [] { s with
      can := s.numberCodes.can
      stage := .canonicalCodesGenerated
      nextCode := 0
      curLen := 0#8 }

end Sys2Proof.Machine
end

