-- ==== Sys2Proof/Machine/Encoder.lean ====
section
/-! DEFINITION. The bit-sequence encoder (44_encoder.md). -/

namespace Sys2Proof.Machine

/-- `ENCODE CAN, "text"` and `ENCODE RAW, "text"` (R130). -/
def execEncode (useCanonical : Bool) (n : Imm) (s : State) : Outcome :=
  withText n s fun text s => atStage .canonicalCodesGenerated s fun s =>
    match encodeText s.cfg.outCapBits.toNat (s.codeMap useCanonical) 0 BitSeq.empty text with
    | .error (e, info) => raise e info s
    | .ok acc => ok 0 [] { s with out := acc, stage := .encoded }

end Sys2Proof.Machine
end

