-- ==== Sys2Proof/Machine/Session.lean ====
section
/-! DEFINITION. The session and read-out commands (45_session_readout.md). -/

namespace Sys2Proof.Machine

/-- `NEWSESSION` (R140). -/
def execNewsession (s : State) : Outcome := ok 0 [] s.clearSession

/-- `RDSTAGE` (R141). -/
def execRdstage (s : State) : Outcome := ok (s.stage.code.setWidth 32) [] s

/-- `RDFREQ s` (R142). -/
def execRdfreq (x : Symbol) (s : State) : Outcome :=
  if s.stage.atLeast 1 then ok (Sparse.read s.freq x.toNat) [] s else raise .usageOrder 0 s

end Sys2Proof.Machine
end

