-- ==== Sys2Proof/Machine/TreeBuilder.lean ====
section
/-! DEFINITION. The Code Tree Builder commands (42_tree_builder.md). -/

namespace Sys2Proof.Machine

/-- `COUNT "text"` (R100). -/
def execCount (n : Imm) (s : State) : Outcome :=
  withText n s fun text s => atStage .empty s fun s =>
    ok 0 [] { s with
      freq := countText text
      nsym := BitVec.ofNat 9 (presentSymbols (countText text)).length
      stage := .frequenciesCounted }

/-- `BUILD` (R101): the stage check, then the empty table (60_exceptions.md R154), then leaves and merges. `TIE` and `POOL`
are not kept (10_state.md R32; log 7). -/
def execBuild (s : State) : Outcome :=
  atStage .frequenciesCounted s fun s =>
    if s.nsym = 0 then raise .emptyInput 0 s
    else ok 0 [] { s with
      node := s.buildTree.node
      root := s.buildTree.pool.headD 0
      stage := .treeBuilt
      tie := 0#9
      pool := [] }

/-- `GENCODES` (R107): the raw codes, then the tree discarded. -/
def execGencodes (s : State) : Outcome :=
  atStage .treeBuilt s fun s =>
    ok 0 [] { s with
      raw := rawCodes s.node s.root
      node := []
      root := 0#9
      stage := .rawCodesGenerated }

end Sys2Proof.Machine
end

