-- ==== Sys2Proof/Machine/Dispatch.lean ====
section
/-! DEFINITION. One arm per command. -/

namespace Sys2Proof.Machine

def exec (i : Instr) (s : State) : Host.Outcome State Fault Refusal :=
  match i with
  | .newsession => Sys2Proof.Machine.execNewsession s
  | .rdstage => Sys2Proof.Machine.execRdstage s
  | .rdfreq x => Sys2Proof.Machine.execRdfreq x s
  | .count n => Sys2Proof.Machine.execCount n s
  | .build => Sys2Proof.Machine.execBuild s
  | .gencodes => Sys2Proof.Machine.execGencodes s
  | .canon => Sys2Proof.Machine.execCanon s
  | .encode f n => Sys2Proof.Machine.execEncode f n s
  | .bsclr => Sys2Proof.Machine.execBsclr s
  | .bsappb b => Sys2Proof.Machine.execBsappb b s
  | .bsapps a => Sys2Proof.Machine.execBsapps a s
  | .bsbit a n => Sys2Proof.Machine.execBsbit a n s
  | .bslen a => Sys2Proof.Machine.execBslen a s
  | .bsbytes a => Sys2Proof.Machine.execBsbytes a s
  | .bsbin a => Sys2Proof.Machine.execBsbin a s
  | .bshex a n => Sys2Proof.Machine.execBshex a n s
  | .bseq a b => Sys2Proof.Machine.execBseq a b s

end Sys2Proof.Machine
end

