-- ==== Sys2Proof/Machine/Step.lean ====
section
/-! DEFINITION. One step: the host's next move, if it has one. -/

namespace Sys2Proof.Machine

/-- A command word decoded and executed (30_encoding.md R68). -/
def runWord (w : Word) (s : State) : Host.Outcome State Fault Refusal :=
  match decode w with
  | .ok i => exec i s
  | .error _ => illegal w s

/-- One transaction (00_scope.md R6). With no move pending the block is idle and holds its state (60_exceptions.md R165). -/
def step (s : State) : Host.Outcome State Fault Refusal :=
  match s.moves with
  | [] => .next s
  | .command w text :: rest => runWord w (s.accept text rest)
  | .reset :: rest => .next (State.hardReset { s with moves := rest })

/-- The state in which the host presents table word `w` next (log 18). -/
def State.withFetchWord (s : State) (nbits w : Nat) : State := s.present (BitVec.ofNat 64 (w % 2 ^ nbits))

end Sys2Proof.Machine
end

