-- ==== Sys2Proof/Machine/Assembler.lean ====
section
/-! DEFINITION. The assembler form of a command and the two pseudo-instructions (30_encoding.md R70, R71): what a line of a
program asks the host to do, how the line is written, and how it is read from its characters. No rule of the machine reads this file. -/

namespace Sys2Proof.Machine

/-- A line of a program: the eighteen forms of R70's table and the two pseudo-instructions of R71. -/
inductive AsmLine where
  | newsession
  | rdstage
  | rdfreq (s : Symbol)
  | count (text : List Byte)
  | build
  | gencodes
  | canon
  | encodeCan (text : List Byte)
  | encodeRaw (text : List Byte)
  | bsclr
  | bsappb (b : Bool)
  | bsapps (a : Selector)
  | bsbit (a : Selector) (i : Imm)
  | bslen (a : Selector)
  | bsbytes (a : Selector)
  | bsbin (a : Selector)
  | bshex (a : Selector) (limit : Imm)
  | bseq (a b : Selector)
  /-- `BSHEX sel`, no limit. -/
  | bshexAll (a : Selector)
  /-- `BITS "..."`. -/
  | bits (bs : List Bool)
  deriving DecidableEq, Repr

/-- One command without a payload. -/
def plainMove (i : Instr) : Option (List HostMove) :=
  if i.wellFormed then some [.command (encode i) []] else none

/-- One command with its text: `IMM` is the byte count, which must fit 32 bits. -/
def textMove (i : Imm → Instr) (text : List Byte) : Option (List HostMove) :=
  if text.length < 2 ^ 32 then some [.command (encode (i (BitVec.ofNat 32 text.length))) text] else none

/-- The host moves of a line; `none` for a line with no encoding: `BSAPPS SCR`, or a text of `2^32` bytes or more. -/
def AsmLine.assemble : AsmLine → Option (List HostMove)
  | .newsession => plainMove .newsession
  | .rdstage => plainMove .rdstage
  | .rdfreq s => plainMove (.rdfreq s)
  | .count text => textMove .count text
  | .build => plainMove .build
  | .gencodes => plainMove .gencodes
  | .canon => plainMove .canon
  | .encodeCan text => textMove (.encode true) text
  | .encodeRaw text => textMove (.encode false) text
  | .bsclr => plainMove .bsclr
  | .bsappb b => plainMove (.bsappb b)
  | .bsapps a => plainMove (.bsapps a)
  | .bsbit a i => plainMove (.bsbit a i)
  | .bslen a => plainMove (.bslen a)
  | .bsbytes a => plainMove (.bsbytes a)
  | .bsbin a => plainMove (.bsbin a)
  | .bshex a n => plainMove (.bshex a n)
  | .bseq a b => plainMove (.bseq a b)
  | .bshexAll a => plainMove (.bshex a 0xFFFFFFFF#32)
  | .bits bs => some (bs.map fun b => .command (encode (.bsappb b)) [])

/-! ## Writing a line -/

/-- Two upper-case hex digits. -/
def hexText (b : Byte) : String :=
  let digit (n : Nat) : Char := if n < 10 then Char.ofNat (0x30 + n) else Char.ofNat (0x41 + (n - 10))
  String.ofList [digit (b.toNat / 16), digit (b.toNat % 16)]

/-- A text payload as `x"..."` (R70). -/
def payloadText (text : List Byte) : String := "x\"" ++ String.join (text.map hexText) ++ "\""

/-- A selector as R70 writes it, its symbol as a number. -/
def selectorText : Selector → String
  | .scr => "SCR"
  | .out => "OUT"
  | .raw s => "RAW[" ++ toString s.toNat ++ "]"
  | .can s => "CAN[" ++ toString s.toNat ++ "]"

/-- A bit as R70 writes it. -/
def bitText (b : Bool) : String := if b then "1" else "0"

/-- The text of a line (R70, R71). -/
def AsmLine.text : AsmLine → String
  | .newsession => "NEWSESSION"
  | .rdstage => "RDSTAGE"
  | .rdfreq s => "RDFREQ " ++ toString s.toNat
  | .count text => "COUNT " ++ payloadText text
  | .build => "BUILD"
  | .gencodes => "GENCODES"
  | .canon => "CANON"
  | .encodeCan text => "ENCODE CAN, " ++ payloadText text
  | .encodeRaw text => "ENCODE RAW, " ++ payloadText text
  | .bsclr => "BSCLR"
  | .bsappb b => "BSAPPB " ++ bitText b
  | .bsapps a => "BSAPPS " ++ selectorText a
  | .bsbit a i => "BSBIT " ++ selectorText a ++ ", " ++ toString i.toNat
  | .bslen a => "BSLEN " ++ selectorText a
  | .bsbytes a => "BSBYTES " ++ selectorText a
  | .bsbin a => "BSBIN " ++ selectorText a
  | .bshex a n => "BSHEX " ++ selectorText a ++ ", " ++ toString n.toNat
  | .bseq a b => "BSEQ " ++ selectorText a ++ ", " ++ selectorText b
  | .bshexAll a => "BSHEX " ++ selectorText a
  | .bits bs => "BITS \"" ++ String.join (bs.map bitText) ++ "\""

/-! ## Reading a line (log 17) -/

/-- The pieces of a line. -/
inductive AsmToken where
  /-- Letters and digits: a mnemonic, a name or a number. -/
  | name (cs : List Char)
  /-- A character in single quotes. -/
  | quoted (b : Byte)
  /-- A string in double quotes. -/
  | text (bs : List Byte)
  /-- `x"..."`. -/
  | hex (bs : List Byte)
  | comma
  | openBracket
  | closeBracket
  deriving DecidableEq, Repr

/-- Where in a line the reader is. -/
inductive AsmMode where
  | between
  | name (cs : List Char)
  | text (bs : List Byte)
  | hex (bs : List Byte)
  | hexHalf (bs : List Byte) (high : Nat)
  | quote
  | quoteEnd (b : Byte)
  deriving DecidableEq, Repr

/-- The character that begins and ends a string. -/
def doubleQuote : Char := Char.ofNat 0x22

/-- The character that begins and ends a quoted symbol. -/
def singleQuote : Char := Char.ofNat 0x27

/-- A letter or a digit. -/
def isNameChar (c : Char) : Bool :=
  (0x30 ≤ c.toNat && c.toNat ≤ 0x39) || (0x41 ≤ c.toNat && c.toNat ≤ 0x5A) || (0x61 ≤ c.toNat && c.toNat ≤ 0x7A)

/-- The byte of a printable character, its ASCII value (R70). -/
def printableByte (c : Char) : Option Byte :=
  if 0x20 ≤ c.toNat ∧ c.toNat ≤ 0x7E then some (BitVec.ofNat 8 c.toNat) else none

/-- The value of a hex digit of either case. -/
def hexValue (c : Char) : Option Nat :=
  if 0x30 ≤ c.toNat ∧ c.toNat ≤ 0x39 then some (c.toNat - 0x30)
  else if 0x41 ≤ c.toNat ∧ c.toNat ≤ 0x46 then some (c.toNat - 0x41 + 10)
  else if 0x61 ≤ c.toNat ∧ c.toNat ≤ 0x66 then some (c.toNat - 0x61 + 10)
  else none

/-- A character outside every name and quote: the pieces it ends and where the reader goes. -/
def readBetween (c : Char) : Option (List AsmToken × AsmMode) :=
  if c = ' ' then some ([], .between)
  else if c = ',' then some ([.comma], .between)
  else if c = '[' then some ([.openBracket], .between)
  else if c = ']' then some ([.closeBracket], .between)
  else if c = doubleQuote then some ([], .text [])
  else if c = singleQuote then some ([], .quote)
  else if isNameChar c then some ([], .name [c])
  else none

/-- One character read. -/
def readChar (m : AsmMode) (c : Char) : Option (List AsmToken × AsmMode) :=
  match m with
  | .between => readBetween c
  | .name cs =>
    if isNameChar c then some ([], .name (cs ++ [c]))
    else if c = doubleQuote ∧ cs = ['x'] then some ([], .hex [])
    else (readBetween c).map fun r => (.name cs :: r.1, r.2)
  | .text bs => if c = doubleQuote then some ([.text bs], .between) else (printableByte c).map fun b => ([], .text (bs ++ [b]))
  | .hex bs => if c = doubleQuote then some ([.hex bs], .between) else (hexValue c).map fun d => ([], .hexHalf bs d)
  | .hexHalf bs high => (hexValue c).map fun d => ([], .hex (bs ++ [BitVec.ofNat 8 (16 * high + d)]))
  | .quote => (printableByte c).map fun b => ([], .quoteEnd b)
  | .quoteEnd b => if c = singleQuote then some ([.quoted b], .between) else none

/-- The pieces of the rest of a line. -/
def readTokens : AsmMode → List Char → Option (List AsmToken)
  | .between, [] => some []
  | .name cs, [] => some [.name cs]
  | .text _, [] | .hex _, [] | .hexHalf _ _, [] | .quote, [] | .quoteEnd _, [] => none
  | m, c :: cs => (readChar m c).bind fun r => (readTokens r.2 cs).map (r.1 ++ ·)

/-- Digits in a base, most significant first. -/
def readDigits (base : Nat) : Nat → List Char → Option Nat
  | acc, [] => some acc
  | acc, c :: cs => (hexValue c).bind fun d => if d < base then readDigits base (base * acc + d) cs else none

/-- A number, decimal or with `0x`. -/
def readNumber (cs : List Char) : Option Nat :=
  match cs with
  | '0' :: 'x' :: d :: ds => readDigits 16 0 (d :: ds)
  | d :: ds => readDigits 10 0 (d :: ds)
  | [] => none

/-- A number of `w` bits. -/
def readBits (w : Nat) (t : AsmToken) : Option (BitVec w) :=
  match t with
  | .name cs => (readNumber cs).bind fun n => if n < 2 ^ w then some (BitVec.ofNat w n) else none
  | .quoted _ | .text _ | .hex _ | .comma | .openBracket | .closeBracket => none

/-- A symbol, a number or a quoted character. -/
def readSymbol (t : AsmToken) : Option Symbol :=
  match t with
  | .quoted b => some b
  | .name _ | .text _ | .hex _ | .comma | .openBracket | .closeBracket => readBits 8 t

/-- A text payload in either form. -/
def readPayload (ts : List AsmToken) : Option (List Byte) :=
  match ts with
  | [.text bs] => some bs
  | [.hex bs] => some bs
  | _ => none

/-- A selector and what follows it. -/
def readSelector (ts : List AsmToken) : Option (Selector × List AsmToken) :=
  match ts with
  | .name k :: .openBracket :: s :: .closeBracket :: r =>
    if k = ['R', 'A', 'W'] then (readSymbol s).map fun x => (.raw x, r)
    else if k = ['C', 'A', 'N'] then (readSymbol s).map fun x => (.can x, r)
    else none
  | .name k :: r =>
    if k = ['S', 'C', 'R'] then some (.scr, r) else if k = ['O', 'U', 'T'] then some (.out, r) else none
  | _ => none

/-- A string of `0` and `1`. -/
def readBitString (bs : List Byte) : Option (List Bool) :=
  bs.mapM fun b => if b = 0x31#8 then some true else if b = 0x30#8 then some false else none

/-- A command whose one operand is a selector. -/
def oneSelector (ts : List AsmToken) (k : Selector → AsmLine) : Option AsmLine :=
  (readSelector ts).bind fun r => if r.2 = [] then some (k r.1) else none

/-- The mnemonic of an opcode (30_encoding.md R66). -/
def opcodeMnemonic : Opcode → List Char
  | .newsession => ['N', 'E', 'W', 'S', 'E', 'S', 'S', 'I', 'O', 'N']
  | .rdstage => ['R', 'D', 'S', 'T', 'A', 'G', 'E']
  | .rdfreq => ['R', 'D', 'F', 'R', 'E', 'Q']
  | .count => ['C', 'O', 'U', 'N', 'T']
  | .build => ['B', 'U', 'I', 'L', 'D']
  | .gencodes => ['G', 'E', 'N', 'C', 'O', 'D', 'E', 'S']
  | .canon => ['C', 'A', 'N', 'O', 'N']
  | .encode => ['E', 'N', 'C', 'O', 'D', 'E']
  | .bsclr => ['B', 'S', 'C', 'L', 'R']
  | .bsappb => ['B', 'S', 'A', 'P', 'P', 'B']
  | .bsapps => ['B', 'S', 'A', 'P', 'P', 'S']
  | .bsbit => ['B', 'S', 'B', 'I', 'T']
  | .bslen => ['B', 'S', 'L', 'E', 'N']
  | .bsbytes => ['B', 'S', 'B', 'Y', 'T', 'E', 'S']
  | .bsbin => ['B', 'S', 'B', 'I', 'N']
  | .bshex => ['B', 'S', 'H', 'E', 'X']
  | .bseq => ['B', 'S', 'E', 'Q']

/-- A line of an opcode with the given operands, the rows of R70's table and `BSHEX sel`. -/
def readOperands (o : Opcode) (ts : List AsmToken) : Option AsmLine :=
  match o with
  | .newsession => if ts = [] then some .newsession else none
  | .rdstage => if ts = [] then some .rdstage else none
  | .build => if ts = [] then some .build else none
  | .gencodes => if ts = [] then some .gencodes else none
  | .canon => if ts = [] then some .canon else none
  | .bsclr => if ts = [] then some .bsclr else none
  | .rdfreq => match ts with
    | [s] => (readSymbol s).map .rdfreq
    | _ => none
  | .count => (readPayload ts).map .count
  | .encode => match ts with
    | .name k :: .comma :: r =>
      if k = ['C', 'A', 'N'] then (readPayload r).map .encodeCan
      else if k = ['R', 'A', 'W'] then (readPayload r).map .encodeRaw
      else none
    | _ => none
  | .bsappb => match ts with
    | [b] => (readBits 1 b).map fun v => .bsappb (v == 1#1)
    | _ => none
  | .bsapps => oneSelector ts .bsapps
  | .bslen => oneSelector ts .bslen
  | .bsbytes => oneSelector ts .bsbytes
  | .bsbin => oneSelector ts .bsbin
  | .bsbit => (readSelector ts).bind fun r => match r.2 with
    | [.comma, n] => (readBits 32 n).map (.bsbit r.1)
    | _ => none
  | .bshex => (readSelector ts).bind fun r => match r.2 with
    | [] => some (.bshexAll r.1)
    | [.comma, n] => (readBits 32 n).map (.bshex r.1)
    | _ => none
  | .bseq => (readSelector ts).bind fun r => match r.2 with
    | .comma :: l => oneSelector l (.bseq r.1)
    | _ => none

/-- A line of a program from its characters. -/
def AsmLine.read (cs : List Char) : Option AsmLine :=
  (readTokens .between cs).bind fun ts =>
    match ts with
    | .name m :: r =>
      match Opcode.all.find? fun o => opcodeMnemonic o == m with
      | some o => readOperands o r
      | none =>
        if m = ['B', 'I', 'T', 'S'] then
          match r with
          | [.text bs] => (readBitString bs).map .bits
          | _ => none
        else none
    | _ => none

end Sys2Proof.Machine
end

