-- ==== Sys2Proof/Safety.lean ====
section
/-! DEFINITION. The terms the claims use: the abstract Bit Sequence of 00_scope.md R11, the trees and code tables of the
rules, the reference decoder of 44_encoder.md R135, and the invariants of a run. -/

namespace Sys2Proof.Machine

/-! ## Bit Sequences -/

/-- The storage of a Bit Sequence is as 20_memory.md R43 says: a canonical byte store with no byte beyond the last, and
padding bits 0. -/
abbrev BitSeq.wf (q : BitSeq) : Prop :=
  Memory.wf q.bytes ∧ (∀ e ∈ q.bytes, e.1 < q.byteCount) ∧
    ∀ j < 8, q.len.toNat ≤ 8 * (q.len.toNat / 8) + j → (q.bytes.read (q.len.toNat / 8)).getLsbD (7 - j) = false

/-- `pack(q)[k]` (00_scope.md R11) of a list of bits. -/
def packByte (bs : List Bool) (k : Nat) : Nat :=
  ((List.range 8).map fun j => (bs.getD (8 * k + j) false).toNat * 2 ^ (7 - j)).sum

/-- `val(q)` (00_scope.md R11). -/
def bitsVal (bs : List Bool) : Nat := bs.foldl (fun v b => 2 * v + b.toNat) 0

/-- The byte values of `'0'` to `'9'` and `'A'` to `'F'` (30_encoding.md R74). -/
def hexDigits : List Byte :=
  [0x30#8, 0x31#8, 0x32#8, 0x33#8, 0x34#8, 0x35#8, 0x36#8, 0x37#8] ++
  [0x38#8, 0x39#8, 0x41#8, 0x42#8, 0x43#8, 0x44#8, 0x45#8, 0x46#8]

/-! ## Command words -/

/-- The four tests of 30_encoding.md R68. -/
def LegalWord (w : Word) : Prop :=
  ∃ o ∈ Opcode.all, o.code = opField w ∧ w &&& o.mask = o.pattern ∧
    (o.format.hasKA = true → (kaField w).toNat ≤ 1 → saField w = 0) ∧
    (o.format.hasB = true → (kbField w).toNat ≤ 1 → sbField w = 0) ∧
    (o = .bsapps → kaField w ≠ 0)

/-! ## Responses -/

/-- The payload bytes a command consumes (30_encoding.md R72). -/
def Instr.textLength : Instr → Nat
  | .count n => n.toNat
  | .encode _ n => n.toNat
  | _ => 0

/-- The payload bytes a word consumes, legal or not (30_encoding.md R72). -/
def payloadLength (w : Word) : Nat := if opField w = 0x10#8 ∨ opField w = 0x14#8 then (immField w).toNat else 0

/-- The host has delivered the payload of the command (70_reset_and_hazards.md R174). -/
def Supplied (i : Instr) (s : State) : Prop := Instr.textLength i ≤ s.tin.length

/-- The selectors of a command. -/
def Instr.selectors : Instr → List Selector
  | .bsapps a => [a]
  | .bsbit a _ => [a]
  | .bslen a => [a]
  | .bsbytes a => [a]
  | .bsbin a => [a]
  | .bshex a _ => [a]
  | .bseq a b => [a, b]
  | _ => []

/-! ## Selectors (41_bit_sequence.md R92) -/

/-- Phase 1 fails. -/
def TooEarly (s : State) : Selector → Prop
  | .scr => False
  | .out => s.stage ≠ .encoded
  | .raw _ => s.stage.code.toNat < 3
  | .can _ => s.stage.code.toNat < 4

/-- Phase 1 passes and phase 2 fails. -/
def Absent (s : State) : Selector → Prop
  | .scr => False
  | .out => False
  | .raw x => 3 ≤ s.stage.code.toNat ∧ Sparse.entry s.raw x.toNat = none
  | .can x => 4 ≤ s.stage.code.toNat ∧ Sparse.entry s.can x.toNat = none

/-- Both phases pass and the selector denotes `q`. -/
def ResolvesTo (s : State) (q : BitSeq) : Selector → Prop
  | .scr => q = s.scr
  | .out => s.stage = .encoded ∧ q = s.out
  | .raw x => 3 ≤ s.stage.code.toNat ∧ Sparse.entry s.raw x.toNat = some q
  | .can x => 4 ≤ s.stage.code.toNat ∧ Sparse.entry s.can x.toNat = some q

/-- What R92 says of the selectors of a command that does not run: the stage error of any of them comes before the presence
error of any. -/
def RefusesSelectors (i : Instr) (s : State) : Prop :=
  ((∃ a ∈ Instr.selectors i, TooEarly s a) →
    exec i s = .next { s with responses := ⟨.usageOrder, 0, []⟩ :: s.responses }) ∧
  ((∀ a ∈ Instr.selectors i, ¬ TooEarly s a) → (∃ a ∈ Instr.selectors i, Absent s a) →
    exec i s = .next { s with responses := ⟨.unknownSymbol, 0, []⟩ :: s.responses })

/-- The read commands of 20_memory.md R49. -/
def Instr.reads : Instr → Bool
  | .rdstage => true
  | .rdfreq _ => true
  | .bsbit _ _ => true
  | .bslen _ => true
  | .bsbytes _ => true
  | .bsbin _ => true
  | .bshex _ _ => true
  | .bseq _ _ => true
  | .newsession | .count _ | .build | .gencodes | .canon | .encode _ _ | .bsclr | .bsappb _ | .bsapps _ => false

/-- The commands that use only `SCR` (10_state.md R30, 60_exceptions.md R152). -/
def Instr.scratchOnly : Instr → Bool
  | .bsclr => true
  | .bsappb _ => true
  | .bsbit a _ => a == .scr
  | .bslen a => a == .scr
  | .bsbytes a => a == .scr
  | .bsbin a => a == .scr
  | .bshex a _ => a == .scr
  | .bseq a b => a == .scr && b == .scr
  | .newsession | .rdstage | .rdfreq _ | .count _ | .build | .gencodes | .canon | .encode _ _ | .bsapps _ => false

/-- The rows of 60_exceptions.md R152 on selectors, by stage number. -/
def selectorsPass (stage : Nat) (l : List Selector) : Prop :=
  (∀ x, .raw x ∈ l → 3 ≤ stage) ∧ (∀ x, .can x ∈ l → 4 ≤ stage) ∧ (.out ∈ l → stage = 5)

/-- The table of 60_exceptions.md R152, by stage number. -/
def passesStageCheck (stage : Nat) (i : Instr) : Prop :=
  match i with
  | .count _ => stage = 0
  | .build => stage = 1
  | .gencodes => stage = 2
  | .canon => stage = 3
  | .encode _ _ => stage = 4
  | .rdfreq _ => 1 ≤ stage
  | .newsession | .rdstage | .bsclr | .bsappb _ => True
  | .bsapps a | .bsbit a _ | .bslen a | .bsbytes a | .bsbin a | .bshex a _ => selectorsPass stage [a]
  | .bseq a b => selectorsPass stage [a, b]

/-! ## Frequencies -/

/-- The sum of all counts (45_session_readout.md R143). -/
def freqTotal (f : Sparse Freq) : Nat := (allSymbols.map fun x => (Sparse.read f x.toNat).toNat).sum

/-- The length of the text in code bits, by symbol: the sum of `FREQ[s] * length` over the symbols of the table
(44_encoder.md R133 (e)), which is the weighted path length of 42_tree_builder.md R109 (a). -/
def codeCost (freq : Sparse Freq) (len : Symbol → Nat) : Nat :=
  ((presentSymbols freq).map fun x => (Sparse.read freq x.toNat).toNat * len x).sum

/-! ## Trees (10_state.md R25 to R27, 42_tree_builder.md R102 to R105) -/

/-- `t` is an internal node with children `l` and `r`. -/
def Children (node : Sparse Node) (t : Nat) (l r : NodeIx) : Prop :=
  ∃ f k, Sparse.entry node t = some (.internal f k l r)

/-- `c` is a child of `t`. -/
def ChildOf (node : Sparse Node) (c t : Nat) : Prop := ∃ l r, Children node t l r ∧ (l.toNat = c ∨ r.toNat = c)

/-- The tree of a Frequency Table: its indices, its leaves, its internal nodes, single ownership, and the two extracted
nodes of each merge being the first two of the pool. -/
structure TreeOf (freq : Sparse Freq) (node : Sparse Node) (root : NodeIx) : Prop where
  /-- R26: the valid entries are exactly `0` to `2n - 2`. -/
  indices : node.map Prod.fst = List.range (2 * (presentSymbols freq).length - 1)
  /-- R26. -/
  rootLast : root.toNat + 2 = 2 * (presentSymbols freq).length
  /-- 42_tree_builder.md R103. -/
  leaves : ∀ k x, (presentSymbols freq)[k]? = some x →
    Sparse.entry node k = some (.leaf x (Sparse.read freq x.toNat) (BitVec.ofNat 9 k))
  /-- R27: two children created before their parent, the frequency their exact sum. -/
  internals : ∀ t, (presentSymbols freq).length ≤ t → t + 1 < 2 * (presentSymbols freq).length → ∃ f l r,
    Sparse.entry node t = some (.internal f (BitVec.ofNat 9 t) l r) ∧ l.toNat < t ∧ r.toNat < t ∧ l ≠ r ∧
      f.toNat = (nodeFrequency node l).toNat + (nodeFrequency node r).toNat
  /-- R27: every node but the root has exactly one parent. -/
  owned : ∀ c, c < root.toNat → ∃ t, ChildOf node c t ∧ ∀ t', ChildOf node c t' → t' = t
  /-- R102, R104, R105: at the merge that made `t`, the left child comes before the right, and the right before every other
  node that no earlier merge had taken. -/
  greedy : ∀ t l r, Children node t l r → before node l r = true ∧ ∀ c : NodeIx, c.toNat < t → c ≠ l → c ≠ r →
    (∀ t' < t, ¬ ChildOf node c.toNat t') → before node r c = true

/-- The node reached from `t` by a list of turns, 0 to the left and 1 to the right (42_tree_builder.md R107). -/
def descend (node : Sparse Node) : NodeIx → List Bool → Option Node
  | t, [] => Sparse.entry node t.toNat
  | t, b :: bs =>
    match Sparse.entry node t.toNat with
    | some (.internal _ _ l r) => descend node (if b then r else l) bs
    | _ => none

/-! ## Code tables (10_state.md R28, 42_tree_builder.md R109, 43_canonicalizer.md R124) -/

/-- The code word of a symbol as bits. -/
def codeBits (t : Sparse BitSeq) (x : Symbol) : Option (List Bool) := (Sparse.entry t x.toNat).map BitSeq.bits

/-- No code word is a prefix of another symbol's. -/
def PrefixFree (t : Sparse BitSeq) : Prop :=
  ∀ x y cx cy, codeBits t x = some cx → codeBits t y = some cy → cx <+: cy → x = y

/-- The sum of `2^(-length)` over the code words, times `2^255`. -/
def kraftSum (t : Sparse BitSeq) : Nat :=
  (allSymbols.map fun x => match codeBits t x with
    | none => 0
    | some c => 2 ^ (maxCodeLen - c.length)).sum

/-- Every code word has the size of an entry of `RAW` or `CAN` (10_state.md R20). -/
def CodesFit (t : Sparse BitSeq) : Prop := ∀ x c, codeBits t x = some c → c.length ≤ maxCodeLen

/-- A code table for the symbols of a Frequency Table. -/
structure CodesFor (freq : Sparse Freq) (t : Sparse BitSeq) : Prop where
  /-- R109 (c), R124 (d): exactly the symbols of the Frequency Table have a code. -/
  symbols : ∀ x : Symbol, (codeBits t x).isSome ↔ 1 ≤ (Sparse.read freq x.toNat).toNat
  /-- 10_state.md R28: lengths 1 to 255. -/
  lengths : ∀ x c, codeBits t x = some c → 1 ≤ c.length ∧ c.length ≤ maxCodeLen
  /-- R109 (b), R124 (b). -/
  prefixFree : PrefixFree t
  /-- R109 (d). -/
  kraft : kraftSum t = if (presentSymbols freq).length = 1 then 2 ^ (maxCodeLen - 1) else 2 ^ maxCodeLen

/-- R124 (a): the two tables give every symbol codes of one length. -/
def SameLengths (t u : Sparse BitSeq) : Prop :=
  ∀ x, (codeBits t x).map List.length = (codeBits u x).map List.length

/-- The number the canonical numbering gives symbol `x` at length `L` (43_canonicalizer.md R122, R125): every code word before
it in the order (length, symbol) takes `2^(L - length)` of the numbers of length `L`. -/
def canonicalValue (t : Sparse BitSeq) (L : Nat) (x : Symbol) : Nat :=
  (allSymbols.map fun y => match codeBits t y with
    | none => 0
    | some c => if c.length < L ∨ (c.length = L ∧ y.toNat < x.toNat) then 2 ^ (L - c.length) else 0).sum

/-- `u` gives the symbols of a list words that are not empty and of which none is a prefix of another's. -/
def PrefixCodeOn (l : List Symbol) (u : Symbol → List Bool) : Prop :=
  (∀ x ∈ l, u x ≠ []) ∧ ∀ x ∈ l, ∀ y ∈ l, u x <+: u y → x = y

/-- The code words of a text one after another, in input order (44_encoder.md R131); a byte with no code adds nothing. -/
def textCode (t : Sparse BitSeq) (text : List Byte) : List Bool := text.flatMap fun b => (codeBits t b).getD []

/-- Every byte of a text has a code. -/
abbrev AllCoded (t : Sparse BitSeq) (text : List Byte) : Prop := ∀ b ∈ text, (codeBits t b).isSome

/-! ## The reference decoder (44_encoder.md R135) -/

/-- The present symbols whose code is a prefix of the remaining bits. -/
def candidates (t : Sparse BitSeq) (bs : List Bool) : List Symbol :=
  allSymbols.filter fun x => match codeBits t x with
    | none => false
    | some c => c.isPrefixOf bs

/-- `decode(M, q)`: at each step there must be exactly one candidate; `none` when there is not. -/
def refDecode (t : Sparse BitSeq) : Nat → List Bool → Option (List Symbol)
  | _, [] => some []
  | 0, _ :: _ => none
  | fuel + 1, bs =>
    match candidates t bs with
    | [x] => (refDecode t fuel (bs.drop ((codeBits t x).getD []).length)).map (x :: ·)
    | _ => none

/-! ## Invariants -/

/-- The arrays and sequence objects are in their canonical forms and within their sizes, at every stage. -/
structure StorageInv (s : State) : Prop where
  cfg : s.cfg.wf
  freqKeys : Sparse.wf maxSymbols s.freq
  freqPresent : ∀ e ∈ s.freq, e.2 ≠ 0
  nodeKeys : Sparse.wf maxNodes s.node
  rawKeys : Sparse.wf maxSymbols s.raw
  rawCodes : ∀ e ∈ s.raw, e.2.wf
  rawSizes : ∀ e ∈ s.raw, e.2.len.toNat ≤ maxCodeLen
  canKeys : Sparse.wf maxSymbols s.can
  canCodes : ∀ e ∈ s.can, e.2.wf
  canSizes : ∀ e ∈ s.can, e.2.len.toNat ≤ maxCodeLen
  out : s.out.wf
  outFits : s.out.len.toNat ≤ s.cfg.outCapBits.toNat
  scr : s.scr.wf
  scrFits : s.scr.len.toNat ≤ s.cfg.scrCapBits.toNat

/-- What holds data at each stage (10_state.md R22, R37), `NSYM` counts the symbols (R24), and the transient group is at
rest between commands (R20; log 7). -/
structure LifetimeInv (s : State) : Prop where
  nsym : s.nsym.toNat = (presentSymbols s.freq).length
  empty : s.stage = .empty → s.freq = []
  noTree : s.stage ≠ .treeBuilt → s.node = [] ∧ s.root = 0
  noRaw : s.stage.code.toNat < 3 → s.raw = []
  noCan : s.stage.code.toNat < 4 → s.can = []
  noOut : s.stage.code.toNat < 5 → s.out = BitSeq.empty
  rest : s.tie = 0 ∧ s.pool = [] ∧ s.nextCode = 0 ∧ s.curLen = 0#8

/-- What each stage's data are, whatever the session did: the tree of the counts, and code tables for them. -/
structure SessionInv (s : State) : Prop where
  storage : StorageInv s
  lifetime : LifetimeInv s
  /-- 42_tree_builder.md R110. -/
  total : freqTotal s.freq < 2 ^ 32
  nonempty : 2 ≤ s.stage.code.toNat → presentSymbols s.freq ≠ []
  tree : s.stage = .treeBuilt → TreeOf s.freq s.node s.root
  raw : 3 ≤ s.stage.code.toNat → CodesFor s.freq s.raw
  can : 4 ≤ s.stage.code.toNat → CodesFor s.freq s.can ∧ SameLengths s.raw s.can
  /-- 42_tree_builder.md R108. -/
  lone : 3 ≤ s.stage.code.toNat → (presentSymbols s.freq).length = 1 → ∀ x c, codeBits s.raw x = some c → c = [false]
  /-- 43_canonicalizer.md R122. -/
  numbers : 4 ≤ s.stage.code.toNat → ∀ x c, codeBits s.can x = some c → bitsVal c = canonicalValue s.raw c.length x

end Sys2Proof.Machine
end

