-- ==== Sys2Proof/Certificates/Slice0/Obligations.lean ====
section
/-! DEFINITION. The statements. Where a statement has premises beside the stage, they are invariants of every run: `StorageInv`,
`LifetimeInv`, `SessionInv`, or a part of one, and `StepKeepsStorageAndLifetimes` and `StepKeepsSession` say that every step
keeps them. -/

open Sys2Proof Sys2Proof.Machine

/-! ## Encoding -/

/-- Decoding the word of a command gives the command back, with every operand. -/
def Obligations.DecodeOfEncode : Prop := ∀ i : Instr, i.wellFormed = true → decode (encode i) = .ok i

/-- A word that decodes is the word of what it decodes to. -/
def Obligations.EncodeOfDecode : Prop := ∀ (w : Word) (i : Instr), decode w = .ok i → encode i = w ∧ i.wellFormed = true

/-- Words written out from the fields of 30_encoding.md R61 and the opcodes of R66, one for each format. -/
def Obligations.WrittenWordsDecode : Prop :=
  decode 0x1100000000000000#64 = .ok .build ∧
  decode 0x0310400000000000#64 = .ok (.rdfreq 0x41#8) ∧
  decode 0x100000000000000F#64 = .ok (.count 15#32) ∧
  decode 0x140000080000000F#64 = .ok (.encode true 15#32) ∧
  decode 0x2100000800000000#64 = .ok (.bsappb true) ∧
  decode 0x26D0400000000000#64 = .ok (.bsbin (.can 0x41#8)) ∧
  decode 0x2740000000000002#64 = .ok (.bshex .out 2#32) ∧
  decode 0x2891745000000000#64 = .ok (.bseq (.raw 0x45#8) (.can 0x45#8))

/-- R67: exactly these 239 opcodes are reserved, and a word with one of them is no command. -/
def Obligations.ReservedOpcodesAreIllegal : Prop :=
  (∀ c : BitVec 8, (∀ o : Opcode, o.code ≠ c) ↔ (c.toNat = 0 ∨ (0x04 ≤ c.toNat ∧ c.toNat ≤ 0x0F) ∨
    (0x15 ≤ c.toNat ∧ c.toNat ≤ 0x1F) ∨ 0x29 ≤ c.toNat)) ∧
  ((List.range 256).filter fun c => ∀ o ∈ Opcode.all, o.code.toNat ≠ c).length = 239 ∧
  (∀ w : Word, (∀ o : Opcode, o.code ≠ opField w) → decode w = .error .reservedOpcode) ∧
  decode 0#64 = .error .reservedOpcode

/-- R65: in a command `RSV` and every field the format does not list are 0, and two words never mean the same command. -/
def Obligations.FieldsThatAreNoOperandAreZero : Prop :=
  (∀ (w : Word) (i : Instr), decode w = .ok i → rsvField w = 0 ∧
    (i.opcode.format.hasKA = false → kaField w = 0) ∧ (i.opcode.format.hasSA = false → saField w = 0) ∧
    (i.opcode.format.hasB = false → kbField w = 0 ∧ sbField w = 0) ∧ (i.opcode.format.hasF = false → fField w = 0) ∧
    (i.opcode.format.hasImm = false → immField w = 0)) ∧
  ∀ (w v : Word) (i : Instr), decode w = .ok i → decode v = .ok i → w = v

/-- R68, R157, R72: the words that decode are those that pass the four tests; any other is answered with the error, whatever
the state, and a payload that its opcode announces is consumed. -/
def Obligations.IllegalWordsAreAnswered : Prop :=
  (∀ w : Word, LegalWord w ↔ ∃ i, decode w = .ok i) ∧
  ∀ (w : Word) (s : State), ¬ LegalWord w → payloadLength w ≤ s.tin.length →
    runWord w s = .next { s with
      tin := s.tin.drop (payloadLength w), responses := ⟨.illegalCommand, 0, []⟩ :: s.responses }

/-- R70, R71, R72: every assembled move is a legal word with exactly the payload its command takes; and each row of R70's table
and each pseudo-instruction stands for the words written here from the opcodes of R66 and the fields of R61, `IMM` being the
byte count of a text, `F` 1 for `ENCODE CAN`. `BSAPPS SCR` and a text whose count does not fit `IMM` have no encoding. -/
def Obligations.AssembledMovesAreFramed : Prop :=
  (∀ (l : AsmLine) (ms : List HostMove), l.assemble = some ms → ∀ m ∈ ms, ∃ w text i,
    m = .command w text ∧ decode w = .ok i ∧ text.length = Instr.textLength i) ∧
  AsmLine.newsession.assemble = some [.command (0x01#8 ++ 0#56) []] ∧
  AsmLine.rdstage.assemble = some [.command (0x02#8 ++ 0#56) []] ∧
  (∀ x : Symbol, (AsmLine.rdfreq x).assemble = some [.command (0x03#8 ++ 0#2 ++ x ++ 0#46) []]) ∧
  (∀ text : List Byte,
    (text.length < 2 ^ 32 →
      (AsmLine.count text).assemble = some [.command (0x10#8 ++ 0#24 ++ BitVec.ofNat 32 text.length) text] ∧
      (AsmLine.encodeCan text).assemble = some [.command (0x14#8 ++ 0#20 ++ 1#1 ++ 0#3 ++ BitVec.ofNat 32 text.length) text] ∧
      (AsmLine.encodeRaw text).assemble = some [.command (0x14#8 ++ 0#20 ++ 0#1 ++ 0#3 ++ BitVec.ofNat 32 text.length) text]) ∧
    (2 ^ 32 ≤ text.length → (AsmLine.count text).assemble = none ∧ (AsmLine.encodeCan text).assemble = none ∧
      (AsmLine.encodeRaw text).assemble = none)) ∧
  AsmLine.build.assemble = some [.command (0x11#8 ++ 0#56) []] ∧
  AsmLine.gencodes.assemble = some [.command (0x12#8 ++ 0#56) []] ∧
  AsmLine.canon.assemble = some [.command (0x13#8 ++ 0#56) []] ∧
  AsmLine.bsclr.assemble = some [.command (0x20#8 ++ 0#56) []] ∧
  (∀ b : Bool, (AsmLine.bsappb b).assemble = some [.command (0x21#8 ++ 0#20 ++ BitVec.ofBool b ++ 0#35) []]) ∧
  (AsmLine.bsapps .scr).assemble = none ∧
  (∀ a : Selector,
    (a ≠ .scr → (AsmLine.bsapps a).assemble = some [.command (0x22#8 ++ a.kind ++ a.symbol ++ 0#46) []]) ∧
    (∀ n : Imm, (AsmLine.bsbit a n).assemble = some [.command (0x23#8 ++ a.kind ++ a.symbol ++ 0#14 ++ n) []]) ∧
    (AsmLine.bslen a).assemble = some [.command (0x24#8 ++ a.kind ++ a.symbol ++ 0#46) []] ∧
    (AsmLine.bsbytes a).assemble = some [.command (0x25#8 ++ a.kind ++ a.symbol ++ 0#46) []] ∧
    (AsmLine.bsbin a).assemble = some [.command (0x26#8 ++ a.kind ++ a.symbol ++ 0#46) []] ∧
    (∀ n : Imm, (AsmLine.bshex a n).assemble = some [.command (0x27#8 ++ a.kind ++ a.symbol ++ 0#14 ++ n) []]) ∧
    (AsmLine.bshexAll a).assemble = some [.command (0x27#8 ++ a.kind ++ a.symbol ++ 0#14 ++ 0xFFFFFFFF#32) []] ∧
    ∀ b : Selector, (AsmLine.bseq a b).assemble =
      some [.command (0x28#8 ++ a.kind ++ a.symbol ++ b.kind ++ b.symbol ++ 0#36) []]) ∧
  ∀ bs : List Bool, (AsmLine.bits bs).assemble =
    some (bs.map fun b => .command (0x21#8 ++ 0#20 ++ BitVec.ofBool b ++ 0#35) [])

/-! ## A step -/

/-- A step on a command word that decodes runs that command, its move taken and its payload delivered. -/
def Obligations.StepRunsTheDecodedCommand : Prop :=
  ∀ (s : State) (w : Word) (text : List Byte) (rest : List HostMove) (i : Instr),
    s.moves = .command w text :: rest → decode w = .ok i →
    step s = exec i { s with moves := rest, tin := s.tin ++ text }

/-- R170: reset puts every piece of state at its reset value, from every prior state. What stays is not state of the block: the
parameters, the host's later moves, and the responses already given (log 13). -/
def Obligations.ResetGivesTheResetState : Prop :=
  ∀ (s : State) (rest : List HostMove), s.moves = .reset :: rest →
    step s = .next { State.reset with cfg := s.cfg, moves := rest, responses := s.responses }

/-- R35. -/
def Obligations.ResetValues : Prop :=
  State.reset.stage = .empty ∧ State.reset.nsym = 0 ∧ (∀ k, Sparse.read State.reset.freq k = 0) ∧
  (∀ k, Sparse.entry State.reset.node k = none) ∧ State.reset.root = 0 ∧
  (∀ k, Sparse.entry State.reset.raw k = none) ∧ (∀ k, Sparse.entry State.reset.can k = none) ∧
  (State.reset.out.len = 0 ∧ ∀ k, State.reset.out.bytes.read k = 0) ∧
  (State.reset.scr.len = 0 ∧ ∀ k, State.reset.scr.bytes.read k = 0)

/-- The block is idle between commands and holds its state (60_exceptions.md R165, H6; a step with no move is the model's,
log 6). -/
def Obligations.IdleStepHoldsTheState : Prop := ∀ s : State, s.moves = [] → step s = .next s

/-- The machine stops in one way only, a host that withholds payload bytes (70_reset_and_hazards.md R174; the fault is the
model's form of waiting for ever, log 4). -/
def Obligations.OnlyAWithheldPayloadStops : Prop :=
  ∀ s : State, (∀ r, step s ≠ .refused r) ∧
    ((∃ f, step s = .fault f) ↔ ∃ w text rest, s.moves = .command w text :: rest ∧
      s.tin.length + text.length < payloadLength w)

/-! ## Session commands -/

/-- R140, R36: every stage accepts `NEWSESSION`, and everything but `SCR` gets its reset value. -/
def Obligations.NewsessionClearsAllButScratch : Prop :=
  decode (0x01#8 ++ 0#56) = .ok .newsession ∧
  ∀ s : State, exec .newsession s = .next { s with
    stage := .empty, nsym := 0, root := 0, freq := [], raw := [], can := [], node := [], out := BitSeq.empty
    responses := ⟨.ok, 0, []⟩ :: s.responses }

/-- R141, with the numbers of 10_state.md R22. -/
def Obligations.RdstageReadsTheStage : Prop :=
  decode (0x02#8 ++ 0#56) = .ok .rdstage ∧
  (∀ s : State, exec .rdstage s = .next { s with responses := ⟨.ok, s.stage.code.setWidth 32, []⟩ :: s.responses }) ∧
  [Stage.empty, .frequenciesCounted, .treeBuilt, .rawCodesGenerated, .canonicalCodesGenerated, .encoded].map Stage.code =
    [0, 1, 2, 3, 4, 5]

/-- R142. -/
def Obligations.RdfreqReadsACount : Prop :=
  (∀ x : Symbol, decode (0x03#8 ++ 0#2 ++ x ++ 0#46) = .ok (.rdfreq x)) ∧
  ∀ (x : Symbol) (s : State),
    (s.stage = .empty → exec (.rdfreq x) s = .next { s with responses := ⟨.usageOrder, 0, []⟩ :: s.responses }) ∧
    (s.stage ≠ .empty →
      exec (.rdfreq x) s = .next { s with responses := ⟨.ok, Sparse.read s.freq x.toNat, []⟩ :: s.responses })

/-! ## Counting -/

/-- R100: the payload is consumed; at `Empty` every count is the number of occurrences, `NSYM` the number of symbols that
occur; at any other stage the command is a usage error. -/
def Obligations.CountCountsTheText : Prop :=
  (∀ n : Imm, decode (0x10#8 ++ 0#24 ++ n) = .ok (.count n)) ∧
  ∀ (n : Imm) (s : State), n.toNat ≤ s.tin.length →
    (s.stage = .empty → ∃ t, exec (.count n) s = .next t ∧
      (∀ x : Symbol, (Sparse.read t.freq x.toNat).toNat = (s.tin.take n.toNat).count x) ∧
      t.nsym.toNat = (allSymbols.filter fun x => 1 ≤ (s.tin.take n.toNat).count x).length ∧
      t = { s with
        tin := s.tin.drop n.toNat, freq := t.freq, nsym := t.nsym, stage := .frequenciesCounted
        responses := ⟨.ok, 0, []⟩ :: s.responses }) ∧
    (s.stage ≠ .empty → exec (.count n) s = .next { s with
      tin := s.tin.drop n.toNat, responses := ⟨.usageOrder, 0, []⟩ :: s.responses })

/-- R143: after `COUNT` of a text of length `n` the counts add up to `n`, and `NSYM` is 0 exactly when `n` is. -/
def Obligations.CountsAddUpToTheTextLength : Prop :=
  ∀ (n : Imm) (s : State), n.toNat ≤ s.tin.length → s.stage = .empty → ∃ t, exec (.count n) s = .next t ∧
    (∀ x : Symbol, (Sparse.read t.freq x.toNat).toNat = (s.tin.take n.toNat).count x) ∧
    freqTotal t.freq = n.toNat ∧ (t.nsym = 0 ↔ n = 0)

/-! ## The tree -/

/-- R102: with distinct tiebreakers the sorter gives the least pair (frequency, tiebreaker) of a pool that is not empty. -/
def Obligations.ExtractMinGivesTheLeastPair : Prop :=
  ∀ (node : Sparse Node) (pool : List NodeIx), pool ≠ [] → (pool.map (nodeTiebreaker node)).Nodup →
    ∃ a, extractMin node pool = some (a, pool.erase a) ∧ a ∈ pool ∧ ∀ c ∈ pool, c ≠ a →
      (nodeFrequency node a).toNat < (nodeFrequency node c).toNat ∨
        ((nodeFrequency node a).toNat = (nodeFrequency node c).toNat ∧
          (nodeTiebreaker node a).toNat < (nodeTiebreaker node c).toNat)

/-- R101, R103, R104, R106: at `FrequenciesCounted` with symbols, `BUILD` leaves the tree of the counts; with none it is the empty-input error; at any other stage a usage error. The premises on `NODE`, `NSYM` and
the total are invariants (`LifetimeInv`, `SessionInv`). Nothing is said of `TIE` and `POOL`, which no command reads. -/
def Obligations.BuildMakesTheTreeOfTheCounts : Prop :=
  decode (0x11#8 ++ 0#56) = .ok .build ∧
  ∀ s : State,
    (s.stage ≠ .frequenciesCounted →
      exec .build s = .next { s with responses := ⟨.usageOrder, 0, []⟩ :: s.responses }) ∧
    (s.stage = .frequenciesCounted → s.nsym = 0 →
      exec .build s = .next { s with responses := ⟨.emptyInput, 0, []⟩ :: s.responses }) ∧
    (s.stage = .frequenciesCounted → s.nsym ≠ 0 → s.nsym.toNat = (presentSymbols s.freq).length → s.node = [] →
      freqTotal s.freq < 2 ^ 32 → ∃ t, exec .build s = .next t ∧
        TreeOf s.freq t.node t.root ∧
        t = { s with
          node := t.node, root := t.root, stage := .treeBuilt, tie := t.tie, pool := t.pool
          responses := ⟨.ok, 0, []⟩ :: s.responses })

/-- R110: the root's frequency is the sum of all counts, the length of the counted text. -/
def Obligations.RootFrequencyIsTheTotal : Prop :=
  ∀ s : State, s.stage = .frequenciesCounted → s.nsym ≠ 0 → s.nsym.toNat = (presentSymbols s.freq).length → s.node = [] →
    freqTotal s.freq < 2 ^ 32 → ∃ t, exec .build s = .next t ∧ t.freq = s.freq ∧
      (nodeFrequency t.node t.root).toNat = freqTotal s.freq

/-- R112: the tree of a Frequency Table is unique, and the order in which the pool is stored does not matter; so two states at
`TreeBuilt` that hold a tree of one Frequency Table, whatever sorter made it, get the same `RAW` from `GENCODES`, the same `CAN`
from `CANON`, and the same `OUT` and response from `ENCODE`. -/
def Obligations.TreeDoesNotDependOnTheSorter : Prop :=
  (∀ (freq : Sparse Freq) (node node' : Sparse Node) (root root' : NodeIx),
    TreeOf freq node root → TreeOf freq node' root' → node = node' ∧ root = root') ∧
  (∀ (node : Sparse Node) (pool pool' : List NodeIx), pool.Perm pool' → (pool.map (nodeTiebreaker node)).Nodup →
    ∀ a rest, extractMin node pool = some (a, rest) →
      ∃ rest', extractMin node pool' = some (a, rest') ∧ rest.Perm rest') ∧
  ∀ s s' : State, s.stage = .treeBuilt → s'.stage = .treeBuilt → s'.freq = s.freq → TreeOf s.freq s.node s.root →
    TreeOf s'.freq s'.node s'.root → ∃ t1 t1' t2 t2', exec .gencodes s = .next t1 ∧ exec .gencodes s' = .next t1' ∧
      t1'.raw = t1.raw ∧ exec .canon t1 = .next t2 ∧ exec .canon t1' = .next t2' ∧ t2'.can = t2.can ∧
      (s'.cfg = s.cfg → s'.tin = s.tin → s'.out = s.out → ∀ (f : Bool) (n : Imm), n.toNat ≤ s.tin.length →
        ∃ t3 t3' r, exec (.encode f n) t2 = .next t3 ∧ exec (.encode f n) t2' = .next t3' ∧ t3'.out = t3.out ∧
          t3.responses = r :: t2.responses ∧ t3'.responses = r :: t2'.responses)

/-- R107, R108: `GENCODES` gives each symbol the list of turns to its leaf, a lone symbol the code `<0>`, and discards the
tree; at any other stage than `TreeBuilt` it is a usage error. The clause on the lone symbol rests on the spec's decision D22
(93_implementation_defined.md U1; log 20). -/
def Obligations.GencodesGivesTheTurns : Prop :=
  decode (0x12#8 ++ 0#56) = .ok .gencodes ∧
  ∀ s : State,
    (s.stage ≠ .treeBuilt → exec .gencodes s = .next { s with responses := ⟨.usageOrder, 0, []⟩ :: s.responses }) ∧
    (s.stage = .treeBuilt → TreeOf s.freq s.node s.root → ∃ t, exec .gencodes s = .next t ∧
      t = { s with
        raw := t.raw, node := [], root := 0, stage := .rawCodesGenerated
        responses := ⟨.ok, 0, []⟩ :: s.responses } ∧
      ((presentSymbols s.freq).length = 1 →
        ∀ x c, codeBits t.raw x = some c ↔ x ∈ presentSymbols s.freq ∧ c = [false]) ∧
      (2 ≤ (presentSymbols s.freq).length →
        ∀ x c, codeBits t.raw x = some c ↔ ∃ f k, descend s.node s.root c = some (.leaf x f k)))

/-- R109 (b), (c), (d): the raw codes are a prefix code for exactly the symbols of the table, with Kraft sum 1, or 1/2 for a
lone symbol, whose code rests on decision D22 (93_implementation_defined.md U1; log 20). -/
def Obligations.RawCodesAreAPrefixCode : Prop :=
  ∀ s : State, s.stage = .treeBuilt → TreeOf s.freq s.node s.root →
    ∃ t, exec .gencodes s = .next t ∧ CodesFor s.freq t.raw

/-- R109 (a): no prefix code for the symbols of the table, its words not empty, codes the counted text in fewer bits. -/
def Obligations.RawCodesAreMinimal : Prop :=
  ∀ s : State, s.stage = .treeBuilt → TreeOf s.freq s.node s.root → ∃ t, exec .gencodes s = .next t ∧
    ∀ u : Symbol → List Bool, (∀ x ∈ presentSymbols s.freq, u x ≠ []) →
      (∀ x ∈ presentSymbols s.freq, ∀ y ∈ presentSymbols s.freq, u x <+: u y → x = y) →
      codeCost s.freq (fun x => ((codeBits t.raw x).getD []).length) ≤ codeCost s.freq fun x => (u x).length

/-- R111: a raw code has at most `NSYM - 1` bits, a lone symbol's one by decision D22 (93_implementation_defined.md U1; log 20). -/
def Obligations.RawCodeLengthIsBounded : Prop :=
  ∀ s : State, s.stage = .treeBuilt → TreeOf s.freq s.node s.root → ∃ t, exec .gencodes s = .next t ∧
    ∀ x c, codeBits t.raw x = some c → c.length ≤ max 1 ((presentSymbols s.freq).length - 1)

/-! ## The canonical table -/

/-- R120 to R123: every symbol with a raw code gets a code of its raw length, holding the low bits of the number that the
numbering reaches at it; `RAW` does not change; at any other stage than `RawCodesGenerated` it is a usage error. The premise that
a raw code has at most 255 bits, the size R20 gives an entry of `RAW`, is `StorageInv`'s. Nothing is said of `NEXTCODE` and
`CURLEN`, which no command reads. -/
def Obligations.CanonNumbersTheSymbols : Prop :=
  decode (0x13#8 ++ 0#56) = .ok .canon ∧
  ∀ s : State,
    (s.stage ≠ .rawCodesGenerated →
      exec .canon s = .next { s with responses := ⟨.usageOrder, 0, []⟩ :: s.responses }) ∧
    (s.stage = .rawCodesGenerated → (∀ e ∈ s.raw, e.2.len.toNat ≤ maxCodeLen) → ∃ t, exec .canon s = .next t ∧
      t = { s with
        can := t.can, stage := .canonicalCodesGenerated, nextCode := t.nextCode, curLen := t.curLen
        responses := ⟨.ok, 0, []⟩ :: s.responses } ∧
      (∀ x, codeBits s.raw x = none → codeBits t.can x = none) ∧
      ∀ x c, codeBits s.raw x = some c → ∃ d, codeBits t.can x = some d ∧ d.length = c.length ∧
        bitsVal d = canonicalValue s.raw c.length x % 2 ^ c.length)

/-- R124: from a prefix code with the Kraft sum of a tree, `CANON` keeps every length (a), gives a prefix code (b) for the same
symbols (d), and, in the order (length, symbol), each code is the one before plus one, shifted left by the difference of the
lengths (c). -/
def Obligations.CanonicalTableProperties : Prop :=
  ∀ s : State, s.stage = .rawCodesGenerated → CodesFor s.freq s.raw → ∃ t, exec .canon s = .next t ∧
    SameLengths s.raw t.can ∧ PrefixFree t.can ∧ (∀ x, (codeBits t.can x).isSome ↔ (codeBits s.raw x).isSome) ∧
    ∀ x y cx cy, codeBits t.can x = some cx → codeBits t.can y = some cy →
      (cx.length < cy.length ∨ (cx.length = cy.length ∧ x.toNat < y.toNat)) →
      (∀ z cz, codeBits t.can z = some cz → z ≠ x → z ≠ y →
        ¬ ((cx.length < cz.length ∨ (cx.length = cz.length ∧ x.toNat < z.toNat)) ∧
          (cz.length < cy.length ∨ (cz.length = cy.length ∧ z.toNat < y.toNat)))) →
      bitsVal cy = (bitsVal cx + 1) * 2 ^ (cy.length - cx.length)

/-- R125: on such a table no significant bit of a number is dropped, and with two symbols or more the last code is all ones. -/
def Obligations.CanonicalNumbersFit : Prop :=
  ∀ s : State, s.stage = .rawCodesGenerated → CodesFor s.freq s.raw → ∃ t, exec .canon s = .next t ∧
    (∀ x c, codeBits s.raw x = some c → canonicalValue s.raw c.length x < 2 ^ c.length) ∧
    (2 ≤ (presentSymbols s.freq).length → ∀ x c, codeBits t.can x = some c →
      (∀ z cz, codeBits t.can z = some cz → cz.length < c.length ∨ (cz.length = c.length ∧ z.toNat ≤ x.toNat)) →
      c = List.replicate c.length true)

/-- R121, R126: the raw bit patterns have no influence: two raw tables with the same lengths give the same canonical table. -/
def Obligations.CanonDependsOnLengthsOnly : Prop :=
  ∀ (s : State) (u : Sparse BitSeq), s.stage = .rawCodesGenerated → SameLengths s.raw u →
    ∃ t, exec .canon s = .next t ∧ exec .canon { s with raw := u } = .next { t with raw := u }

/-! ## The encoder -/

/-- R130 to R132, R134: the payload is consumed; at `CanonicalCodesGenerated` the output is the code words of the text one
after another, in the active map; the first byte with no code, or whose code would overflow `OUT`, decides the error; at any
other stage it is a usage error. -/
def Obligations.EncodeConcatenatesTheCodes : Prop :=
  (∀ (f : Bool) (n : Imm), decode (0x14#8 ++ 0#20 ++ BitVec.ofBool f ++ 0#3 ++ n) = .ok (.encode f n)) ∧
  ∀ (f : Bool) (n : Imm) (s : State), n.toNat ≤ s.tin.length →
    (s.stage ≠ .canonicalCodesGenerated → exec (.encode f n) s = .next { s with
      tin := s.tin.drop n.toNat, responses := ⟨.usageOrder, 0, []⟩ :: s.responses }) ∧
    (s.stage = .canonicalCodesGenerated → AllCoded (if f then s.can else s.raw) (s.tin.take n.toNat) →
      (textCode (if f then s.can else s.raw) (s.tin.take n.toNat)).length ≤ s.cfg.outCapBits.toNat →
      ∃ q : BitSeq, q.wf ∧ q.bits = textCode (if f then s.can else s.raw) (s.tin.take n.toNat) ∧
        exec (.encode f n) s = .next { s with
          tin := s.tin.drop n.toNat, out := q, stage := .encoded, responses := ⟨.ok, 0, []⟩ :: s.responses }) ∧
    (s.stage = .canonicalCodesGenerated → ∀ pre b post, s.tin.take n.toNat = pre ++ b :: post →
      AllCoded (if f then s.can else s.raw) pre →
      (textCode (if f then s.can else s.raw) pre).length ≤ s.cfg.outCapBits.toNat →
      (codeBits (if f then s.can else s.raw) b = none → exec (.encode f n) s = .next { s with
        tin := s.tin.drop n.toNat
        responses := ⟨.unknownSymbol, BitVec.ofNat 32 pre.length, []⟩ :: s.responses }) ∧
      (∀ c, codeBits (if f then s.can else s.raw) b = some c →
        s.cfg.outCapBits.toNat < (textCode (if f then s.can else s.raw) pre).length + c.length →
        exec (.encode f n) s = .next { s with
          tin := s.tin.drop n.toNat, responses := ⟨.capacity, 0, []⟩ :: s.responses }))

/-- R135: in a session, a text of known symbols that fits is encoded so that the reference decoder gives it back, with one
candidate at every step. -/
def Obligations.EncodedTextDecodesToItself : Prop :=
  ∀ (f : Bool) (n : Imm) (s : State), SessionInv s → s.stage = .canonicalCodesGenerated → n.toNat ≤ s.tin.length →
    (∀ b ∈ s.tin.take n.toNat, b ∈ presentSymbols s.freq) →
    (textCode (if f then s.can else s.raw) (s.tin.take n.toNat)).length ≤ s.cfg.outCapBits.toNat →
    ∃ t, exec (.encode f n) s = .next t ∧ t.stage = .encoded ∧
      refDecode (if f then s.can else s.raw) n.toNat t.out.bits = some (s.tin.take n.toNat)

/-- R133 (e): the counted text takes the sum over its symbols of `FREQ[s] * len(code[s])` bits, the same with either table. -/
def Obligations.EncodedLengthIsTheWeightedSum : Prop :=
  ∀ (n : Imm) (s : State), SessionInv s → s.stage = .canonicalCodesGenerated → n.toNat ≤ s.tin.length →
    (∀ x : Symbol, (Sparse.read s.freq x.toNat).toNat = (s.tin.take n.toNat).count x) →
    codeCost s.freq (fun x => ((codeBits s.raw x).getD []).length) ≤ s.cfg.outCapBits.toNat →
    ∀ f : Bool, ∃ t, exec (.encode f n) s = .next t ∧ t.stage = .encoded ∧
      t.out.len.toNat = codeCost s.freq fun x => ((codeBits s.raw x).getD []).length

/-- R108, R133 (d): in a session with one symbol, `m` copies of it encode to `m` zero bits, with either table. It rests on
decision D22 (93_implementation_defined.md U1; log 20). -/
def Obligations.LoneSymbolEncodesToZeros : Prop :=
  ∀ (f : Bool) (n : Imm) (x : Symbol) (s : State), SessionInv s → s.stage = .canonicalCodesGenerated →
    presentSymbols s.freq = [x] → s.tin.take n.toNat = List.replicate n.toNat x →
    n.toNat ≤ s.cfg.outCapBits.toNat → ∃ t, exec (.encode f n) s = .next t ∧ t.stage = .encoded ∧
      t.out.bits = List.replicate n.toNat false

/-! ## Bit Sequences -/

/-- R82. -/
def Obligations.BsclrEmptiesScratch : Prop :=
  decode (0x20#8 ++ 0#56) = .ok .bsclr ∧
  ∀ s : State, ∃ t, exec .bsclr s = .next t ∧ t.scr.len = 0 ∧ (∀ k, t.scr.bytes.read k = 0) ∧ t.scr.bits = [] ∧
    t = { s with scr := t.scr, responses := ⟨.ok, 0, []⟩ :: s.responses }

/-- R80, R83: one bit is appended at bit `7 - (n mod 8)` of byte `n div 8`, a new byte begun with 0 at every eighth; every other
byte stays; a full `SCR` is the capacity error. -/
def Obligations.BsappbAppendsOneBit : Prop :=
  (∀ b : Bool, decode (0x21#8 ++ 0#20 ++ BitVec.ofBool b ++ 0#35) = .ok (.bsappb b)) ∧
  ∀ (b : Bool) (s : State),
    (s.cfg.scrCapBits.toNat < s.scr.len.toNat + 1 →
      exec (.bsappb b) s = .next { s with responses := ⟨.capacity, 0, []⟩ :: s.responses }) ∧
    (s.scr.len.toNat + 1 ≤ s.cfg.scrCapBits.toNat → ∃ q : BitSeq,
      exec (.bsappb b) s = .next { s with scr := q, responses := ⟨.ok, 0, []⟩ :: s.responses } ∧
      q.len.toNat = s.scr.len.toNat + 1 ∧ q.bits = s.scr.bits ++ [b] ∧
      (∀ k, k ≠ s.scr.len.toNat / 8 → q.bytes.read k = s.scr.bytes.read k) ∧
      ∀ j < 8, (q.bytes.read (s.scr.len.toNat / 8)).getLsbD (7 - j) =
        if j = s.scr.len.toNat % 8 then b
        else if s.scr.len.toNat % 8 = 0 then false
        else (s.scr.bytes.read (s.scr.len.toNat / 8)).getLsbD (7 - j))

/-- R81, R84: every bit of the named sequence is appended in order at the end of `SCR`, or none; `SCR` itself cannot be named. -/
def Obligations.BsappsAppendsASequence : Prop :=
  (∀ (w : Word) (s : State), opField w = 0x22#8 → kaField w = 0#2 →
    runWord w s = .next { s with responses := ⟨.illegalCommand, 0, []⟩ :: s.responses }) ∧
  (∀ a : Selector, a ≠ .scr → decode (0x22#8 ++ a.kind ++ a.symbol ++ 0#46) = .ok (.bsapps a)) ∧
  ∀ (a : Selector) (s : State), a ≠ .scr → RefusesSelectors (.bsapps a) s ∧ ∀ q, ResolvesTo s q a →
    (s.cfg.scrCapBits.toNat < s.scr.len.toNat + q.len.toNat →
      exec (.bsapps a) s = .next { s with responses := ⟨.capacity, 0, []⟩ :: s.responses }) ∧
    (s.scr.len.toNat + q.len.toNat ≤ s.cfg.scrCapBits.toNat → ∃ p : BitSeq,
      exec (.bsapps a) s = .next { s with scr := p, responses := ⟨.ok, 0, []⟩ :: s.responses } ∧
      p.len.toNat = s.scr.len.toNat + q.len.toNat ∧ p.bits = s.scr.bits ++ q.bits ∧
      (s.scr.wf → p.wf) ∧
      ∀ k, k < s.scr.len.toNat / 8 ∨ s.scr.len.toNat + q.len.toNat ≤ 8 * k → p.bytes.read k = s.scr.bytes.read k)

/-- R85, with the place of a bit in its byte (20_memory.md R41) and the lenient range (R47). -/
def Obligations.BsbitReadsOneBit : Prop :=
  (∀ (a : Selector) (n : Imm), decode (0x23#8 ++ a.kind ++ a.symbol ++ 0#14 ++ n) = .ok (.bsbit a n)) ∧
  ∀ (a : Selector) (n : Imm) (s : State), RefusesSelectors (.bsbit a n) s ∧ ∀ q, ResolvesTo s q a →
    ∃ v : Bool, exec (.bsbit a n) s = .next { s with
        responses := ⟨.ok, (BitVec.ofBool v).setWidth 32, []⟩ :: s.responses } ∧
      v = q.bits.getD n.toNat false ∧
      (n.toNat < q.len.toNat → v = (q.bytes.read (n.toNat / 8)).getLsbD (7 - n.toNat % 8)) ∧
      (q.len.toNat ≤ n.toNat → v = false)

/-- R86. -/
def Obligations.BslenReadsTheLength : Prop :=
  (∀ a : Selector, decode (0x24#8 ++ a.kind ++ a.symbol ++ 0#46) = .ok (.bslen a)) ∧
  ∀ (a : Selector) (s : State), RefusesSelectors (.bslen a) s ∧ ∀ q, ResolvesTo s q a → ∃ v : Imm,
    v.toNat = q.bits.length ∧ exec (.bslen a) s = .next { s with responses := ⟨.ok, v, []⟩ :: s.responses }

/-- R87. -/
def Obligations.BsbytesReadsTheByteCount : Prop :=
  (∀ a : Selector, decode (0x25#8 ++ a.kind ++ a.symbol ++ 0#46) = .ok (.bsbytes a)) ∧
  ∀ (a : Selector) (s : State), RefusesSelectors (.bsbytes a) s ∧ ∀ q, ResolvesTo s q a → ∃ v : Imm,
    v.toNat = (q.bits.length + 7) / 8 ∧
      exec (.bsbytes a) s = .next { s with responses := ⟨.ok, v, []⟩ :: s.responses }

/-- R88, with the byte values of 30_encoding.md R74. -/
def Obligations.BsbinRendersEveryBit : Prop :=
  (∀ a : Selector, decode (0x26#8 ++ a.kind ++ a.symbol ++ 0#46) = .ok (.bsbin a)) ∧
  ∀ (a : Selector) (s : State), RefusesSelectors (.bsbin a) s ∧ ∀ q, ResolvesTo s q a → ∃ v : Imm,
    v.toNat = q.bits.length ∧ exec (.bsbin a) s = .next { s with
      responses := ⟨.ok, v, q.bits.map fun b => if b then 0x31#8 else 0x30#8⟩ :: s.responses }

/-- R89: the first `min(n, byte count)` bytes of `pack(q)`, two upper-case digits each, the case by decision D25
(93_implementation_defined.md U2; log 20). The premise that the storage is in its form is `StorageInv`'s. -/
def Obligations.BshexRendersThePackedBytes : Prop :=
  (∀ (a : Selector) (n : Imm), decode (0x27#8 ++ a.kind ++ a.symbol ++ 0#14 ++ n) = .ok (.bshex a n)) ∧
  ∀ (a : Selector) (n : Imm) (s : State), RefusesSelectors (.bshex a n) s ∧ ∀ q, ResolvesTo s q a → q.wf →
    ∃ (v : Imm) (chars : List Byte),
      exec (.bshex a n) s = .next { s with responses := ⟨.ok, v, chars⟩ :: s.responses } ∧
      v.toNat = 2 * min n.toNat ((q.bits.length + 7) / 8) ∧
      chars = (List.range (min n.toNat ((q.bits.length + 7) / 8))).flatMap fun k =>
        [hexDigits.getD (packByte q.bits k / 16) 0, hexDigits.getD (packByte q.bits k % 16) 0]

/-- R90, R91: 1 exactly when the two sequences have the same length and the same bits. -/
def Obligations.BseqComparesBits : Prop :=
  (∀ a b : Selector, decode (0x28#8 ++ a.kind ++ a.symbol ++ b.kind ++ b.symbol ++ 0#36) = .ok (.bseq a b)) ∧
  ∀ (a b : Selector) (s : State), RefusesSelectors (.bseq a b) s ∧ ∀ q p, ResolvesTo s q a → ResolvesTo s p b →
    exec (.bseq a b) s = .next { s with
      responses := ⟨.ok, if q.bits = p.bits then 1 else 0, []⟩ :: s.responses } ∧
    (q.bits = p.bits ↔ q.bits.length = p.bits.length ∧ ∀ i < q.bits.length, q.bitAt i = p.bitAt i) ∧
    (q.wf → p.wf → (q.bits = p.bits ↔ q.len = p.len ∧ q.bytes = p.bytes))

/-- R92: a selector is too early, absent or resolves, to one sequence only; the stage errors of all selectors of a command come
before the presence errors of any. -/
def Obligations.SelectorsResolveInTwoPhases : Prop :=
  (∀ (s : State) (a : Selector), (TooEarly s a ∧ ¬ Absent s a ∧ ∀ q, ¬ ResolvesTo s q a) ∨
    (¬ TooEarly s a ∧ Absent s a ∧ ∀ q, ¬ ResolvesTo s q a) ∨
    (¬ TooEarly s a ∧ ¬ Absent s a ∧ ∃ q, ResolvesTo s q a ∧ ∀ p, ResolvesTo s p a → p = q)) ∧
  ∀ (i : Instr) (s : State), i.wellFormed = true → RefusesSelectors i s

/-! ## Errors -/

/-- R152: a command is answered with `UsageOrderError` exactly when it does not pass the stage check of the table. -/
def Obligations.StageCheckTable : Prop :=
  ∀ (i : Instr) (s : State), i.wellFormed = true → Supplied i s → ∃ t r, exec i s = .next t ∧
    t.responses = r :: s.responses ∧ (r.status = .usageOrder ↔ ¬ passesStageCheck s.stage.code.toNat i)

/-- R151: the codes, and which commands give which error. -/
def Obligations.StatusCodesAndTheirCommands : Prop :=
  [Status.ok, .usageOrder, .unknownSymbol, .emptyInput, .capacity, .illegalCommand].map Status.code = [0, 1, 2, 3, 4, 5] ∧
  (∀ st : Status, st.code.toNat ≤ 5) ∧
  ∀ (i : Instr) (s t : State) (r : Response), i.wellFormed = true → exec i s = .next t → t.responses = r :: s.responses →
    (r.status = .usageOrder → (∃ n, i = .count n) ∨ i = .build ∨ i = .gencodes ∨ i = .canon ∨ (∃ f n, i = .encode f n) ∨
      (∃ x, i = .rdfreq x) ∨ Instr.selectors i ≠ []) ∧
    (r.status = .unknownSymbol → (∃ f n, i = .encode f n) ∨
      ∃ x, .raw x ∈ Instr.selectors i ∨ .can x ∈ Instr.selectors i) ∧
    (r.status = .emptyInput → i = .build) ∧
    (r.status = .capacity → (∃ f n, i = .encode f n) ∨ (∃ b, i = .bsappb b) ∨ ∃ a, i = .bsapps a) ∧
    r.status ≠ .illegalCommand

/-- R156, with the `RES` of R151: a word whose command fails changes nothing but the response it gives and the payload it
consumes; `RES` is the index of the first byte with no code in an `UnknownSymbolError` of `ENCODE`, and 0 in every other error. -/
def Obligations.FailingCommandsChangeNothing : Prop :=
  ∀ (w : Word) (s : State), payloadLength w ≤ s.tin.length → ∃ t r, runWord w s = .next t ∧
    t.responses = r :: s.responses ∧ (r.status ≠ .ok → r.chars = [] ∧
      t = { s with tin := s.tin.drop (payloadLength w), responses := r :: s.responses } ∧
      (∀ f n, decode w = .ok (.encode f n) → r.status = .unknownSymbol →
        r.res = BitVec.ofNat 32 ((s.tin.take n.toNat).findIdx fun b =>
          (codeBits (if f then s.can else s.raw) b).isNone)) ∧
      ((∀ f n, decode w = .ok (.encode f n) → r.status ≠ .unknownSymbol) → r.res = 0))

/-- R73, R72: one response a word, legal or not, and its payload consumed; only a successful `BSBIN` or `BSHEX` has an output
payload, of `RES` characters; the commands that write have `RES = 0` on success. -/
def Obligations.OneResponsePerCommand : Prop :=
  ∀ (w : Word) (s : State), payloadLength w ≤ s.tin.length → ∃ t r, runWord w s = .next t ∧
    t.responses = r :: s.responses ∧ t.tin = s.tin.drop (payloadLength w) ∧
    (r.chars ≠ [] → r.status = .ok ∧ ((∃ a, decode w = .ok (.bsbin a)) ∨ ∃ a n, decode w = .ok (.bshex a n))) ∧
    ∀ i, decode w = .ok i → r.status = .ok →
      ((∃ a, i = .bsbin a) ∨ (∃ a n, i = .bshex a n) → r.chars.length = r.res.toNat) ∧
      (Instr.reads i = false → r.res = 0)

/-- R49: a read command changes no state, and issued twice in a row it gives the same response twice. -/
def Obligations.ReadCommandsArePure : Prop :=
  ∀ (i : Instr) (s : State), Instr.reads i = true → ∃ r,
    exec i s = .next { s with responses := r :: s.responses } ∧
    exec i { s with responses := r :: s.responses } = .next { s with responses := r :: r :: s.responses }

/-! ## The whole machine -/

/-- R30: the commands that use only `SCR` read no state but `SCR` and its capacity and write none but `SCR`: on two states that
agree on those they give the same response and the same `SCR`, whatever the session. The stage and session commands neither
read nor write `SCR`: with another `SCR` they do the same and keep it. -/
def Obligations.ScratchIsNoPartOfTheSession : Prop :=
  (∀ (i : Instr) (s s' : State), Instr.scratchOnly i = true → s'.scr = s.scr → s'.cfg.scrCapBits = s.cfg.scrCapBits →
    ∃ r q, exec i s = .next { s with scr := q, responses := r :: s.responses } ∧
      exec i s' = .next { s' with scr := q, responses := r :: s'.responses }) ∧
  ∀ (i : Instr) (s t : State) (q : BitSeq), Instr.selectors i = [] → Instr.scratchOnly i = false → exec i s = .next t →
    exec i { s with scr := q } = .next { t with scr := q }

/-- R21: `STAGE` moves to the next stage by that stage's own command and to `Empty` by `NEWSESSION`, and otherwise stays. -/
def Obligations.StageMovesOnlyByItsCommands : Prop :=
  ∀ (i : Instr) (s t : State), exec i s = .next t →
    t.stage = s.stage ∨ (i = .newsession ∧ t.stage = .empty) ∨
    ((∃ n, i = .count n) ∧ s.stage = .empty ∧ t.stage = .frequenciesCounted) ∨
    (i = .build ∧ s.stage = .frequenciesCounted ∧ t.stage = .treeBuilt) ∨
    (i = .gencodes ∧ s.stage = .treeBuilt ∧ t.stage = .rawCodesGenerated) ∨
    (i = .canon ∧ s.stage = .rawCodesGenerated ∧ t.stage = .canonicalCodesGenerated) ∨
    ((∃ f n, i = .encode f n) ∧ s.stage = .canonicalCodesGenerated ∧ t.stage = .encoded)

/-- R20, R24, R28, R29: the column "written by": each piece of state is changed by no other command. -/
def Obligations.OnlyItsWritersChangeAPieceOfState : Prop :=
  ∀ (i : Instr) (s t : State), exec i s = .next t →
    (t.nsym = s.nsym ∧ t.freq = s.freq ∨ (∃ n, i = .count n) ∨ i = .newsession) ∧
    (t.node = s.node ∨ i = .build ∨ i = .gencodes ∨ i = .newsession) ∧
    (t.root = s.root ∨ i = .build ∨ i = .gencodes ∨ i = .newsession) ∧
    (t.raw = s.raw ∨ i = .gencodes ∨ i = .newsession) ∧
    (t.can = s.can ∨ i = .canon ∨ i = .newsession) ∧
    (t.out = s.out ∨ (∃ f n, i = .encode f n) ∨ i = .newsession) ∧
    (t.scr = s.scr ∨ i = .bsclr ∨ (∃ b, i = .bsappb b) ∨ ∃ a, i = .bsapps a) ∧
    (t.tie = s.tie ∧ t.pool = s.pool ∨ i = .build) ∧
    (t.nextCode = s.nextCode ∧ t.curLen = s.curLen ∨ i = .canon) ∧
    t.cfg = s.cfg ∧ t.moves = s.moves

/-- R20, R33: no command shows a transient register: on two states that differ in `TIE`, `POOL`, `NEXTCODE` and `CURLEN` only,
a command leaves states that differ in those only, with the same responses. -/
def Obligations.TransientRegistersCannotBeSeen : Prop :=
  ∀ (i : Instr) (s t : State) (tie : NodeIx) (pool : List NodeIx) (nextCode : Nat) (curLen : BitVec 8),
    exec i s = .next t →
    ∃ t', exec i { s with tie := tie, pool := pool, nextCode := nextCode, curLen := curLen } = .next t' ∧
      t' = { t with tie := t'.tie, pool := t'.pool, nextCode := t'.nextCode, curLen := t'.curLen }

/-- Every step keeps the canonical forms, the sizes and the capacities of the storage, and what holds data at each stage
(10_state.md R22, R24, R37). The part on the transient registers at rest is the model's (log 7). -/
def Obligations.StepKeepsStorageAndLifetimes : Prop :=
  ∀ s t : State, StorageInv s → LifetimeInv s → step s = .next t → StorageInv t ∧ LifetimeInv t

/-- Every step keeps the session: at each stage the data are those of the counts, the tree, the raw codes and the canonical
codes for one Frequency Table. The code of a lone symbol (`SessionInv.lone`) rests on decision D22
(93_implementation_defined.md U1; log 20). -/
def Obligations.StepKeepsSession : Prop := ∀ s t : State, SessionInv s → step s = .next t → SessionInv t

/-- The reset state meets all the invariants. -/
def Obligations.ResetMeetsTheInvariants : Prop :=
  StorageInv State.reset ∧ LifetimeInv State.reset ∧ SessionInv State.reset

/-- R173: in a session at `Empty` the host issues `COUNT` of a text that is not empty, `BUILD`, `GENCODES`, `CANON` and `ENCODE`
of the same text, with either table, each with exactly its payload (R174). When any prefix code of words that are not empty codes
the text in the bits `OUT` has, all five succeed: the output decodes to the text and is no longer than under any other prefix
code. Otherwise the first four succeed and `ENCODE` is a capacity error. `SCR` is as before. -/
def Obligations.FiveCommandsEncodeAText : Prop :=
  ∀ (s : State) (f : Bool) (n : Imm) (text : List Byte) (rest : List HostMove), SessionInv s → s.stage = .empty →
    s.tin = [] → n ≠ 0 → text.length = n.toNat →
    s.moves = .command (encode (.count n)) text :: .command (encode .build) [] :: .command (encode .gencodes) [] ::
      .command (encode .canon) [] :: .command (encode (.encode f n)) text :: rest →
    ∃ t1 t2 t3 t4 t5, step s = .next t1 ∧ step t1 = .next t2 ∧ step t2 = .next t3 ∧ step t3 = .next t4 ∧
      step t4 = .next t5 ∧ t5.moves = rest ∧ t5.tin = [] ∧ t5.scr = s.scr ∧
      ((∃ u : Symbol → List Bool, PrefixCodeOn text u ∧ (text.flatMap u).length ≤ s.cfg.outCapBits.toNat) →
        t5.stage = .encoded ∧ t5.responses = List.replicate 5 ⟨.ok, 0, []⟩ ++ s.responses ∧
        refDecode (if f then t5.can else t5.raw) n.toNat t5.out.bits = some text ∧
        ∀ u : Symbol → List Bool, PrefixCodeOn text u → t5.out.len.toNat ≤ (text.flatMap u).length) ∧
      ((∀ u : Symbol → List Bool, PrefixCodeOn text u → s.cfg.outCapBits.toNat < (text.flatMap u).length) →
        t5.stage = .canonicalCodesGenerated ∧
        t5.responses = ⟨.capacity, 0, []⟩ :: List.replicate 4 ⟨.ok, 0, []⟩ ++ s.responses)
end

