-- ==== Sys2Proof/Laws/Sparse.lean ====
section
/-! SUPPORT. The laws of arrays and byte stores: read after write, frames, canonical forms, and that canonical arrays with
equal contents are equal data. -/

namespace Sys2Proof.Machine

variable {α : Type}

/-! ## Reading -/

theorem Sparse.entry_put (m : Sparse α) (k j : Nat) (v : α) :
    Sparse.entry (Sparse.put m k v) j = if j = k then some v else Sparse.entry m j := by
  induction m with
  | nil => simp [Sparse.put, Sparse.entry, eq_comm]
  | cons e r ih =>
    obtain ⟨a, x⟩ := e
    unfold Sparse.put
    split_ifs with h1 h2 h3 h3 h3 <;> simp only [Sparse.entry, ih] <;> split_ifs <;> first | rfl | omega

@[simp] theorem Sparse.entry_put_self (m : Sparse α) (k : Nat) (v : α) :
    Sparse.entry (Sparse.put m k v) k = some v := by simp [Sparse.entry_put]

theorem Sparse.entry_put_ne (m : Sparse α) {k j : Nat} (v : α) (h : j ≠ k) :
    Sparse.entry (Sparse.put m k v) j = Sparse.entry m j := by simp [Sparse.entry_put, h]

theorem Sparse.entry_remove (m : Sparse α) (k j : Nat) :
    Sparse.entry (Sparse.remove m k) j = if j = k then none else Sparse.entry m j := by
  induction m with
  | nil => simp [Sparse.remove, Sparse.entry]
  | cons e r ih =>
    obtain ⟨a, x⟩ := e
    unfold Sparse.remove at ih ⊢
    by_cases h : a = k
    · subst h
      simp only [List.filter, bne_self_eq_false, ih, Sparse.entry]
      split_ifs <;> first | rfl | omega
    · simp only [List.filter, bne_iff_ne.2 h, ih, Sparse.entry]
      split_ifs <;> first | rfl | omega

theorem Sparse.read_write {w : Nat} (m : Sparse (BitVec w)) (k j : Nat) (v : BitVec w) :
    Sparse.read (Sparse.write m k v) j = if j = k then v else Sparse.read m j := by
  unfold Sparse.read Sparse.write
  split_ifs with h1 h2 h2 <;> simp_all [Sparse.entry_remove, Sparse.entry_put]

@[simp] theorem Sparse.read_write_self {w : Nat} (m : Sparse (BitVec w)) (k : Nat) (v : BitVec w) :
    Sparse.read (Sparse.write m k v) k = v := by simp [Sparse.read_write]

theorem Sparse.read_write_ne {w : Nat} (m : Sparse (BitVec w)) {k j : Nat} (v : BitVec w) (h : j ≠ k) :
    Sparse.read (Sparse.write m k v) j = Sparse.read m j := by simp [Sparse.read_write, h]

@[simp] theorem Sparse.read_nil {w : Nat} (k : Nat) : Sparse.read ([] : Sparse (BitVec w)) k = 0 := rfl

@[simp] theorem Sparse.entry_nil (k : Nat) : Sparse.entry ([] : Sparse α) k = none := rfl

/-! ## Membership -/

theorem Sparse.mem_put {m : Sparse α} {k : Nat} {v : α} {e : Nat × α} (h : e ∈ Sparse.put m k v) :
    e = (k, v) ∨ e ∈ m := by
  induction m with
  | nil => simpa [Sparse.put] using h
  | cons a r ih =>
    obtain ⟨a, x⟩ := a
    unfold Sparse.put at h
    split_ifs at h <;> simp only [List.mem_cons] at h ⊢ <;> tauto

theorem Sparse.mem_remove {m : Sparse α} {k : Nat} {e : Nat × α} : e ∈ Sparse.remove m k ↔ e ∈ m ∧ e.1 ≠ k := by
  simp [Sparse.remove]

theorem Sparse.mem_of_entry {m : Sparse α} {k : Nat} {v : α} (h : Sparse.entry m k = some v) : (k, v) ∈ m := by
  induction m with
  | nil => simp at h
  | cons e r ih =>
    obtain ⟨a, x⟩ := e
    unfold Sparse.entry at h
    split_ifs at h with h1
    · simp_all
    · exact List.mem_cons_of_mem _ (ih h)

/-- The keys rise strictly. -/
abbrev Sparse.rising (m : Sparse α) : Prop := (m.map Prod.fst).Pairwise (· < ·)

theorem Sparse.rising_cons {a : Nat} {x : α} {r : Sparse α} :
    Sparse.rising ((a, x) :: r) ↔ (∀ e ∈ r, a < e.1) ∧ Sparse.rising r := by
  simp [Sparse.rising]

theorem Sparse.entry_of_mem {m : Sparse α} (hm : Sparse.rising m) {k : Nat} {v : α} (h : (k, v) ∈ m) :
    Sparse.entry m k = some v := by
  induction m with
  | nil => simp at h
  | cons e r ih =>
    obtain ⟨a, x⟩ := e
    obtain ⟨h1, h2⟩ := Sparse.rising_cons.1 hm
    simp only [List.mem_cons, Prod.mk.injEq] at h
    unfold Sparse.entry
    rcases h with ⟨rfl, rfl⟩ | h
    · simp
    · have := h1 _ h
      rw [if_neg (by simp at this; omega), ih h2 h]

theorem Sparse.entry_isSome {m : Sparse α} {k : Nat} : (Sparse.entry m k).isSome ↔ k ∈ m.map Prod.fst := by
  induction m with
  | nil => simp
  | cons e r ih =>
    obtain ⟨a, x⟩ := e
    unfold Sparse.entry
    by_cases h : a = k
    · simp [h]
    · rw [if_neg h, ih]; simp [Ne.symm h]

/-! ## Canonical forms -/

theorem Sparse.rising_put {m : Sparse α} (hm : Sparse.rising m) (k : Nat) (v : α) :
    Sparse.rising (Sparse.put m k v) := by
  induction m with
  | nil => simp [Sparse.put, Sparse.rising]
  | cons e r ih =>
    obtain ⟨a, x⟩ := e
    obtain ⟨h1, h2⟩ := Sparse.rising_cons.1 hm
    unfold Sparse.put
    split_ifs with h3 h4
    · refine Sparse.rising_cons.2 ⟨?_, hm⟩
      intro e he
      rcases List.mem_cons.1 he with rfl | he
      · exact h3
      · exact lt_trans h3 (h1 _ he)
    · subst h4; exact Sparse.rising_cons.2 ⟨h1, h2⟩
    · refine Sparse.rising_cons.2 ⟨fun e he => ?_, ih h2⟩
      rcases Sparse.mem_put he with rfl | he
      · simp; omega
      · exact h1 _ he

theorem Sparse.rising_remove {m : Sparse α} (hm : Sparse.rising m) (k : Nat) : Sparse.rising (Sparse.remove m k) :=
  List.Pairwise.sublist (List.Sublist.map _ List.filter_sublist) hm

theorem Sparse.rising_write {w : Nat} {m : Sparse (BitVec w)} (hm : Sparse.rising m) (k : Nat) (v : BitVec w) :
    Sparse.rising (Sparse.write m k v) := by
  unfold Sparse.write
  split_ifs
  · exact Sparse.rising_remove hm k
  · exact Sparse.rising_put hm k v

theorem Sparse.wf_put {bound : Nat} {m : Sparse α} (hm : Sparse.wf bound m) {k : Nat} (hk : k < bound) (v : α) :
    Sparse.wf bound (Sparse.put m k v) := by
  refine ⟨Sparse.rising_put hm.1 k v, fun e he => ?_⟩
  rcases Sparse.mem_put he with rfl | he
  · exact hk
  · exact hm.2 e he

theorem Sparse.wf_write {w bound : Nat} {m : Sparse (BitVec w)} (hm : Sparse.wf bound m) {k : Nat} (hk : k < bound)
    (v : BitVec w) : Sparse.wf bound (Sparse.write m k v) := by
  refine ⟨Sparse.rising_write hm.1 k v, fun e he => ?_⟩
  unfold Sparse.write at he
  split_ifs at he
  · exact hm.2 e (Sparse.mem_remove.1 he).1
  · rcases Sparse.mem_put he with rfl | he
    · exact hk
    · exact hm.2 e he

theorem Sparse.write_nonzero {w : Nat} {m : Sparse (BitVec w)} (hm : ∀ e ∈ m, e.2 ≠ 0) (k : Nat) (v : BitVec w) :
    ∀ e ∈ Sparse.write m k v, e.2 ≠ 0 := by
  intro e he
  unfold Sparse.write at he
  split_ifs at he with h
  · exact hm e (Sparse.mem_remove.1 he).1
  · rcases Sparse.mem_put he with rfl | he
    · exact h
    · exact hm e he

/-- Canonical arrays with the same entries are the same data. -/
theorem Sparse.eq_of_entry {m n : Sparse α} (hm : Sparse.rising m) (hn : Sparse.rising n)
    (h : ∀ k, Sparse.entry m k = Sparse.entry n k) : m = n := by
  induction m generalizing n with
  | nil =>
    cases n with
    | nil => rfl
    | cons e r => have := h e.1; simp [Sparse.entry] at this
  | cons e r ih =>
    obtain ⟨a, x⟩ := e
    cases n with
    | nil => have := h a; simp [Sparse.entry] at this
    | cons f q =>
      obtain ⟨b, y⟩ := f
      obtain ⟨ha, hr⟩ := Sparse.rising_cons.1 hm
      obtain ⟨hb, hq⟩ := Sparse.rising_cons.1 hn
      have low : ∀ {c : Nat} {r : Sparse α}, (∀ e ∈ r, c < e.1) → ∀ k ≤ c, Sparse.entry r k = none := by
        intro c r hc k hk
        rw [← Option.not_isSome_iff_eq_none, Sparse.entry_isSome]
        rintro hmem
        obtain ⟨e, he, rfl⟩ := List.mem_map.1 hmem
        have := hc e he
        omega
      have hab : a = b := by
        rcases Nat.lt_trichotomy a b with hlt | heq | hlt
        · have := h a
          rw [Sparse.entry, if_pos rfl, Sparse.entry, if_neg (by omega), low hb a (by omega)] at this
          simp at this
        · exact heq
        · have := h b
          rw [Sparse.entry, if_neg (by omega), Sparse.entry, if_pos rfl, low ha b (by omega)] at this
          simp at this
      subst hab
      have hxy := h a
      simp only [Sparse.entry, if_true, Option.some.injEq] at hxy
      subst hxy
      congr 1
      refine ih hr hq fun k => ?_
      have := h k
      simp only [Sparse.entry] at this
      by_cases hk : a = k
      · subst hk; rw [low ha a le_rfl, low hb a le_rfl]
      · simpa [hk] using this

theorem Sparse.read_ne_zero_iff {w : Nat} {m : Sparse (BitVec w)} (h0 : ∀ e ∈ m, e.2 ≠ 0) (k : Nat) :
    Sparse.read m k ≠ 0 ↔ (Sparse.entry m k).isSome := by
  unfold Sparse.read
  cases h : Sparse.entry m k with
  | none => simp
  | some v => simpa using h0 _ (Sparse.mem_of_entry h)

/-! ## Byte stores -/

theorem Memory.read_write (m : Memory) (k j : Nat) (b : Byte) :
    (m.write k b).read j = if j = k then b else m.read j := Sparse.read_write m k j b

/-- A write keeps the canonical form. -/
theorem Memory.wf_write {m : Memory} (hm : m.wf) (k : Nat) (b : Byte) : (m.write k b).wf :=
  ⟨Sparse.rising_write hm.1 k b, Sparse.write_nonzero hm.2 k b⟩

theorem Memory.wf_nil : Memory.wf [] := by decide

/-- Canonical byte stores that read the same are the same data. -/
theorem Memory.eq_of_read {m n : Memory} (hm : m.wf) (hn : n.wf) (h : ∀ k, m.read k = n.read k) : m = n := by
  refine Sparse.eq_of_entry hm.1 hn.1 fun k => ?_
  have hk : (Sparse.entry m k).getD 0 = (Sparse.entry n k).getD 0 := h k
  cases h1 : Sparse.entry m k with
  | none =>
    cases h2 : Sparse.entry n k with
    | none => rfl
    | some b => exact absurd (by simpa [h1, h2] using hk.symm) (hn.2 _ (Sparse.mem_of_entry h2))
  | some a =>
    cases h2 : Sparse.entry n k with
    | none => exact absurd (by simpa [h1, h2] using hk) (hm.2 _ (Sparse.mem_of_entry h1))
    | some b => simpa [h1, h2] using hk

end Sys2Proof.Machine
end

