-- ==== Sys2Proof/Laws/BitSeq.lean ====
section
/-! SUPPORT. The storage of a Bit Sequence against its bits: appending on the storage appends to the list of bits, keeps the
canonical form, and the byte store is `pack` of the bits (41_bit_sequence.md R80, R81, R91; 20_memory.md R43, R44). -/

namespace Sys2Proof.Machine

/-! ## One bit of a byte -/

theorem setBit_getLsbD (b : Byte) (i j : Nat) (v : Bool) (hi : i < 8) (hj : j < 8) :
    (setBit b i v).getLsbD j = if j = i then v else b.getLsbD j := by
  have key : ∀ i < 8, ∀ j < 8, (1#8 <<< i).getLsbD j = decide (j = i) := by decide
  unfold setBit
  cases v <;> simp only [Bool.false_eq_true, if_true, if_false, BitVec.getLsbD_and, BitVec.getLsbD_or,
    BitVec.getLsbD_not, key i hi j hj] <;> by_cases h : j = i <;> simp [h, hj, hi]

/-! ## Appending one bit -/

@[simp] theorem BitSeq.empty_len : BitSeq.empty.len = 0#32 := rfl
@[simp] theorem BitSeq.empty_bytes : BitSeq.empty.bytes = [] := rfl
@[simp] theorem BitSeq.empty_bits : BitSeq.empty.bits = [] := rfl
theorem BitSeq.empty_wf : BitSeq.empty.wf := by decide

@[simp] theorem BitSeq.bits_length (q : BitSeq) : q.bits.length = q.len.toNat := by simp [BitSeq.bits]

theorem BitSeq.bits_getElem (q : BitSeq) (i : Nat) (h : i < q.bits.length) : q.bits[i] = q.bitAt i := by
  simp [BitSeq.bits]

theorem BitSeq.bitAt_eq_getD (q : BitSeq) (i : Nat) : q.bitAt i = q.bits.getD i false := by
  by_cases h : i < q.len.toNat
  · rw [List.getD_eq_getElem _ _ (by simpa using h), BitSeq.bits_getElem]
  · rw [List.getD_eq_default _ _ (by simpa using h)]
    simp [BitSeq.bitAt, h]

theorem BitSeq.append_len (q : BitSeq) (v : Bool) (h : q.len.toNat + 1 < 2 ^ 32) :
    (q.append v).len.toNat = q.len.toNat + 1 := by
  simp only [BitSeq.append, BitVec.toNat_add]
  rw [Nat.mod_eq_of_lt (by simpa using h)]; rfl

theorem BitSeq.append_read (q : BitSeq) (v : Bool) (k : Nat) :
    (q.append v).bytes.read k = if k = q.len.toNat / 8
      then setBit (if q.len.toNat % 8 = 0 then 0#8 else q.bytes.read k) (7 - q.len.toNat % 8) v
      else q.bytes.read k := by
  simp only [BitSeq.append, Memory.read_write]
  split_ifs <;> simp_all

/-- Only the byte that holds the new bit changes. -/
theorem BitSeq.append_read_ne (q : BitSeq) (v : Bool) {k : Nat} (h : k ≠ q.len.toNat / 8) :
    (q.append v).bytes.read k = q.bytes.read k := by simp [BitSeq.append_read, h]

theorem BitSeq.bitAt_append (q : BitSeq) (v : Bool) (h : q.len.toNat + 1 < 2 ^ 32) (i : Nat) :
    (q.append v).bitAt i = if i < q.len.toNat then q.bitAt i else if i = q.len.toNat then v else false := by
  unfold BitSeq.bitAt
  rw [BitSeq.append_len q v h, BitSeq.append_read]
  by_cases h1 : i < q.len.toNat
  · have h2 : i < q.len.toNat + 1 := by omega
    simp only [h1, h2, if_true]
    by_cases h3 : i / 8 = q.len.toNat / 8
    · have h4 : q.len.toNat % 8 ≠ 0 := by omega
      simp only [h3, h4, if_true, if_false]
      rw [setBit_getLsbD _ _ _ _ (by omega) (by omega), if_neg (by omega)]
    · simp [h3]
  · by_cases h2 : i = q.len.toNat
    · subst h2
      simp only [Nat.lt_succ_self, if_true, Nat.lt_irrefl, if_false]
      rw [setBit_getLsbD _ _ _ _ (by omega) (by omega), if_pos rfl]
    · have h3 : ¬ i < q.len.toNat + 1 := by omega
      simp [h1, h2, h3]

/-- R80 on the bits. -/
theorem BitSeq.bits_append (q : BitSeq) (v : Bool) (h : q.len.toNat + 1 < 2 ^ 32) :
    (q.append v).bits = q.bits ++ [v] := by
  refine List.ext_getElem (by simp [BitSeq.append_len q v h]) fun i h1 h2 => ?_
  rw [BitSeq.bits_getElem, BitSeq.bitAt_append q v h]
  by_cases hi : i < q.len.toNat
  · rw [if_pos hi, List.getElem_append_left (by simpa using hi), BitSeq.bits_getElem]
  · have h3 : i = q.len.toNat := by
      have : i < q.len.toNat + 1 := by simpa using h2
      omega
    subst h3
    simp

theorem BitSeq.append_wf (q : BitSeq) (v : Bool) (hq : q.wf) (h : q.len.toNat + 1 < 2 ^ 32) : (q.append v).wf := by
  obtain ⟨h1, h2, h3⟩ := hq
  refine ⟨Memory.wf_write h1 _ _, ?_, ?_⟩
  · intro e he
    have hc : (q.append v).byteCount = (q.len.toNat + 1 + 7) / 8 := by
      simp [BitSeq.byteCount, BitSeq.append_len q v h]
    rw [hc]
    have hm : e = (q.len.toNat / 8, setBit (if q.len.toNat % 8 = 0 then 0#8 else q.bytes.read (q.len.toNat / 8))
        (7 - q.len.toNat % 8) v) ∨ e ∈ q.bytes := by
      simp only [BitSeq.append, Memory.write, Sparse.write] at he
      split_ifs at he <;> first
        | exact Or.inr (Sparse.mem_remove.1 he).1
        | exact (Sparse.mem_put he).imp (fun h => by simp_all) id
    rcases hm with rfl | hm
    · simp only; omega
    · have := h2 e hm
      unfold BitSeq.byteCount at this
      omega
  · intro j hj
    rw [BitSeq.append_len q v h, BitSeq.append_read]
    intro hpad
    by_cases h8 : (q.len.toNat + 1) / 8 = q.len.toNat / 8
    · rw [if_pos h8, setBit_getLsbD _ _ _ _ (by omega) (by omega), if_neg (by omega)]
      split_ifs with h9
      · simp
      · rw [h8]; exact h3 j hj (by omega)
    · rw [if_neg h8]
      have : Sparse.entry q.bytes ((q.len.toNat + 1) / 8) = none := by
        rw [← Option.not_isSome_iff_eq_none, Sparse.entry_isSome]
        rintro hmem
        obtain ⟨e, he, hk⟩ := List.mem_map.1 hmem
        have := h2 e he
        unfold BitSeq.byteCount at this
        omega
      simp [Memory.read, Sparse.read, this]

/-! ## Appending a list of bits -/

/-- Appending bits one by one: the bits, the form, and the bytes before the first and after the last bit appended. -/
theorem BitSeq.foldl_append (bs : List Bool) (q : BitSeq) (h : q.len.toNat + bs.length < 2 ^ 32) :
    (bs.foldl BitSeq.append q).bits = q.bits ++ bs ∧
      (bs.foldl BitSeq.append q).len.toNat = q.len.toNat + bs.length ∧
      (q.wf → (bs.foldl BitSeq.append q).wf) ∧
      ∀ k, k < q.len.toNat / 8 ∨ q.len.toNat + bs.length ≤ 8 * k →
        (bs.foldl BitSeq.append q).bytes.read k = q.bytes.read k := by
  induction bs generalizing q with
  | nil => simp
  | cons b bs ih =>
    simp only [List.length_cons] at h
    have hl := BitSeq.append_len q b (by omega)
    obtain ⟨i1, i2, i3, i4⟩ := ih (q.append b) (by omega)
    rw [BitSeq.bits_append q b (by omega)] at i1
    refine ⟨by simpa using i1, ?_, fun hq => i3 (BitSeq.append_wf q b hq (by omega)), fun k hk => ?_⟩
    · simp only [List.foldl_cons, List.length_cons]; omega
    · simp only [List.length_cons] at hk
      rw [List.foldl_cons, i4 k (by omega), BitSeq.append_read_ne _ _ (by omega)]

theorem BitSeq.bits_ofBits (bs : List Bool) (h : bs.length < 2 ^ 32) : (BitSeq.ofBits bs).bits = bs := by
  simpa [BitSeq.ofBits] using (BitSeq.foldl_append bs BitSeq.empty (by simpa using h)).1

theorem BitSeq.ofBits_len (bs : List Bool) (h : bs.length < 2 ^ 32) : (BitSeq.ofBits bs).len.toNat = bs.length := by
  simpa [BitSeq.ofBits] using (BitSeq.foldl_append bs BitSeq.empty (by simpa using h)).2.1

theorem BitSeq.ofBits_wf (bs : List Bool) (h : bs.length < 2 ^ 32) : (BitSeq.ofBits bs).wf :=
  (BitSeq.foldl_append bs BitSeq.empty (by simpa using h)).2.2.1 BitSeq.empty_wf

/-- R81: the bits, the length, the form, and the bytes that keep their values. -/
theorem BitSeq.appendSeq_spec (q r : BitSeq) (h : q.len.toNat + r.len.toNat < 2 ^ 32) :
    (q.appendSeq r).bits = q.bits ++ r.bits ∧
      (q.appendSeq r).len.toNat = q.len.toNat + r.len.toNat ∧
      (q.wf → (q.appendSeq r).wf) ∧
      ∀ k, k < q.len.toNat / 8 ∨ q.len.toNat + r.len.toNat ≤ 8 * k →
        (q.appendSeq r).bytes.read k = q.bytes.read k := by
  have := BitSeq.foldl_append r.bits q (by simpa using h)
  simpa [BitSeq.appendSeq] using this

/-! ## Equality (41_bit_sequence.md R91) -/

theorem BitSeq.same_iff (q p : BitSeq) : q.same p = true ↔ q.bits = p.bits := by
  simp only [BitSeq.same, Bool.and_eq_true, beq_iff_eq, List.all_eq_true, List.mem_range]
  constructor
  · rintro ⟨h1, h2⟩
    refine List.ext_getElem (by simp [h1]) fun i hi hj => ?_
    rw [BitSeq.bits_getElem, BitSeq.bits_getElem, h2 i (by simpa using hi)]
  · intro h
    have hl : q.len.toNat = p.len.toNat := by simpa using congrArg List.length h
    exact ⟨BitVec.eq_of_toNat_eq hl, fun i _ => by rw [BitSeq.bitAt_eq_getD, BitSeq.bitAt_eq_getD, h]⟩

/-- A bit of a byte of the store, the padding included. -/
theorem BitSeq.read_getLsbD {q : BitSeq} (hq : q.wf) (k j : Nat) (hj : j < 8) :
    (q.bytes.read k).getLsbD (7 - j) = q.bitAt (8 * k + j) := by
  obtain ⟨_, h2, h3⟩ := hq
  unfold BitSeq.bitAt
  have hdiv : (8 * k + j) / 8 = k := by omega
  have hmod : (8 * k + j) % 8 = j := by omega
  split_ifs with h
  · rw [hdiv, hmod]
  · by_cases hk : k = q.len.toNat / 8
    · subst hk; exact h3 j hj (by omega)
    · have hkn : q.byteCount ≤ k := by unfold BitSeq.byteCount; omega
      have : Sparse.entry q.bytes k = none := by
        rw [← Option.not_isSome_iff_eq_none, Sparse.entry_isSome]
        rintro hmem
        obtain ⟨e, he, rfl⟩ := List.mem_map.1 hmem
        have := h2 e he
        omega
      simp [Memory.read, Sparse.read, this]

/-- In canonical storage equal bits are equal data (R91, last sentence). -/
theorem BitSeq.eq_of_bits {q p : BitSeq} (hq : q.wf) (hp : p.wf) (h : q.bits = p.bits) : q = p := by
  have hl : q.len = p.len := BitVec.eq_of_toNat_eq (by simpa using congrArg List.length h)
  have hb : q.bytes = p.bytes := by
    refine Memory.eq_of_read hq.1 hp.1 fun k => BitVec.eq_of_getLsbD_eq fun i hi => ?_
    have e1 := BitSeq.read_getLsbD hq k (7 - i) (by omega)
    have e2 := BitSeq.read_getLsbD hp k (7 - i) (by omega)
    rw [show 7 - (7 - i) = i by omega, BitSeq.bitAt_eq_getD] at e1 e2
    rw [e1, e2, h]
  cases q; cases p; simp_all

/-! ## Packing (20_memory.md R44) -/

theorem toNat_eq_sum_bits : ∀ b : Byte, b.toNat = ((List.range 8).map fun j => (b.getLsbD (7 - j)).toNat * 2 ^ (7 - j)).sum := by
  decide +kernel

/-- `MemRead(Q, k) = pack(Q)[k]`. -/
theorem BitSeq.byteAt_eq_pack {q : BitSeq} (hq : q.wf) (k : Nat) : (q.byteAt k).toNat = packByte q.bits k := by
  rw [toNat_eq_sum_bits, packByte]
  refine congrArg List.sum (List.map_congr_left fun j hj => ?_)
  have hj' : j < 8 := List.mem_range.1 hj
  rw [BitSeq.byteAt, BitSeq.read_getLsbD hq k j hj', BitSeq.bitAt_eq_getD]

/-! ## Rendering a number (43_canonicalizer.md R123) -/

theorem BitSeq.bits_ofNat (L v : Nat) (h : L < 2 ^ 32) :
    (BitSeq.ofNat L v).bits = (List.range L).map fun j => v.testBit (L - 1 - j) :=
  BitSeq.bits_ofBits _ (by simpa using h)

theorem BitSeq.ofNat_len (L v : Nat) (h : L < 2 ^ 32) : (BitSeq.ofNat L v).len.toNat = L := by
  simpa [BitSeq.ofNat] using BitSeq.ofBits_len ((List.range L).map fun j => v.testBit (L - 1 - j)) (by simpa using h)

theorem BitSeq.ofNat_wf (L v : Nat) (h : L < 2 ^ 32) : (BitSeq.ofNat L v).wf := BitSeq.ofBits_wf _ (by simpa using h)

theorem bitsVal_append_one (bs : List Bool) (b : Bool) : bitsVal (bs ++ [b]) = 2 * bitsVal bs + b.toNat := by
  simp [bitsVal]

theorem bitsVal_append (bs cs : List Bool) : bitsVal (bs ++ cs) = bitsVal bs * 2 ^ cs.length + bitsVal cs := by
  induction cs using List.reverseRecOn with
  | nil => simp [bitsVal]
  | append_singleton cs c ih =>
    rw [← List.append_assoc, bitsVal_append_one, ih, bitsVal_append_one]
    simp only [List.length_append, List.length_singleton, pow_succ]
    ring

theorem bitsVal_lt (bs : List Bool) : bitsVal bs < 2 ^ bs.length := by
  induction bs using List.reverseRecOn with
  | nil => simp [bitsVal]
  | append_singleton bs b ih =>
    rw [bitsVal_append_one, List.length_append, List.length_singleton, pow_succ]
    have : b.toNat ≤ 1 := Bool.toNat_le b
    omega

/-- `val(bits_L(v)) = v mod 2^L`. -/
theorem bitsVal_render (L v : Nat) : bitsVal ((List.range L).map fun j => v.testBit (L - 1 - j)) = v % 2 ^ L := by
  induction L generalizing v with
  | zero => simp [bitsVal, Nat.mod_one]
  | succ L ih =>
    have h1 : ((List.range (L + 1)).map fun j => v.testBit (L + 1 - 1 - j)) =
        ((List.range L).map fun j => (v / 2).testBit (L - 1 - j)) ++ [v.testBit 0] := by
      rw [List.range_succ, List.map_append]
      congr 1
      · refine List.map_congr_left fun j hj => ?_
        have := List.mem_range.1 hj
        rw [show L + 1 - 1 - j = (L - 1 - j) + 1 by omega, Nat.testBit_succ]
      · simp
    rw [h1, bitsVal_append_one, ih, pow_succ, mul_comm (2 ^ L) 2, Nat.mod_mul]
    simp only [Nat.testBit_zero]
    have hb : (decide (v % 2 = 1)).toNat = v % 2 := by
      rcases Nat.mod_two_eq_zero_or_one v with h | h <;> simp [h]
    rw [hb, Nat.add_comm]

/-- Lists of one length with one value are equal. -/
theorem bitsVal_inj {bs cs : List Bool} (hl : bs.length = cs.length) (hv : bitsVal bs = bitsVal cs) : bs = cs := by
  induction bs using List.reverseRecOn generalizing cs with
  | nil => simpa using hl.symm
  | append_singleton bs b ih =>
    rcases List.eq_nil_or_concat cs with rfl | ⟨cs', c, rfl⟩
    · simp at hl
    · simp only [List.concat_eq_append, List.length_append, List.length_singleton, Nat.add_right_cancel_iff] at hl hv ⊢
      rw [bitsVal_append_one, bitsVal_append_one] at hv
      have h1 : b = c := by cases b <;> cases c <;> simp at hv ⊢ <;> omega
      subst h1
      rw [ih hl (by omega)]

end Sys2Proof.Machine
end

