-- ==== Sys2Proof/Laws/Counting.lean ====
section
/-! SUPPORT. The symbols in ascending order, the Frequency Table of a text, and its totals (42_tree_builder.md R100,
45_session_readout.md R143). -/

namespace Sys2Proof

theorem mem_allSymbols (x : Symbol) : x ∈ allSymbols := by
  refine List.mem_map.2 ⟨x.toNat, List.mem_range.2 x.isLt, ?_⟩
  simp

theorem allSymbols_ascending : allSymbols.Pairwise (fun a b => a.toNat < b.toNat) := by
  unfold allSymbols
  rw [List.pairwise_map]
  refine List.Pairwise.imp_of_mem (fun ha hb h => ?_) List.pairwise_lt_range
  have ha' := List.mem_range.1 ha
  have hb' := List.mem_range.1 hb
  simpa [BitVec.toNat_ofNat, Nat.mod_eq_of_lt ha', Nat.mod_eq_of_lt hb'] using h

theorem allSymbols_nodup : allSymbols.Nodup :=
  allSymbols_ascending.imp fun h e => by subst e; exact lt_irrefl _ h

theorem allSymbols_length : allSymbols.length = 256 := by simp [allSymbols]

namespace Machine

/-! ## The Frequency Table -/

theorem mem_presentSymbols {f : Sparse Freq} {x : Symbol} :
    x ∈ presentSymbols f ↔ 1 ≤ (Sparse.read f x.toNat).toNat := by
  simp [presentSymbols, mem_allSymbols]

theorem presentSymbols_nodup (f : Sparse Freq) : (presentSymbols f).Nodup := allSymbols_nodup.filter _

theorem presentSymbols_ascending (f : Sparse Freq) : (presentSymbols f).Pairwise (fun a b => a.toNat < b.toNat) :=
  allSymbols_ascending.filter _

theorem presentSymbols_length_le (f : Sparse Freq) : (presentSymbols f).length ≤ 256 := by
  rw [← allSymbols_length]
  exact List.length_filter_le _ _

theorem presentSymbols_nil : presentSymbols [] = [] := by
  simp [presentSymbols]

/-- The total over the present symbols is the total. -/
theorem freqTotal_eq_present (f : Sparse Freq) :
    freqTotal f = ((presentSymbols f).map fun x => (Sparse.read f x.toNat).toNat).sum := by
  unfold freqTotal presentSymbols
  induction allSymbols with
  | nil => rfl
  | cons x l ih =>
    rw [List.map_cons, List.sum_cons, ih, List.filter_cons]
    split_ifs with h
    · simp
    · have : (Sparse.read f x.toNat).toNat = 0 := by simpa using h
      omega

/-! ## Counting a text -/

theorem read_countSymbol (f : Sparse Freq) (b : Byte) (k : Nat) :
    Sparse.read (countSymbol f b) k = if k = b.toNat then Sparse.read f b.toNat + 1 else Sparse.read f k :=
  Sparse.read_write f b.toNat k _

theorem foldl_countSymbol_read (text : List Byte) (f : Sparse Freq) (x : Symbol) :
    Sparse.read (text.foldl countSymbol f) x.toNat = Sparse.read f x.toNat + BitVec.ofNat 32 (text.count x) := by
  induction text generalizing f with
  | nil => simp
  | cons b r ih =>
    rw [List.foldl_cons, ih, read_countSymbol, List.count_cons]
    by_cases h : x = b
    · subst h
      simp only [if_true, beq_self_eq_true]
      rw [BitVec.ofNat_add, BitVec.add_assoc, BitVec.add_comm (BitVec.ofNat 32 _)]
      rfl
    · have h1 : x.toNat ≠ b.toNat := fun e => h (BitVec.eq_of_toNat_eq e)
      have h2 : ¬ (b == x) = true := fun e => h (beq_iff_eq.1 e).symm
      simp [h1, h2]

theorem count_lt_of_length {text : List Byte} (h : text.length < 2 ^ 32) (x : Symbol) : text.count x < 2 ^ 32 :=
  lt_of_le_of_lt List.count_le_length h

/-- R100: `FREQ[x]` is the number of positions of the text that hold `x`. -/
theorem read_countText {text : List Byte} (h : text.length < 2 ^ 32) (x : Symbol) :
    (Sparse.read (countText text) x.toNat).toNat = text.count x := by
  rw [countText, foldl_countSymbol_read, Sparse.read_nil, zero_add, BitVec.toNat_ofNat,
    Nat.mod_eq_of_lt (count_lt_of_length h x)]

theorem foldl_countSymbol_wf (text : List Byte) {f : Sparse Freq} (hf : Sparse.wf maxSymbols f) (h0 : ∀ e ∈ f, e.2 ≠ 0) :
    Sparse.wf maxSymbols (text.foldl countSymbol f) ∧ ∀ e ∈ text.foldl countSymbol f, e.2 ≠ 0 := by
  induction text generalizing f with
  | nil => exact ⟨hf, h0⟩
  | cons b r ih => exact ih (Sparse.wf_write hf b.isLt _) (Sparse.write_nonzero h0 _ _)

theorem countText_wf (text : List Byte) :
    Sparse.wf maxSymbols (countText text) ∧ ∀ e ∈ countText text, e.2 ≠ 0 :=
  foldl_countSymbol_wf text (by decide) (by simp)

theorem sum_count_eq_length (text : List Byte) : (allSymbols.map fun x => text.count x).sum = text.length := by
  induction text with
  | nil => simp
  | cons b r ih =>
    have h1 : (allSymbols.map fun x => (b :: r).count x) =
        allSymbols.map fun x => r.count x + if b == x then 1 else 0 := by
      refine List.map_congr_left fun x _ => ?_
      rw [List.count_cons]
    have h2 : (allSymbols.map fun x => if b == x then 1 else 0).sum = 1 := by
      have : (allSymbols.map fun x => if b == x then 1 else 0).sum = allSymbols.count b := by
        induction allSymbols with
        | nil => rfl
        | cons y l ih => 
          rw [List.map_cons, List.sum_cons, ih, List.count_cons, Nat.add_comm]
          by_cases e : b = y
          · simp [e]
          · simp [e, Ne.symm e]
      rw [this, List.count_eq_one_of_mem allSymbols_nodup (mem_allSymbols b)]
    rw [h1, List.sum_map_add, ih, h2, List.length_cons]

/-- R143: the counts of a text sum to its length. -/
theorem freqTotal_countText {text : List Byte} (h : text.length < 2 ^ 32) : freqTotal (countText text) = text.length := by
  rw [← sum_count_eq_length text, freqTotal]
  refine congrArg List.sum (List.map_congr_left fun x _ => read_countText h x)

theorem mem_presentSymbols_countText {text : List Byte} (h : text.length < 2 ^ 32) (x : Symbol) :
    x ∈ presentSymbols (countText text) ↔ x ∈ text := by
  rw [mem_presentSymbols, read_countText h, Nat.one_le_iff_ne_zero, Ne, List.count_eq_zero, not_not]

end Machine

end Sys2Proof
end

