-- ==== Sys2Proof/Laws/State.lean ====
section
/-! SUPPORT. One lemma per field per named update of the state, and the reset state's fields. -/

namespace Sys2Proof.Machine

variable (s : State)

/-! ## `State.respond` -/

@[simp] theorem State.respond_stage (st : Status) (res : Imm) (chars : List Byte) :
    (s.respond st res chars).stage = s.stage := rfl
@[simp] theorem State.respond_nsym (st : Status) (res : Imm) (chars : List Byte) :
    (s.respond st res chars).nsym = s.nsym := rfl
@[simp] theorem State.respond_freq (st : Status) (res : Imm) (chars : List Byte) :
    (s.respond st res chars).freq = s.freq := rfl
@[simp] theorem State.respond_node (st : Status) (res : Imm) (chars : List Byte) :
    (s.respond st res chars).node = s.node := rfl
@[simp] theorem State.respond_root (st : Status) (res : Imm) (chars : List Byte) :
    (s.respond st res chars).root = s.root := rfl
@[simp] theorem State.respond_raw (st : Status) (res : Imm) (chars : List Byte) :
    (s.respond st res chars).raw = s.raw := rfl
@[simp] theorem State.respond_can (st : Status) (res : Imm) (chars : List Byte) :
    (s.respond st res chars).can = s.can := rfl
@[simp] theorem State.respond_out (st : Status) (res : Imm) (chars : List Byte) :
    (s.respond st res chars).out = s.out := rfl
@[simp] theorem State.respond_scr (st : Status) (res : Imm) (chars : List Byte) :
    (s.respond st res chars).scr = s.scr := rfl
@[simp] theorem State.respond_tie (st : Status) (res : Imm) (chars : List Byte) :
    (s.respond st res chars).tie = s.tie := rfl
@[simp] theorem State.respond_pool (st : Status) (res : Imm) (chars : List Byte) :
    (s.respond st res chars).pool = s.pool := rfl
@[simp] theorem State.respond_nextCode (st : Status) (res : Imm) (chars : List Byte) :
    (s.respond st res chars).nextCode = s.nextCode := rfl
@[simp] theorem State.respond_curLen (st : Status) (res : Imm) (chars : List Byte) :
    (s.respond st res chars).curLen = s.curLen := rfl
@[simp] theorem State.respond_cfg (st : Status) (res : Imm) (chars : List Byte) :
    (s.respond st res chars).cfg = s.cfg := rfl
@[simp] theorem State.respond_moves (st : Status) (res : Imm) (chars : List Byte) :
    (s.respond st res chars).moves = s.moves := rfl
@[simp] theorem State.respond_tin (st : Status) (res : Imm) (chars : List Byte) :
    (s.respond st res chars).tin = s.tin := rfl
@[simp] theorem State.respond_responses (st : Status) (res : Imm) (chars : List Byte) :
    (s.respond st res chars).responses = { status := st, res := res, chars := chars } :: s.responses := rfl

/-! ## `State.clearSession` -/

@[simp] theorem State.clearSession_stage : (s.clearSession).stage = .empty := rfl
@[simp] theorem State.clearSession_nsym : (s.clearSession).nsym = 0#9 := rfl
@[simp] theorem State.clearSession_freq : (s.clearSession).freq = [] := rfl
@[simp] theorem State.clearSession_node : (s.clearSession).node = [] := rfl
@[simp] theorem State.clearSession_root : (s.clearSession).root = 0#9 := rfl
@[simp] theorem State.clearSession_raw : (s.clearSession).raw = [] := rfl
@[simp] theorem State.clearSession_can : (s.clearSession).can = [] := rfl
@[simp] theorem State.clearSession_out : (s.clearSession).out = BitSeq.empty := rfl
@[simp] theorem State.clearSession_scr : (s.clearSession).scr = s.scr := rfl
@[simp] theorem State.clearSession_tie : (s.clearSession).tie = s.tie := rfl
@[simp] theorem State.clearSession_pool : (s.clearSession).pool = s.pool := rfl
@[simp] theorem State.clearSession_nextCode : (s.clearSession).nextCode = s.nextCode := rfl
@[simp] theorem State.clearSession_curLen : (s.clearSession).curLen = s.curLen := rfl
@[simp] theorem State.clearSession_cfg : (s.clearSession).cfg = s.cfg := rfl
@[simp] theorem State.clearSession_moves : (s.clearSession).moves = s.moves := rfl
@[simp] theorem State.clearSession_tin : (s.clearSession).tin = s.tin := rfl
@[simp] theorem State.clearSession_responses : (s.clearSession).responses = s.responses := rfl

/-! ## `State.hardReset` -/

@[simp] theorem State.hardReset_stage : (s.hardReset).stage = .empty := rfl
@[simp] theorem State.hardReset_nsym : (s.hardReset).nsym = 0#9 := rfl
@[simp] theorem State.hardReset_freq : (s.hardReset).freq = [] := rfl
@[simp] theorem State.hardReset_node : (s.hardReset).node = [] := rfl
@[simp] theorem State.hardReset_root : (s.hardReset).root = 0#9 := rfl
@[simp] theorem State.hardReset_raw : (s.hardReset).raw = [] := rfl
@[simp] theorem State.hardReset_can : (s.hardReset).can = [] := rfl
@[simp] theorem State.hardReset_out : (s.hardReset).out = BitSeq.empty := rfl
@[simp] theorem State.hardReset_scr : (s.hardReset).scr = BitSeq.empty := rfl
@[simp] theorem State.hardReset_tie : (s.hardReset).tie = 0#9 := rfl
@[simp] theorem State.hardReset_pool : (s.hardReset).pool = [] := rfl
@[simp] theorem State.hardReset_nextCode : (s.hardReset).nextCode = 0 := rfl
@[simp] theorem State.hardReset_curLen : (s.hardReset).curLen = 0#8 := rfl
@[simp] theorem State.hardReset_cfg : (s.hardReset).cfg = s.cfg := rfl
@[simp] theorem State.hardReset_moves : (s.hardReset).moves = s.moves := rfl
@[simp] theorem State.hardReset_tin : (s.hardReset).tin = [] := rfl
@[simp] theorem State.hardReset_responses : (s.hardReset).responses = s.responses := rfl

/-! ## `State.addNode` -/

@[simp] theorem State.addNode_stage (n : Node) : (s.addNode n).stage = s.stage := rfl
@[simp] theorem State.addNode_nsym (n : Node) : (s.addNode n).nsym = s.nsym := rfl
@[simp] theorem State.addNode_freq (n : Node) : (s.addNode n).freq = s.freq := rfl
@[simp] theorem State.addNode_node (n : Node) : (s.addNode n).node = Sparse.put s.node s.tie.toNat n := rfl
@[simp] theorem State.addNode_root (n : Node) : (s.addNode n).root = s.root := rfl
@[simp] theorem State.addNode_raw (n : Node) : (s.addNode n).raw = s.raw := rfl
@[simp] theorem State.addNode_can (n : Node) : (s.addNode n).can = s.can := rfl
@[simp] theorem State.addNode_out (n : Node) : (s.addNode n).out = s.out := rfl
@[simp] theorem State.addNode_scr (n : Node) : (s.addNode n).scr = s.scr := rfl
@[simp] theorem State.addNode_tie (n : Node) : (s.addNode n).tie = s.tie + 1 := rfl
@[simp] theorem State.addNode_pool (n : Node) : (s.addNode n).pool = s.pool ++ [s.tie] := rfl
@[simp] theorem State.addNode_nextCode (n : Node) : (s.addNode n).nextCode = s.nextCode := rfl
@[simp] theorem State.addNode_curLen (n : Node) : (s.addNode n).curLen = s.curLen := rfl
@[simp] theorem State.addNode_cfg (n : Node) : (s.addNode n).cfg = s.cfg := rfl
@[simp] theorem State.addNode_moves (n : Node) : (s.addNode n).moves = s.moves := rfl
@[simp] theorem State.addNode_tin (n : Node) : (s.addNode n).tin = s.tin := rfl
@[simp] theorem State.addNode_responses (n : Node) : (s.addNode n).responses = s.responses := rfl

/-! ## `State.assignCode` -/

@[simp] theorem State.assignCode_stage (x : Symbol) : (s.assignCode x).stage = s.stage := rfl
@[simp] theorem State.assignCode_nsym (x : Symbol) : (s.assignCode x).nsym = s.nsym := rfl
@[simp] theorem State.assignCode_freq (x : Symbol) : (s.assignCode x).freq = s.freq := rfl
@[simp] theorem State.assignCode_node (x : Symbol) : (s.assignCode x).node = s.node := rfl
@[simp] theorem State.assignCode_root (x : Symbol) : (s.assignCode x).root = s.root := rfl
@[simp] theorem State.assignCode_raw (x : Symbol) : (s.assignCode x).raw = s.raw := rfl
@[simp] theorem State.assignCode_can (x : Symbol) :
    (s.assignCode x).can = Sparse.put s.can x.toNat (BitSeq.ofNat s.curLen.toNat s.nextCode) := rfl
@[simp] theorem State.assignCode_out (x : Symbol) : (s.assignCode x).out = s.out := rfl
@[simp] theorem State.assignCode_scr (x : Symbol) : (s.assignCode x).scr = s.scr := rfl
@[simp] theorem State.assignCode_tie (x : Symbol) : (s.assignCode x).tie = s.tie := rfl
@[simp] theorem State.assignCode_pool (x : Symbol) : (s.assignCode x).pool = s.pool := rfl
@[simp] theorem State.assignCode_nextCode (x : Symbol) : (s.assignCode x).nextCode = s.nextCode + 1 := rfl
@[simp] theorem State.assignCode_curLen (x : Symbol) : (s.assignCode x).curLen = s.curLen := rfl
@[simp] theorem State.assignCode_cfg (x : Symbol) : (s.assignCode x).cfg = s.cfg := rfl
@[simp] theorem State.assignCode_moves (x : Symbol) : (s.assignCode x).moves = s.moves := rfl
@[simp] theorem State.assignCode_tin (x : Symbol) : (s.assignCode x).tin = s.tin := rfl
@[simp] theorem State.assignCode_responses (x : Symbol) : (s.assignCode x).responses = s.responses := rfl

/-! ## `State.accept` -/

@[simp] theorem State.accept_stage (text : List Byte) (rest : List HostMove) : (s.accept text rest).stage = s.stage := rfl
@[simp] theorem State.accept_nsym (text : List Byte) (rest : List HostMove) : (s.accept text rest).nsym = s.nsym := rfl
@[simp] theorem State.accept_freq (text : List Byte) (rest : List HostMove) : (s.accept text rest).freq = s.freq := rfl
@[simp] theorem State.accept_node (text : List Byte) (rest : List HostMove) : (s.accept text rest).node = s.node := rfl
@[simp] theorem State.accept_root (text : List Byte) (rest : List HostMove) : (s.accept text rest).root = s.root := rfl
@[simp] theorem State.accept_raw (text : List Byte) (rest : List HostMove) : (s.accept text rest).raw = s.raw := rfl
@[simp] theorem State.accept_can (text : List Byte) (rest : List HostMove) : (s.accept text rest).can = s.can := rfl
@[simp] theorem State.accept_out (text : List Byte) (rest : List HostMove) : (s.accept text rest).out = s.out := rfl
@[simp] theorem State.accept_scr (text : List Byte) (rest : List HostMove) : (s.accept text rest).scr = s.scr := rfl
@[simp] theorem State.accept_tie (text : List Byte) (rest : List HostMove) : (s.accept text rest).tie = s.tie := rfl
@[simp] theorem State.accept_pool (text : List Byte) (rest : List HostMove) : (s.accept text rest).pool = s.pool := rfl
@[simp] theorem State.accept_nextCode (text : List Byte) (rest : List HostMove) :
    (s.accept text rest).nextCode = s.nextCode := rfl
@[simp] theorem State.accept_curLen (text : List Byte) (rest : List HostMove) :
    (s.accept text rest).curLen = s.curLen := rfl
@[simp] theorem State.accept_cfg (text : List Byte) (rest : List HostMove) : (s.accept text rest).cfg = s.cfg := rfl
@[simp] theorem State.accept_moves (text : List Byte) (rest : List HostMove) : (s.accept text rest).moves = rest := rfl
@[simp] theorem State.accept_tin (text : List Byte) (rest : List HostMove) : (s.accept text rest).tin = s.tin ++ text := rfl
@[simp] theorem State.accept_responses (text : List Byte) (rest : List HostMove) :
    (s.accept text rest).responses = s.responses := rfl

/-! ## `State.raiseLength` -/

@[simp] theorem State.raiseLength_stage (L : Nat) : (s.raiseLength L).stage = s.stage := by unfold State.raiseLength; split_ifs <;> rfl
@[simp] theorem State.raiseLength_nsym (L : Nat) : (s.raiseLength L).nsym = s.nsym := by unfold State.raiseLength; split_ifs <;> rfl
@[simp] theorem State.raiseLength_freq (L : Nat) : (s.raiseLength L).freq = s.freq := by unfold State.raiseLength; split_ifs <;> rfl
@[simp] theorem State.raiseLength_node (L : Nat) : (s.raiseLength L).node = s.node := by unfold State.raiseLength; split_ifs <;> rfl
@[simp] theorem State.raiseLength_root (L : Nat) : (s.raiseLength L).root = s.root := by unfold State.raiseLength; split_ifs <;> rfl
@[simp] theorem State.raiseLength_raw (L : Nat) : (s.raiseLength L).raw = s.raw := by unfold State.raiseLength; split_ifs <;> rfl
@[simp] theorem State.raiseLength_can (L : Nat) : (s.raiseLength L).can = s.can := by unfold State.raiseLength; split_ifs <;> rfl
@[simp] theorem State.raiseLength_out (L : Nat) : (s.raiseLength L).out = s.out := by unfold State.raiseLength; split_ifs <;> rfl
@[simp] theorem State.raiseLength_scr (L : Nat) : (s.raiseLength L).scr = s.scr := by unfold State.raiseLength; split_ifs <;> rfl
@[simp] theorem State.raiseLength_tie (L : Nat) : (s.raiseLength L).tie = s.tie := by unfold State.raiseLength; split_ifs <;> rfl
@[simp] theorem State.raiseLength_pool (L : Nat) : (s.raiseLength L).pool = s.pool := by unfold State.raiseLength; split_ifs <;> rfl
@[simp] theorem State.raiseLength_cfg (L : Nat) : (s.raiseLength L).cfg = s.cfg := by unfold State.raiseLength; split_ifs <;> rfl
@[simp] theorem State.raiseLength_moves (L : Nat) : (s.raiseLength L).moves = s.moves := by unfold State.raiseLength; split_ifs <;> rfl
@[simp] theorem State.raiseLength_tin (L : Nat) : (s.raiseLength L).tin = s.tin := by unfold State.raiseLength; split_ifs <;> rfl
@[simp] theorem State.raiseLength_responses (L : Nat) : (s.raiseLength L).responses = s.responses := by unfold State.raiseLength; split_ifs <;> rfl

theorem State.raiseLength_curLen {L : Nat} (hL : L ≤ maxCodeLen) :
    (s.raiseLength L).curLen.toNat = max s.curLen.toNat L := by
  unfold State.raiseLength
  split_ifs with h
  · rw [BitVec.toNat_ofNat, Nat.mod_eq_of_lt (by simpa [maxCodeLen] using Nat.lt_succ_of_le hL)]; omega
  · omega

theorem State.raiseLength_nextCode (L : Nat) :
    (s.raiseLength L).nextCode = s.nextCode * 2 ^ (L - s.curLen.toNat) := by
  unfold State.raiseLength
  split_ifs with h
  · simp [Nat.shiftLeft_eq]
  · simp [Nat.sub_eq_zero_of_le (Nat.le_of_not_lt h)]

end Sys2Proof.Machine
end

