-- ==== Sys2Proof/Laws/Sorter.lean ====
section
/-! SUPPORT. The priority-queue sorter: `extract_min` gives the least element and the rest of the pool
(42_tree_builder.md R102). -/

namespace Sys2Proof.Machine

theorem before_iff (node : Sparse Node) (a b : NodeIx) : before node a b = true ↔
    (nodeFrequency node a).toNat < (nodeFrequency node b).toNat ∨
      ((nodeFrequency node a).toNat = (nodeFrequency node b).toNat ∧
        (nodeTiebreaker node a).toNat < (nodeTiebreaker node b).toNat) := by
  simp [before]

theorem before_irrefl (node : Sparse Node) (a : NodeIx) : ¬ before node a a = true := by
  rw [before_iff]; omega

theorem before_trans {node : Sparse Node} {a b c : NodeIx} (h1 : before node a b = true) (h2 : before node b c = true) :
    before node a c = true := by
  rw [before_iff] at *; omega

/-- Distinct tiebreakers leave no ties. -/
theorem before_total {node : Sparse Node} {a b : NodeIx} (h : nodeTiebreaker node a ≠ nodeTiebreaker node b) :
    before node a b = true ∨ before node b a = true := by
  have : (nodeTiebreaker node a).toNat ≠ (nodeTiebreaker node b).toNat := fun e => h (BitVec.eq_of_toNat_eq e)
  rw [before_iff, before_iff]; omega

theorem not_before_trans {node : Sparse Node} {a b c : NodeIx} (h1 : ¬ before node a b = true)
    (h2 : ¬ before node b c = true) : ¬ before node a c = true := by
  rw [before_iff] at *; omega

theorem leastOf_spec (node : Sparse Node) (t : NodeIx) (l : List NodeIx) :
    leastOf node t l ∈ t :: l ∧ ∀ c ∈ t :: l, ¬ before node c (leastOf node t l) = true := by
  induction l generalizing t with
  | nil => simp [leastOf, before_irrefl]
  | cons a r ih =>
    simp only [leastOf]
    by_cases h : before node a t = true
    · simp only [h, if_true]
      obtain ⟨i1, i2⟩ := ih a
      refine ⟨List.mem_cons_of_mem _ i1, fun c hc => ?_⟩
      rcases List.mem_cons.1 hc with rfl | hc
      · intro hb
        exact i2 a List.mem_cons_self (before_trans h hb)
      · exact i2 c hc
    · simp only [h, if_false, Bool.false_eq_true]
      obtain ⟨i1, i2⟩ := ih t
      refine ⟨?_, fun c hc => ?_⟩
      · rcases List.mem_cons.1 i1 with h1 | h1
        · rw [h1]; exact List.mem_cons_self
        · exact List.mem_cons_of_mem _ (List.mem_cons_of_mem _ h1)
      · rcases List.mem_cons.1 hc with rfl | hc
        · exact i2 _ List.mem_cons_self
        · rcases List.mem_cons.1 hc with rfl | hc
          · exact not_before_trans h (i2 t List.mem_cons_self)
          · exact i2 c (List.mem_cons_of_mem _ hc)

/-- R102: the element extracted is in the pool, no element comes before it, and the rest is the pool without it. -/
theorem extractMin_spec {node : Sparse Node} {pool : List NodeIx} {a : NodeIx} {rest : List NodeIx}
    (h : extractMin node pool = some (a, rest)) :
    a ∈ pool ∧ rest = pool.erase a ∧ ∀ c ∈ pool, ¬ before node c a = true := by
  cases pool with
  | nil => simp [extractMin] at h
  | cons t l =>
    simp only [extractMin, Option.some.injEq, Prod.mk.injEq] at h
    obtain ⟨rfl, rfl⟩ := h
    obtain ⟨h1, h2⟩ := leastOf_spec node t l
    exact ⟨h1, rfl, h2⟩

theorem extractMin_perm {node : Sparse Node} {pool : List NodeIx} {a : NodeIx} {rest : List NodeIx}
    (h : extractMin node pool = some (a, rest)) : pool.Perm (a :: rest) := by
  obtain ⟨h1, rfl, _⟩ := extractMin_spec h
  exact List.perm_cons_erase h1

theorem extractMin_of_ne_nil (node : Sparse Node) {pool : List NodeIx} (h : pool ≠ []) :
    ∃ a rest, extractMin node pool = some (a, rest) := by
  cases pool with
  | nil => exact absurd rfl h
  | cons t l => exact ⟨_, _, rfl⟩

end Sys2Proof.Machine
end

