-- ==== Sys2Proof/Laws/Tree.lean ====
section
/-! SUPPORT. `BUILD`: planting the leaves and every merge keep the shape of a growing tree, and the last merge leaves the
tree of the Frequency Table (10_state.md R26, R27; 42_tree_builder.md R103 to R105, R110). -/

namespace Sys2Proof.Machine

/-! ## A new entry above all others -/

theorem Sparse.put_above {α : Type} {m : Sparse α} {k : Nat} (h : ∀ e ∈ m, e.1 < k) (v : α) :
    Sparse.put m k v = m ++ [(k, v)] := by
  induction m with
  | nil => rfl
  | cons e r ih =>
    obtain ⟨a, x⟩ := e
    have h1 : a < k := h _ List.mem_cons_self
    rw [Sparse.put, if_neg (by omega), if_neg (by omega), ih fun e he => h e (List.mem_cons_of_mem _ he)]
    rfl

theorem Sparse.keys_lt {α : Type} {m : Sparse α} {k : Nat} (h : m.map Prod.fst = List.range k) : ∀ e ∈ m, e.1 < k := by
  intro e he
  exact List.mem_range.1 (h ▸ List.mem_map_of_mem he)

theorem Sparse.entry_range {α : Type} {m : Sparse α} {k : Nat} (h : m.map Prod.fst = List.range k) (j : Nat) :
    (Sparse.entry m j).isSome ↔ j < k := by
  rw [Sparse.entry_isSome, h, List.mem_range]

theorem Sparse.entry_range_none {α : Type} {m : Sparse α} {k : Nat} (h : m.map Prod.fst = List.range k) {j : Nat}
    (hj : k ≤ j) : Sparse.entry m j = none := by
  rw [← Option.not_isSome_iff_eq_none, Sparse.entry_range h]; omega

theorem Sparse.put_range {α : Type} {m : Sparse α} {k : Nat} (h : m.map Prod.fst = List.range k) (v : α) :
    (Sparse.put m k v).map Prod.fst = List.range (k + 1) := by
  rw [Sparse.put_above (Sparse.keys_lt h), List.map_append, h, List.range_succ]
  rfl

theorem nodeFrequency_put_ne (node : Sparse Node) {k : Nat} (v : Node) {t : NodeIx} (h : t.toNat ≠ k) :
    nodeFrequency (Sparse.put node k v) t = nodeFrequency node t := by
  simp [nodeFrequency, Sparse.entry_put_ne _ _ h]

theorem nodeTiebreaker_put_ne (node : Sparse Node) {k : Nat} (v : Node) {t : NodeIx} (h : t.toNat ≠ k) :
    nodeTiebreaker (Sparse.put node k v) t = nodeTiebreaker node t := by
  simp [nodeTiebreaker, Sparse.entry_put_ne _ _ h]

theorem before_put_ne (node : Sparse Node) {k : Nat} (v : Node) {a b : NodeIx} (ha : a.toNat ≠ k) (hb : b.toNat ≠ k) :
    before (Sparse.put node k v) a b = before node a b := by
  simp [before, nodeFrequency_put_ne _ _ ha, nodeFrequency_put_ne _ _ hb, nodeTiebreaker_put_ne _ _ ha,
    nodeTiebreaker_put_ne _ _ hb]

theorem toNat_ofNat_ix {k : Nat} (h : k < 512) : (BitVec.ofNat 9 k).toNat = k := by
  simp [BitVec.toNat_ofNat]; omega

theorem ix_succ {t : NodeIx} {m : Nat} (h : t.toNat = m) (hm : m + 1 < 512) : (t + 1).toNat = m + 1 := by
  simp [BitVec.toNat_add, h]; omega

/-! ## The growing tree -/

/-- The tree of `freq` after its leaves and some merges: `m` nodes exist, and the pool holds those without a parent. -/
structure Growing (freq : Sparse Freq) (s : State) (m : Nat) : Prop where
  counts : s.freq = freq
  tie : s.tie.toNat = m
  size : s.pool.length + m = 2 * (presentSymbols freq).length
  nonempty : 1 ≤ (presentSymbols freq).length
  planted : (presentSymbols freq).length ≤ m
  indices : s.node.map Prod.fst = List.range m
  leaves : ∀ k x, (presentSymbols freq)[k]? = some x →
    Sparse.entry s.node k = some (.leaf x (Sparse.read freq x.toNat) (BitVec.ofNat 9 k))
  internals : ∀ t, (presentSymbols freq).length ≤ t → t < m → ∃ f l r,
    Sparse.entry s.node t = some (.internal f (BitVec.ofNat 9 t) l r) ∧ l.toNat < t ∧ r.toNat < t ∧ l ≠ r ∧
      f.toNat = (nodeFrequency s.node l).toNat + (nodeFrequency s.node r).toNat
  poolNodup : s.pool.Nodup
  pool : ∀ c, c ∈ s.pool ↔ c.toNat < m ∧ ∀ t, ¬ ChildOf s.node c.toNat t
  unique : ∀ c t t', ChildOf s.node c t → ChildOf s.node c t' → t' = t
  sum : (s.pool.map fun c => (nodeFrequency s.node c).toNat).sum = freqTotal freq
  greedy : ∀ t l r, Children s.node t l r → before s.node l r = true ∧ ∀ c : NodeIx, c.toNat < t → c ≠ l → c ≠ r →
    (∀ t' < t, ¬ ChildOf s.node c.toNat t') → before s.node r c = true

namespace Growing

variable {freq : Sparse Freq} {s : State} {m : Nat}

theorem pool_ne_nil (h : Growing freq s m) (hm : m < 2 * (presentSymbols freq).length) : s.pool ≠ [] := by
  intro e
  have := h.size
  rw [e] at this
  simp at this
  omega

theorem pool_lt (h : Growing freq s m) {c : NodeIx} (hc : c ∈ s.pool) : c.toNat < m := ((h.pool c).1 hc).1

/-- A leaf has no children. -/
theorem leaf_no_children (h : Growing freq s m) {k : Nat} (hk : k < (presentSymbols freq).length) (l r : NodeIx) :
    ¬ Children s.node k l r := by
  rintro ⟨f, t, e⟩
  have := h.leaves k _ (List.getElem?_eq_getElem hk)
  rw [this] at e
  cases e

/-- The index of a node is its tiebreaker. -/
theorem tiebreaker (h : Growing freq s m) {c : NodeIx} (hc : c.toNat < m) : nodeTiebreaker s.node c = c := by
  by_cases hk : c.toNat < (presentSymbols freq).length
  · have := h.leaves c.toNat _ (List.getElem?_eq_getElem hk)
    simp [nodeTiebreaker, this]
  · obtain ⟨f, l, r, e, _⟩ := h.internals c.toNat (by omega) hc
    simp [nodeTiebreaker, e]

theorem before_of_not (h : Growing freq s m) {a c : NodeIx} (ha : a.toNat < m) (hc : c.toNat < m) (hne : a ≠ c)
    (hb : ¬ before s.node c a = true) : before s.node a c = true := by
  have : nodeTiebreaker s.node a ≠ nodeTiebreaker s.node c := by
    rw [h.tiebreaker ha, h.tiebreaker hc]; exact hne
  exact (before_total this).resolve_right hb

theorem child_lt (h : Growing freq s m) {c t : Nat} (hc : ChildOf s.node c t) : c < t ∧ t < m := by
  obtain ⟨l, r, ⟨f, k, e⟩, hlr⟩ := hc
  have ht : t < m := (Sparse.entry_range h.indices t).1 (by simp [e])
  have hn : (presentSymbols freq).length ≤ t := by
    by_contra hlt
    exact h.leaf_no_children (by omega) l r ⟨f, k, e⟩
  obtain ⟨f', l', r', e', h1, h2, _⟩ := h.internals t hn ht
  rw [e] at e'
  simp only [Option.some.injEq, Node.internal.injEq] at e'
  obtain ⟨_, _, rfl, rfl⟩ := e'
  rcases hlr with rfl | rfl
  · exact ⟨h1, ht⟩
  · exact ⟨h2, ht⟩

end Growing

theorem childOf_put {node : Sparse Node} {m : Nat} {f : Freq} {k a b : NodeIx} (hm : Sparse.entry node m = none)
    (c t : Nat) : ChildOf (Sparse.put node m (.internal f k a b)) c t ↔
      ChildOf node c t ∨ (t = m ∧ (a.toNat = c ∨ b.toNat = c)) := by
  unfold ChildOf Children
  by_cases ht : t = m
  · subst ht
    simp only [Sparse.entry_put_self, hm]
    constructor
    · rintro ⟨l, r, ⟨f', k', e⟩, h⟩
      simp only [Option.some.injEq, Node.internal.injEq] at e
      obtain ⟨_, _, rfl, rfl⟩ := e
      exact Or.inr ⟨trivial, h⟩
    · rintro (⟨l, r, ⟨f', k', e⟩, h⟩ | ⟨_, h⟩)
      · cases e
      · exact ⟨a, b, ⟨f, k, rfl⟩, h⟩
  · simp [Sparse.entry_put_ne _ _ ht, ht]

/-! ## One merge -/

/-- R104, R105: a merge extracts the two least nodes and makes them the children of the next node. -/
theorem mergeOnce_eq (s : State) (h : 2 ≤ s.pool.length) : ∃ a b, a ∈ s.pool ∧ b ∈ s.pool.erase a ∧
    (∀ c ∈ s.pool, ¬ before s.node c a = true) ∧ (∀ c ∈ s.pool.erase a, ¬ before s.node c b = true) ∧
    s.mergeOnce = State.addNode { s with pool := (s.pool.erase a).erase b }
      (.internal (nodeFrequency s.node a + nodeFrequency s.node b) s.tie a b) := by
  obtain ⟨a, rest, e1⟩ := extractMin_of_ne_nil s.node (pool := s.pool) (by rintro e; simp [e] at h)
  obtain ⟨ha, rfl, hmin⟩ := extractMin_spec e1
  have hl : (s.pool.erase a).length = s.pool.length - 1 := List.length_erase_of_mem ha
  obtain ⟨b, rest, e2⟩ := extractMin_of_ne_nil s.node (pool := s.pool.erase a)
    (by rintro e; rw [e] at hl; simp at hl; omega)
  obtain ⟨hb, rfl, hmin'⟩ := extractMin_spec e2
  refine ⟨a, b, ha, hb, hmin, hmin', ?_⟩
  simp [State.mergeOnce, e1, e2]

theorem Growing.mergeOnce {freq : Sparse Freq} {s : State} {m : Nat} (h : Growing freq s m)
    (hp : 2 ≤ s.pool.length) (hm : m + 1 < 512) (htot : freqTotal freq < 2 ^ 32) :
    Growing freq s.mergeOnce (m + 1) := by
  obtain ⟨a, b, ha, hb, hmin, hmin', e⟩ := mergeOnce_eq s hp
  have hb' : b ∈ s.pool := List.mem_of_mem_erase hb
  have hab : a ≠ b := fun e => by
    subst e
    exact (List.Nodup.not_mem_erase h.poolNodup) hb
  have ham := h.pool_lt ha
  have hbm := h.pool_lt hb'
  have hnone : Sparse.entry s.node m = none := Sparse.entry_range_none h.indices le_rfl
  have hperm : s.pool.Perm (a :: b :: (s.pool.erase a).erase b) :=
    (List.perm_cons_erase ha).trans ((List.perm_cons_erase hb).cons a)
  have hrest : ∀ c, c ∈ (s.pool.erase a).erase b ↔ c ∈ s.pool ∧ c ≠ a ∧ c ≠ b := by
    intro c
    rw [(h.poolNodup.erase a).mem_erase_iff, h.poolNodup.mem_erase_iff]
    exact ⟨fun ⟨h1, h2, h3⟩ => ⟨h3, h2, h1⟩, fun ⟨h1, h2, h3⟩ => ⟨h3, h2, h1⟩⟩
  have hsum := h.sum
  rw [(hperm.map _).sum_eq] at hsum
  simp only [List.map_cons, List.sum_cons] at hsum
  set n := s.mergeOnce with hn
  have hnode : n.node = Sparse.put s.node m (.internal (nodeFrequency s.node a + nodeFrequency s.node b) s.tie a b) := by
    rw [e]; simp [h.tie]
  have htie : s.tie = BitVec.ofNat 9 m := by
    apply BitVec.eq_of_toNat_eq; rw [h.tie, toNat_ofNat_ix (by omega)]
  have hpool : n.pool = (s.pool.erase a).erase b ++ [s.tie] := by rw [e]; simp
  have hfab : (nodeFrequency s.node a + nodeFrequency s.node b).toNat =
      (nodeFrequency s.node a).toNat + (nodeFrequency s.node b).toNat := by
    rw [BitVec.toNat_add, Nat.mod_eq_of_lt (by omega)]
  have hfm : nodeFrequency n.node s.tie = nodeFrequency s.node a + nodeFrequency s.node b := by
    rw [hnode]; simp [nodeFrequency, h.tie]
  have hchild : ∀ c t, ChildOf n.node c t ↔ ChildOf s.node c t ∨ (t = m ∧ (a.toNat = c ∨ b.toNat = c)) := by
    intro c t; rw [hnode]; exact childOf_put hnone c t
  have htiepool : s.tie ∉ (s.pool.erase a).erase b := by
    intro hmem
    have := h.pool_lt ((hrest _).1 hmem).1
    rw [h.tie] at this
    omega
  constructor
  · rw [e]; simpa using h.counts
  · rw [e]; simpa using ix_succ h.tie hm
  · have h1 := hperm.length_eq
    have h2 := h.size
    rw [hpool, List.length_append, List.length_singleton]
    simp only [List.length_cons] at h1
    omega
  · exact h.nonempty
  · have := h.planted; omega
  · rw [hnode]; exact Sparse.put_range h.indices _
  · intro k x hk
    have hkn : k < (presentSymbols freq).length := (List.getElem?_eq_some_iff.1 hk).1
    rw [hnode, Sparse.entry_put_ne _ _ (by have := h.planted; omega)]
    exact h.leaves k x hk
  · intro t h1 h2
    by_cases ht : t = m
    · subst ht
      refine ⟨_, a, b, by rw [hnode, Sparse.entry_put_self, htie], ham, hbm, hab, ?_⟩
      rw [hfab, hnode, nodeFrequency_put_ne _ _ (by omega), nodeFrequency_put_ne _ _ (by omega)]
    · obtain ⟨f, l, r, e1, e2, e3, e4, e5⟩ := h.internals t h1 (by omega)
      refine ⟨f, l, r, by rw [hnode, Sparse.entry_put_ne _ _ ht]; exact e1, e2, e3, e4, ?_⟩
      rw [e5, hnode, nodeFrequency_put_ne _ _ (by omega), nodeFrequency_put_ne _ _ (by omega)]
  · rw [hpool, List.nodup_append]
    refine ⟨(h.poolNodup.erase a).erase b, by simp, ?_⟩
    intro x hx y hy
    simp only [List.mem_singleton] at hy
    subst hy
    rintro rfl
    exact htiepool hx
  · intro c
    rw [hpool, List.mem_append, List.mem_singleton, hrest]
    constructor
    · rintro (⟨hc, hca, hcb⟩ | rfl)
      · obtain ⟨c1, c2⟩ := (h.pool c).1 hc
        refine ⟨by omega, fun t => ?_⟩
        rw [hchild]
        rintro (h1 | ⟨-, h1 | h1⟩)
        · exact c2 t h1
        · exact hca (BitVec.eq_of_toNat_eq h1.symm)
        · exact hcb (BitVec.eq_of_toNat_eq h1.symm)
      · refine ⟨by rw [h.tie]; omega, fun t => ?_⟩
        rw [hchild, h.tie]
        rintro (h1 | ⟨-, h1 | h1⟩)
        · have := h.child_lt h1; omega
        · omega
        · omega
    · rintro ⟨c1, c2⟩
      by_cases hc : c.toNat = m
      · exact Or.inr (BitVec.eq_of_toNat_eq (by rw [hc, h.tie]))
      · refine Or.inl ⟨(h.pool c).2 ⟨by omega, fun t ht => c2 t ((hchild _ _).2 (Or.inl ht))⟩, ?_, ?_⟩
        · rintro rfl; exact c2 m ((hchild _ _).2 (Or.inr ⟨rfl, Or.inl rfl⟩))
        · rintro rfl; exact c2 m ((hchild _ _).2 (Or.inr ⟨rfl, Or.inr rfl⟩))
  · intro c t t' h1 h2
    rw [hchild] at h1 h2
    have key : ∀ t, ChildOf s.node c t → ¬ (a.toNat = c ∨ b.toNat = c) := by
      rintro t ht (rfl | rfl)
      · exact ((h.pool a).1 ha).2 t ht
      · exact ((h.pool b).1 hb').2 t ht
    rcases h1 with h1 | ⟨rfl, h1⟩ <;> rcases h2 with h2 | ⟨rfl, h2⟩
    · exact h.unique c t t' h1 h2
    · exact absurd h2 (key t h1)
    · exact absurd h1 (key t' h2)
    · rfl
  · rw [hpool, List.map_append, List.sum_append]
    simp only [List.map_cons, List.map_nil, List.sum_cons, List.sum_nil, hfm, hfab]
    have : ((s.pool.erase a).erase b).map (fun c => (nodeFrequency n.node c).toNat) =
        ((s.pool.erase a).erase b).map fun c => (nodeFrequency s.node c).toNat := by
      refine List.map_congr_left fun c hc => ?_
      have := h.pool_lt ((hrest c).1 hc).1
      rw [hnode, nodeFrequency_put_ne _ _ (by omega)]
    rw [this]
    omega
  · rintro t l r ⟨f, k, et⟩
    have htm : t < m + 1 := by
      have := (Sparse.entry_range (m := n.node) (by rw [hnode]; exact Sparse.put_range h.indices _) t).1 (by simp [et])
      exact this
    by_cases ht : t = m
    · subst ht
      rw [hnode, Sparse.entry_put_self] at et
      simp only [Option.some.injEq, Node.internal.injEq] at et
      obtain ⟨_, _, rfl, rfl⟩ := et
      refine ⟨?_, fun c hc hca hcb hfree => ?_⟩
      · rw [hnode, before_put_ne _ _ (by omega) (by omega)]
        exact h.before_of_not ham hbm hab (hmin b hb')
      · rw [hnode, before_put_ne _ _ (by omega) (by omega)]
        have hcp : c ∈ s.pool := by
          refine (h.pool c).2 ⟨hc, fun t' ht' => ?_⟩
          exact hfree t' (h.child_lt ht').2 ((hchild _ _).2 (Or.inl ht'))
        refine h.before_of_not hbm hc (Ne.symm hcb) (hmin' c ?_)
        exact (h.poolNodup.mem_erase_iff).2 ⟨hca, hcp⟩
    · have et' : Children s.node t l r := by
        rw [hnode, Sparse.entry_put_ne _ _ ht] at et
        exact ⟨f, k, et⟩
      have hl := (h.child_lt ⟨l, r, et', Or.inl rfl⟩).1
      have hr := (h.child_lt ⟨l, r, et', Or.inr rfl⟩).1
      obtain ⟨g1, g2⟩ := h.greedy t l r et'
      refine ⟨?_, fun c hc hca hcb hfree => ?_⟩
      · rw [hnode, before_put_ne _ _ (by omega) (by omega)]; exact g1
      · rw [hnode, before_put_ne _ _ (by omega) (by omega)]
        exact g2 c hc hca hcb fun t' ht' hc' => hfree t' ht' ((hchild _ _).2 (Or.inl hc'))

/-! ## The leaves -/

/-- The leaves of the first symbols of the table have been created. -/
structure Planted (freq : Sparse Freq) (done : List Symbol) (s : State) : Prop where
  counts : s.freq = freq
  tie : s.tie.toNat = done.length
  indices : s.node.map Prod.fst = List.range done.length
  pool : s.pool = (List.range done.length).map (BitVec.ofNat 9)
  leaves : ∀ k x, done[k]? = some x →
    Sparse.entry s.node k = some (.leaf x (Sparse.read freq x.toNat) (BitVec.ofNat 9 k))

theorem Planted.addLeaf {freq : Sparse Freq} {done : List Symbol} {s : State} (h : Planted freq done s) (x : Symbol)
    (hl : done.length + 1 < 512) : Planted freq (done ++ [x]) (s.addLeaf x) := by
  have htie : s.tie = BitVec.ofNat 9 done.length := by
    apply BitVec.eq_of_toNat_eq
    rw [h.tie, toNat_ofNat_ix (by omega)]
  constructor
  · exact h.counts
  · simpa [State.addLeaf] using ix_succ h.tie hl
  · simpa [State.addLeaf, h.tie] using Sparse.put_range h.indices _
  · simp [State.addLeaf, h.pool, htie, List.range_succ]
  · intro k y hk
    simp only [State.addLeaf, State.addNode_node, h.tie]
    by_cases he : k = done.length
    · subst he
      simp only [List.getElem?_concat_length, Option.some.injEq] at hk
      subst hk
      rw [Sparse.entry_put_self, h.counts, htie]
    · rw [Sparse.entry_put_ne _ _ he]
      refine h.leaves k y ?_
      have hlt := (List.getElem?_eq_some_iff.1 hk).1
      simp only [List.length_append, List.length_singleton] at hlt
      rwa [List.getElem?_append_left (by omega)] at hk

theorem Planted.foldl {freq : Sparse Freq} (rest done : List Symbol) (s : State) (h : Planted freq done s)
    (hl : done.length + rest.length < 512) : Planted freq (done ++ rest) (rest.foldl State.addLeaf s) := by
  induction rest generalizing done s with
  | nil => simpa using h
  | cons x r ih =>
    simp only [List.length_cons] at hl
    have := ih (done ++ [x]) (s.addLeaf x) (h.addLeaf x (by omega)) (by simp; omega)
    simpa using this

theorem planted_plantLeaves (s : State) (hn : s.node = []) : Planted s.freq (presentSymbols s.freq) s.plantLeaves := by
  have h0 : Planted s.freq [] { s with tie := 0#9, pool := [] } := by
    constructor <;> simp [hn]
  have := presentSymbols_length_le s.freq
  simpa [State.plantLeaves] using h0.foldl (presentSymbols s.freq) _ _ (by simp; omega)

theorem Planted.growing {freq : Sparse Freq} {s : State} (h : Planted freq (presentSymbols freq) s)
    (hne : presentSymbols freq ≠ []) : Growing freq s (presentSymbols freq).length := by
  have hle := presentSymbols_length_le freq
  have hleaf : ∀ t l r, ¬ Children s.node t l r := by
    rintro t l r ⟨f, k, e⟩
    have ht : t < (presentSymbols freq).length := (Sparse.entry_range h.indices t).1 (by simp [e])
    rw [h.leaves t _ (List.getElem?_eq_getElem ht)] at e
    cases e
  constructor
  · exact h.counts
  · exact h.tie
  · rw [h.pool]; simp; omega
  · exact List.length_pos_iff.2 hne
  · exact le_rfl
  · exact h.indices
  · exact h.leaves
  · intro t h1 h2; omega
  · rw [h.pool]
    refine (List.nodup_map_iff_inj_on List.nodup_range).2 fun a ha b hb e => ?_
    have := congrArg BitVec.toNat e
    rwa [toNat_ofNat_ix (by have := List.mem_range.1 ha; omega),
      toNat_ofNat_ix (by have := List.mem_range.1 hb; omega)] at this
  · intro c
    rw [h.pool, List.mem_map]
    constructor
    · rintro ⟨k, hk, rfl⟩
      have hk := List.mem_range.1 hk
      rw [toNat_ofNat_ix (by omega)]
      exact ⟨hk, fun t ⟨l, r, hc, _⟩ => hleaf t l r hc⟩
    · rintro ⟨hc, _⟩
      exact ⟨c.toNat, List.mem_range.2 hc, by simp⟩
  · rintro c t t' ⟨l, r, hc, _⟩
    exact absurd hc (hleaf t l r)
  · rw [h.pool, freqTotal_eq_present, List.map_map]
    refine congrArg List.sum (List.ext_getElem (by simp) fun k h1 h2 => ?_)
    have hk : k < (presentSymbols freq).length := by simpa using h1
    simp [nodeFrequency, toNat_ofNat_ix (show k < 512 by omega), h.leaves k _ (List.getElem?_eq_getElem hk)]
  · intro t l r hc
    exact absurd hc (hleaf t l r)

/-! ## The whole of `BUILD` -/

theorem Growing.mergeLoop {freq : Sparse Freq} (k : Nat) (s : State) (m : Nat) (h : Growing freq s m)
    (hm : m < 2 * (presentSymbols freq).length) (hk : s.pool.length ≤ k + 1) (htot : freqTotal freq < 2 ^ 32) :
    Growing freq (s.mergeLoop k) (2 * (presentSymbols freq).length - 1) := by
  have hle := presentSymbols_length_le freq
  induction k generalizing s m with
  | zero =>
    have hs := h.size
    have hp := List.length_pos_iff.2 (h.pool_ne_nil hm)
    rw [show 2 * (presentSymbols freq).length - 1 = m by omega]
    exact h
  | succ k ih =>
    have hs := h.size
    have hp := List.length_pos_iff.2 (h.pool_ne_nil hm)
    rw [State.mergeLoop]
    split_ifs with h1
    · have h2 := h.mergeOnce (by omega) (by omega) htot
      have hs2 := h2.size
      exact ih _ (m + 1) h2 (by omega) (by omega)
    · rw [show 2 * (presentSymbols freq).length - 1 = m by omega]
      exact h

theorem growing_buildTree (s : State) (hn : s.node = []) (hne : presentSymbols s.freq ≠ [])
    (htot : freqTotal s.freq < 2 ^ 32) : Growing s.freq s.buildTree (2 * (presentSymbols s.freq).length - 1) := by
  have hg := (planted_plantLeaves s hn).growing hne
  have := List.length_pos_iff.2 hne
  exact hg.mergeLoop _ _ _ (by omega) (by omega) htot

/-- One node is left in the pool: the root. -/
theorem Growing.finished {freq : Sparse Freq} {s : State} (h : Growing freq s (2 * (presentSymbols freq).length - 1)) :
    ∃ root, s.pool = [root] ∧ TreeOf freq s.node root ∧ (nodeFrequency s.node root).toNat = freqTotal freq := by
  have hle := presentSymbols_length_le freq
  have hne := h.nonempty
  have hs := h.size
  obtain ⟨root, hroot⟩ := List.length_eq_one_iff.1 (show s.pool.length = 1 by omega)
  have hlast : BitVec.ofNat 9 (2 * (presentSymbols freq).length - 2) ∈ s.pool := by
    refine (h.pool _).2 ⟨?_, fun t ht => ?_⟩
    · rw [toNat_ofNat_ix (by omega)]; omega
    · have := h.child_lt ht
      rw [toNat_ofNat_ix (by omega)] at this
      omega
  have hr : root.toNat = 2 * (presentSymbols freq).length - 2 := by
    rw [hroot, List.mem_singleton] at hlast
    rw [← hlast, toNat_ofNat_ix (by omega)]
  refine ⟨root, hroot, ?_, ?_⟩
  · constructor
    · exact h.indices
    · omega
    · exact h.leaves
    · intro t h1 h2; exact h.internals t h1 (by omega)
    · intro c hc
      have hnot : BitVec.ofNat 9 c ∉ s.pool := by
        rw [hroot, List.mem_singleton]
        intro e
        have := congrArg BitVec.toNat e
        rw [toNat_ofNat_ix (by omega)] at this
        omega
      rw [h.pool, toNat_ofNat_ix (by omega)] at hnot
      simp only [not_and, not_forall, not_not] at hnot
      obtain ⟨t, ht⟩ := hnot (by omega)
      exact ⟨t, ht, fun t' ht' => h.unique c t t' ht ht'⟩
    · exact h.greedy
  · have := h.sum
    rw [hroot] at this
    simpa using this

/-- R101: on an empty arena `BUILD` leaves one node in the pool, and it is the root of the tree of the Frequency Table, its
frequency the sum of all counts (R110). -/
theorem buildTree_spec (s : State) (hn : s.node = []) (hne : presentSymbols s.freq ≠ [])
    (htot : freqTotal s.freq < 2 ^ 32) : ∃ root, s.buildTree.pool = [root] ∧ TreeOf s.freq s.buildTree.node root ∧
      (nodeFrequency s.buildTree.node root).toNat = freqTotal s.freq :=
  (growing_buildTree s hn hne htot).finished

end Sys2Proof.Machine
end

