-- ==== Sys2Proof/Laws/Walk.lean ====
section
/-! SUPPORT. `GENCODES`: the walk over the tree of a Frequency Table writes one code word per leaf, the turns of its path;
these code words form a prefix-free table with full Kraft sum (42_tree_builder.md R107 to R111). -/

namespace Sys2Proof.Machine

/-! ## The tree as a term -/

/-- A code tree as a term, its leaves carrying symbols. -/
inductive Shape where
  | leaf (x : Symbol)
  | node (a b : Shape)

/-- The arena below index `t` is the term. -/
inductive Reifies (node : Sparse Node) : NodeIx → Shape → Prop where
  | leaf {t : NodeIx} {x : Symbol} {f : Freq} {k : NodeIx} (h : Sparse.entry node t.toNat = some (.leaf x f k)) :
      Reifies node t (.leaf x)
  | node {t : NodeIx} {f : Freq} {k l r : NodeIx} {a b : Shape}
      (h : Sparse.entry node t.toNat = some (.internal f k l r)) (ha : Reifies node l a) (hb : Reifies node r b) :
      Reifies node t (.node a b)

namespace Shape

/-- The symbols at the leaves, left to right. -/
def leaves : Shape → List Symbol
  | .leaf x => [x]
  | .node a b => a.leaves ++ b.leaves

/-- The length of the longest path. -/
def depth : Shape → Nat
  | .leaf _ => 0
  | .node a b => max a.depth b.depth + 1

/-- The leaves with their paths. -/
def codes : Shape → List Bool → List (Symbol × List Bool)
  | .leaf x, p => [(x, p)]
  | .node a b, p => a.codes (p ++ [false]) ++ b.codes (p ++ [true])

/-- The path a root starts with: a lone leaf is given the designated bit (R108). -/
def start : Shape → List Bool
  | .leaf _ => [false]
  | .node _ _ => []

/-- The leaves with their paths as sequences. -/
def seqs : Shape → BitSeq → List (Symbol × BitSeq)
  | .leaf x, p => [(x, p)]
  | .node a b, p => a.seqs (p.append false) ++ b.seqs (p.append true)

theorem leaves_pos (s : Shape) : 1 ≤ s.leaves.length := by
  induction s with
  | leaf x => simp [leaves]
  | node a b iha ihb => simp [leaves]; omega

/-- 42_tree_builder.md R111. -/
theorem depth_lt_leaves (s : Shape) : s.depth + 1 ≤ s.leaves.length := by
  induction s with
  | leaf x => simp [leaves, depth]
  | node a b iha ihb =>
    have := a.leaves_pos
    have := b.leaves_pos
    simp only [leaves, depth, List.length_append]
    omega

theorem codes_fst (s : Shape) (p : List Bool) : (s.codes p).map Prod.fst = s.leaves := by
  induction s generalizing p with
  | leaf x => rfl
  | node a b iha ihb => simp [codes, leaves, iha, ihb]

theorem seqs_fst (s : Shape) (p : BitSeq) : (s.seqs p).map Prod.fst = s.leaves := by
  induction s generalizing p with
  | leaf x => rfl
  | node a b iha ihb => simp [seqs, leaves, iha, ihb]

/-- The paths as sequences: their bits are the paths, and their storage is canonical. -/
theorem seqs_spec (s : Shape) (p : BitSeq) (hl : p.len.toNat + s.depth < 2 ^ 32) :
    (s.seqs p).map (fun e => (e.1, e.2.bits)) = s.codes p.bits ∧ (p.wf → ∀ e ∈ s.seqs p, e.2.wf) := by
  induction s generalizing p with
  | leaf x => exact ⟨rfl, fun hp e he => by simp only [seqs, List.mem_singleton] at he; subst he; exact hp⟩
  | node a b iha ihb =>
    simp only [depth] at hl
    have h0 := BitSeq.append_len p false (by omega)
    have h1 := BitSeq.append_len p true (by omega)
    obtain ⟨a1, a2⟩ := iha (p.append false) (by omega)
    obtain ⟨b1, b2⟩ := ihb (p.append true) (by omega)
    rw [BitSeq.bits_append p _ (by omega)] at a1 b1
    refine ⟨by simp [seqs, codes, a1, b1], fun hp e he => ?_⟩
    rcases List.mem_append.1 he with he | he
    · exact a2 (BitSeq.append_wf p false hp (by omega)) e he
    · exact b2 (BitSeq.append_wf p true hp (by omega)) e he

theorem codes_prefix (s : Shape) (p : List Bool) : ∀ e ∈ s.codes p, p <+: e.2 ∧ e.2.length ≤ p.length + s.depth := by
  induction s generalizing p with
  | leaf x => intro e he; simp only [codes, List.mem_singleton] at he; subst he; simp [depth]
  | node a b iha ihb =>
    intro e he
    simp only [depth]
    rcases List.mem_append.1 he with he | he
    · obtain ⟨h1, h2⟩ := iha _ e he
      simp only [List.length_append, List.length_singleton] at h2
      exact ⟨(List.prefix_append _ _).trans h1, by omega⟩
    · obtain ⟨h1, h2⟩ := ihb _ e he
      simp only [List.length_append, List.length_singleton] at h2
      exact ⟨(List.prefix_append _ _).trans h1, by omega⟩

theorem no_common_prefix {p c : List Bool} (h0 : p ++ [false] <+: c) (h1 : p ++ [true] <+: c) : False := by
  have := List.prefix_of_prefix_length_le h0 h1 (by simp)
  have e := this.eq_of_length (by simp)
  simp at e

/-- 42_tree_builder.md R109 (b): distinct leaves have paths that part at a node. -/
theorem codes_prefixFree (s : Shape) (p : List Bool) :
    ∀ d ∈ s.codes p, ∀ e ∈ s.codes p, d.2 <+: e.2 → d = e := by
  induction s generalizing p with
  | leaf x =>
    intro d hd e he _
    simp only [codes, List.mem_singleton] at hd he
    rw [hd, he]
  | node a b iha ihb =>
    intro d hd e he hde
    rcases List.mem_append.1 hd with hd | hd <;> rcases List.mem_append.1 he with he | he
    · exact iha _ d hd e he hde
    · exact (no_common_prefix ((codes_prefix a _ d hd).1.trans hde) (codes_prefix b _ e he).1).elim
    · exact (no_common_prefix (codes_prefix a _ e he).1 ((codes_prefix b _ d hd).1.trans hde)).elim
    · exact ihb _ d hd e he hde

/-- 42_tree_builder.md R109 (d): every internal node has two children. -/
theorem codes_kraft (s : Shape) (p : List Bool) (D : Nat) (h : p.length + s.depth ≤ D) :
    ((s.codes p).map fun e => 2 ^ (D - e.2.length)).sum = 2 ^ (D - p.length) := by
  induction s generalizing p with
  | leaf x => simp [codes]
  | node a b iha ihb =>
    simp only [depth] at h
    rw [codes, List.map_append, List.sum_append, iha _ (by simp; omega), ihb _ (by simp; omega)]
    simp only [List.length_append, List.length_singleton]
    rw [show D - p.length = (D - (p.length + 1)) + 1 by omega, pow_succ]
    omega

end Shape

/-! ## The term below an index -/

/-- Writing a list of entries one by one. -/
def putAll {α : Type} (raw : Sparse α) (l : List (Symbol × α)) : Sparse α :=
  l.foldl (fun raw e => Sparse.put raw e.1.toNat e.2) raw

/-- R107: the walk writes the paths of the term, left to right. -/
theorem walkTree_eq {node : Sparse Node} {t : NodeIx} {s : Shape} (h : Reifies node t s) (fuel : Nat)
    (hf : s.depth < fuel) (path : BitSeq) (raw : Sparse BitSeq) :
    walkTree node fuel t path raw = putAll raw (s.seqs path) := by
  induction h generalizing fuel path raw with
  | leaf h =>
    obtain ⟨k, rfl⟩ : ∃ k, fuel = k + 1 := ⟨fuel - 1, by omega⟩
    simp [walkTree, h, Shape.seqs, putAll]
  | node h ha hb iha ihb =>
    obtain ⟨k, rfl⟩ : ∃ k, fuel = k + 1 := ⟨fuel - 1, by omega⟩
    simp only [Shape.depth] at hf
    rw [walkTree, h]
    simp only
    rw [iha k (by omega), ihb k (by omega)]
    simp [Shape.seqs, putAll, List.foldl_append]

theorem entry_putAll {α : Type} (l : List (Symbol × α)) (hl : (l.map Prod.fst).Nodup) (raw : Sparse α) (x : Symbol) :
    Sparse.entry (putAll raw l) x.toNat =
      match l.find? (fun e => e.1 == x) with
      | some e => some e.2
      | none => Sparse.entry raw x.toNat := by
  induction l generalizing raw with
  | nil => rfl
  | cons e r ih =>
    rw [List.map_cons, List.nodup_cons] at hl
    rw [putAll, List.foldl_cons, ← putAll, ih hl.2, List.find?_cons]
    by_cases he : e.1 = x
    · subst he
      have : r.find? (fun d => d.1 == e.1) = none := by
        rw [List.find?_eq_none]
        intro d hd hde
        exact hl.1 (List.mem_map.2 ⟨d, hd, by simpa using hde⟩)
      simp [this]
    · have h1 : x.toNat ≠ e.1.toNat := fun h => he (BitVec.eq_of_toNat_eq h.symm)
      have h2 : (e.1 == x) = false := by simpa using he
      rw [h2, Sparse.entry_put_ne _ _ h1]

theorem entry_putAll_nil {α : Type} {l : List (Symbol × α)} (hl : (l.map Prod.fst).Nodup) {x : Symbol} {v : α} :
    Sparse.entry (putAll [] l) x.toNat = some v ↔ (x, v) ∈ l := by
  rw [entry_putAll l hl]
  constructor
  · intro h
    cases hf : l.find? (fun e => e.1 == x) with
    | none => simp [hf] at h
    | some e =>
      rw [hf] at h
      have h1 : e.1 = x := by simpa using List.find?_some hf
      have h2 : e.2 = v := by simpa using h
      have := List.mem_of_find?_eq_some hf
      rwa [← h1, ← h2]
  · intro h
    cases hf : l.find? (fun e => e.1 == x) with
    | none => exact absurd (List.find?_eq_none.1 hf _ h) (by simp)
    | some e =>
      have h1 : e.1 = x := by simpa using List.find?_some hf
      have h2 := List.mem_of_find?_eq_some hf
      have : e = (x, v) := by
        have := List.inj_on_of_nodup_map hl h2 h h1
        exact this
      simp [this]

theorem putAll_wf {α : Type} (l : List (Symbol × α)) {raw : Sparse α} (hr : Sparse.wf maxSymbols raw) :
    Sparse.wf maxSymbols (putAll raw l) := by
  induction l generalizing raw with
  | nil => exact hr
  | cons e r ih => exact ih (Sparse.wf_put hr e.1.isLt _)

theorem mem_putAll {α : Type} (l : List (Symbol × α)) {raw : Sparse α} {d : Nat × α} (h : d ∈ putAll raw l) :
    d ∈ raw ∨ ∃ e ∈ l, d.2 = e.2 := by
  induction l generalizing raw with
  | nil => exact Or.inl h
  | cons e r ih =>
    rcases ih h with h1 | ⟨e', he', h1⟩
    · rcases Sparse.mem_put h1 with rfl | h1
      · exact Or.inr ⟨e, List.mem_cons_self, rfl⟩
      · exact Or.inl h1
    · exact Or.inr ⟨e', List.mem_cons_of_mem _ he', h1⟩

/-! ## The tree of a Frequency Table as a term -/

namespace TreeOf

variable {freq : Sparse Freq} {node : Sparse Node} {root : NodeIx}

theorem leaf_or_internal (h : TreeOf freq node root) {t : Nat} (ht : t ≤ root.toNat) :
    (∃ x, (presentSymbols freq)[t]? = some x ∧
      Sparse.entry node t = some (.leaf x (Sparse.read freq x.toNat) (BitVec.ofNat 9 t))) ∨
    ((presentSymbols freq).length ≤ t ∧
      ∃ f l r, Sparse.entry node t = some (.internal f (BitVec.ofNat 9 t) l r) ∧ l.toNat < t ∧ r.toNat < t ∧ l ≠ r) := by
  have := h.rootLast
  by_cases hk : t < (presentSymbols freq).length
  · exact Or.inl ⟨_, List.getElem?_eq_getElem hk, h.leaves t _ (List.getElem?_eq_getElem hk)⟩
  · obtain ⟨f, l, r, e, h1, h2, h3, _⟩ := h.internals t (by omega) (by omega)
    exact Or.inr ⟨by omega, f, l, r, e, h1, h2, h3⟩

theorem exists_shape (h : TreeOf freq node root) (t : NodeIx) (ht : t.toNat ≤ root.toNat) :
    ∃ s, Reifies node t s := by
  generalize hm : t.toNat = m
  induction m using Nat.strong_induction_on generalizing t with
  | _ m ih =>
    rcases h.leaf_or_internal ht with ⟨x, _, e⟩ | ⟨_, f, l, r, e, hl, hr, _⟩
    · exact ⟨_, .leaf e⟩
    · obtain ⟨a, ha⟩ := ih l.toNat (by omega) l (by omega) rfl
      obtain ⟨b, hb⟩ := ih r.toNat (by omega) r (by omega) rfl
      exact ⟨_, .node e ha hb⟩

/-- From a node to its ancestors, itself among them. -/
abbrev Up (node : Sparse Node) : Nat → Nat → Prop := Relation.ReflTransGen (ChildOf node)

theorem childOf_lt (h : TreeOf freq node root) {c t : Nat} (hc : ChildOf node c t) : c < t ∧ t ≤ root.toNat := by
  obtain ⟨l, r, ⟨f, k, e⟩, hlr⟩ := hc
  have hr := h.rootLast
  have ht : t < 2 * (presentSymbols freq).length - 1 := (Sparse.entry_range h.indices t).1 (by simp [e])
  rcases h.leaf_or_internal (t := t) (by omega) with ⟨x, _, e'⟩ | ⟨_, f', l', r', e', h1, h2, _⟩
  · rw [e] at e'; cases e'
  · rw [e] at e'
    simp only [Option.some.injEq, Node.internal.injEq] at e'
    obtain ⟨_, _, rfl, rfl⟩ := e'
    rcases hlr with rfl | rfl
    · exact ⟨h1, by omega⟩
    · exact ⟨h2, by omega⟩

theorem up_le (h : TreeOf freq node root) {c t : Nat} (hu : Up node c t) : c ≤ t := by
  induction hu with
  | refl => exact le_rfl
  | tail _ hc ih => exact ih.trans (h.childOf_lt hc).1.le

theorem rightUnique (h : TreeOf freq node root) : Relator.RightUnique (ChildOf node) := by
  intro c t t' h1 h2
  have h3 := h.childOf_lt h1
  obtain ⟨u, _, hu⟩ := h.owned c (by omega)
  rw [hu t h1, hu t' h2]

theorem up_root (h : TreeOf freq node root) {c : Nat} (hc : c ≤ root.toNat) : Up node c root.toNat := by
  generalize hm : root.toNat - c = m
  induction m using Nat.strong_induction_on generalizing c with
  | _ m ih =>
    by_cases he : c = root.toNat
    · rw [he]
    · obtain ⟨t, ht, _⟩ := h.owned c (by omega)
      have := h.childOf_lt ht
      exact Relation.ReflTransGen.head ht (ih (root.toNat - t) (by omega) this.2 rfl)

/-- A node is not below both children of one node. -/
theorem not_below_both (h : TreeOf freq node root) {t : Nat} {l r : NodeIx} (hc : Children node t l r) (hlr : l ≠ r)
    {k : Nat} (h1 : Up node k l.toNat) (h2 : Up node k r.toNat) : False := by
  have key : ∀ {a b : NodeIx}, ChildOf node a.toNat t → ChildOf node b.toNat t → a ≠ b → ¬ Up node a.toNat b.toNat := by
    intro a b ha hb hab hu
    rcases Relation.ReflTransGen.cases_head hu with e | ⟨c, h3, h4⟩
    · exact hab (BitVec.eq_of_toNat_eq e)
    · rw [h.rightUnique h3 ha] at h4
      have := h.up_le h4
      have := (h.childOf_lt hb).1
      omega
  have hl : ChildOf node l.toNat t := ⟨l, r, hc, Or.inl rfl⟩
  have hr : ChildOf node r.toNat t := ⟨l, r, hc, Or.inr rfl⟩
  rcases Relation.ReflTransGen.total_of_right_unique h.rightUnique h1 h2 with h3 | h3
  · exact key hl hr hlr h3
  · exact key hr hl (Ne.symm hlr) h3

theorem leaf_index (h : TreeOf freq node root) {t : NodeIx} {s : Shape} (hs : Reifies node t s)
    (ht : t.toNat ≤ root.toNat) : ∀ x ∈ s.leaves, ∃ k, (presentSymbols freq)[k]? = some x ∧ Up node k t.toNat := by
  induction hs with
  | @leaf t x f k e =>
    intro y hy
    simp only [Shape.leaves, List.mem_singleton] at hy
    subst hy
    rcases h.leaf_or_internal ht with ⟨x, hx, e'⟩ | ⟨_, _, _, _, e', _⟩
    · rw [e] at e'
      simp only [Option.some.injEq, Node.leaf.injEq] at e'
      rw [← e'.1] at hx
      exact ⟨t.toNat, hx, .refl⟩
    · rw [e] at e'; cases e'
  | @node t f k l r a b e ha hb iha ihb =>
    intro x hx
    have hl : ChildOf node l.toNat t.toNat := ⟨l, r, ⟨f, k, e⟩, Or.inl rfl⟩
    have hr : ChildOf node r.toNat t.toNat := ⟨l, r, ⟨f, k, e⟩, Or.inr rfl⟩
    rcases List.mem_append.1 hx with hx | hx
    · obtain ⟨k, h1, h2⟩ := iha ((h.childOf_lt hl).1.le.trans ht) x hx
      exact ⟨k, h1, h2.tail hl⟩
    · obtain ⟨k, h1, h2⟩ := ihb ((h.childOf_lt hr).1.le.trans ht) x hx
      exact ⟨k, h1, h2.tail hr⟩

theorem leaves_nodup (h : TreeOf freq node root) {t : NodeIx} {s : Shape} (hs : Reifies node t s)
    (ht : t.toNat ≤ root.toNat) : s.leaves.Nodup := by
  induction hs with
  | leaf e => simp [Shape.leaves]
  | @node t f k l r a b e ha hb iha ihb =>
    have hl : ChildOf node l.toNat t.toNat := ⟨l, r, ⟨f, k, e⟩, Or.inl rfl⟩
    have hr : ChildOf node r.toNat t.toNat := ⟨l, r, ⟨f, k, e⟩, Or.inr rfl⟩
    have hl' := (h.childOf_lt hl).1.le.trans ht
    have hr' := (h.childOf_lt hr).1.le.trans ht
    rw [Shape.leaves, List.nodup_append]
    refine ⟨iha hl', ihb hr', fun x hx y hy hxy => ?_⟩
    subst hxy
    obtain ⟨i, h1, h2⟩ := h.leaf_index ha hl' x hx
    obtain ⟨j, h3, h4⟩ := h.leaf_index hb hr' x hy
    have hij : i = j := by
      have hi := (List.getElem?_eq_some_iff.1 h1)
      have hj := (List.getElem?_eq_some_iff.1 h3)
      exact (List.Nodup.getElem_inj_iff (presentSymbols_nodup freq)).1 (hi.2.trans hj.2.symm)
    subst hij
    have hlr : l ≠ r := by
      rcases h.leaf_or_internal ht with ⟨x, _, e'⟩ | ⟨_, _, l', r', e', _, _, hne⟩
      · rw [e] at e'; cases e'
      · rw [e] at e'
        simp only [Option.some.injEq, Node.internal.injEq] at e'
        obtain ⟨_, _, rfl, rfl⟩ := e'
        exact hne
    exact h.not_below_both ⟨f, k, e⟩ hlr h2 h4

theorem mem_leaves (h : TreeOf freq node root) {t : NodeIx} {s : Shape} (hs : Reifies node t s) {k : Nat} {x : Symbol}
    (hx : (presentSymbols freq)[k]? = some x) (hu : Up node k t.toNat) : x ∈ s.leaves := by
  have hleaf := h.leaves k x hx
  induction hs with
  | @leaf t y f j e =>
    rcases Relation.ReflTransGen.cases_tail hu with e' | ⟨c, _, l, r, ⟨f', k', e'⟩, _⟩
    · rw [e', hleaf] at e
      simp only [Option.some.injEq, Node.leaf.injEq] at e
      simp [Shape.leaves, e.1]
    · rw [e] at e'; cases e'
  | @node t f j l r a b e ha hb iha ihb =>
    rw [Shape.leaves, List.mem_append]
    rcases Relation.ReflTransGen.cases_tail hu with e' | ⟨c, hc, l', r', ⟨f', k', e'⟩, hlr⟩
    · rw [e', hleaf] at e; cases e
    · rw [e] at e'
      simp only [Option.some.injEq, Node.internal.injEq] at e'
      obtain ⟨_, _, rfl, rfl⟩ := e'
      rcases hlr with rfl | rfl
      · exact Or.inl (iha hc)
      · exact Or.inr (ihb hc)

theorem leaves_perm (h : TreeOf freq node root) {s : Shape} (hs : Reifies node root s) :
    s.leaves.Perm (presentSymbols freq) := by
  rw [List.perm_ext_iff_of_nodup (h.leaves_nodup hs le_rfl) (presentSymbols_nodup freq)]
  intro x
  constructor
  · intro hx
    obtain ⟨k, hk, _⟩ := h.leaf_index hs le_rfl x hx
    exact List.mem_of_getElem? hk
  · intro hx
    obtain ⟨k, hk⟩ := List.mem_iff_getElem?.1 hx
    have hlt := (List.getElem?_eq_some_iff.1 hk).1
    have := h.rootLast
    exact h.mem_leaves hs hk (h.up_root (by omega))

end TreeOf

theorem descend_codes {node : Sparse Node} {t : NodeIx} {s : Shape} (hs : Reifies node t s) (p : List Bool) :
    ∀ e ∈ s.codes p, ∃ q f k, e.2 = p ++ q ∧ descend node t q = some (.leaf e.1 f k) := by
  induction hs generalizing p with
  | leaf h =>
    intro e he
    simp only [Shape.codes, List.mem_singleton] at he
    subst he
    exact ⟨[], _, _, by simp, h⟩
  | node h ha hb iha ihb =>
    intro e he
    rcases List.mem_append.1 he with he | he
    · obtain ⟨q, f, k, h1, h2⟩ := iha _ e he
      exact ⟨false :: q, f, k, by simp [h1], by simpa [descend, h] using h2⟩
    · obtain ⟨q, f, k, h1, h2⟩ := ihb _ e he
      exact ⟨true :: q, f, k, by simp [h1], by simpa [descend, h] using h2⟩

/-! ## Code tables as lists -/

/-- A table whose code words are the entries of a list with distinct symbols. -/
theorem kraftSum_eq {t : Sparse BitSeq} {l : List (Symbol × List Bool)} (hl : (l.map Prod.fst).Nodup)
    (h : ∀ x c, codeBits t x = some c ↔ (x, c) ∈ l) : kraftSum t = (l.map fun e => 2 ^ (maxCodeLen - e.2.length)).sum := by
  have h1 : ∀ e ∈ l, 2 ^ (maxCodeLen - e.2.length) = match codeBits t e.1 with
      | none => 0
      | some c => 2 ^ (maxCodeLen - c.length) := by
    intro e he
    rw [(h e.1 e.2).2 he]
  have h2 : (l.map fun e => 2 ^ (maxCodeLen - e.2.length)).sum = ((l.map Prod.fst).map fun x => match codeBits t x with
      | none => 0
      | some c => 2 ^ (maxCodeLen - c.length)).sum := by
    rw [List.map_map]
    exact congrArg List.sum (List.map_congr_left h1)
  have h3 : (l.map Prod.fst).Perm (allSymbols.filter fun x => (codeBits t x).isSome) := by
    rw [List.perm_ext_iff_of_nodup hl (allSymbols_nodup.filter _)]
    intro x
    rw [List.mem_filter, Option.isSome_iff_exists, List.mem_map]
    constructor
    · rintro ⟨e, he, rfl⟩
      exact ⟨mem_allSymbols _, e.2, (h e.1 e.2).2 he⟩
    · rintro ⟨_, c, hc⟩
      exact ⟨(x, c), (h x c).1 hc, rfl⟩
  rw [h2, (h3.map _).sum_eq, kraftSum]
  induction allSymbols with
  | nil => rfl
  | cons x l ih =>
    rw [List.map_cons, List.sum_cons, ih, List.filter_cons]
    cases h : codeBits t x <;> simp [h]

/-- The raw codes of a tree: the table is for the symbols of the counts, its storage is canonical, and with two symbols or
more every code word is the path to its leaf; a lone symbol has the designated code (R107, R108, R109). -/
theorem rawCodes_spec {freq : Sparse Freq} {node : Sparse Node} {root : NodeIx} (h : TreeOf freq node root) :
    CodesFor freq (rawCodes node root) ∧ Sparse.wf maxSymbols (rawCodes node root) ∧
      (∀ e ∈ rawCodes node root, e.2.wf) ∧
      ((presentSymbols freq).length = 1 → ∀ x c, codeBits (rawCodes node root) x = some c → c = [false]) ∧
      (2 ≤ (presentSymbols freq).length → ∀ x c, codeBits (rawCodes node root) x = some c →
        ∃ f k, descend node root c = some (.leaf x f k)) := by
  obtain ⟨s, hs⟩ := h.exists_shape root le_rfl
  have hperm := h.leaves_perm hs
  have hlen := hperm.length_eq
  have hle := presentSymbols_length_le freq
  have hdep := s.depth_lt_leaves
  -- the table as a list of paths
  obtain ⟨l, hlist, hfst, hbits, hwf, hkeys⟩ : ∃ l : List (Symbol × BitSeq), rawCodes node root = putAll [] l ∧
      l.map Prod.fst = s.leaves ∧
      (l.map fun e => (e.1, e.2.bits)) = s.codes s.start ∧
      (∀ e ∈ l, e.2.wf) ∧ Sparse.wf maxSymbols (putAll [] l) := by
    cases hs with
    | @leaf _ x f k e =>
      refine ⟨[(x, BitSeq.empty.append false)], by simp [rawCodes, e, putAll], rfl, ?_, ?_, putAll_wf _ (by decide)⟩
      · simp [Shape.codes, Shape.start, BitSeq.bits_append]
      · simp only [List.mem_singleton, forall_eq]
        exact BitSeq.append_wf _ _ BitSeq.empty_wf (by decide)
    | @node _ f k lc rc a b e ha hb =>
      have hd : (Shape.node a b).depth < maxCodeLen + 1 := by simp only [maxCodeLen]; omega
      obtain ⟨s1, s2⟩ := (Shape.node a b).seqs_spec BitSeq.empty (by simp; omega)
      refine ⟨(Shape.node a b).seqs BitSeq.empty, ?_, Shape.seqs_fst _ _, by simpa [Shape.start] using s1, s2 BitSeq.empty_wf,
        putAll_wf _ (by decide)⟩
      rw [← walkTree_eq (.node e ha hb) (maxCodeLen + 1) hd]
      simp [rawCodes, e]
  have hnd : (l.map Prod.fst).Nodup := by rw [hfst]; exact h.leaves_nodup hs le_rfl
  have hcode : ∀ x c, codeBits (rawCodes node root) x = some c ↔ (x, c) ∈ s.codes s.start := by
    intro x c
    rw [codeBits, Option.map_eq_some_iff, ← hbits, List.mem_map]
    constructor
    · rintro ⟨q, hq, rfl⟩
      rw [hlist, entry_putAll_nil hnd] at hq
      exact ⟨_, hq, rfl⟩
    · rintro ⟨⟨y, q⟩, he, heq⟩
      simp only [Prod.mk.injEq] at heq
      obtain ⟨rfl, rfl⟩ := heq
      exact ⟨q, by rw [hlist, entry_putAll_nil hnd]; exact he, rfl⟩
  have hcfst : (s.codes s.start).map Prod.fst = s.leaves := s.codes_fst s.start
  have hcnd : ((s.codes s.start).map Prod.fst).Nodup := by rw [hcfst, ← hfst]; exact hnd
  have hstart : s.start.length + s.depth ≤ maxCodeLen := by
    cases s with
    | leaf x => simp [Shape.start, Shape.depth, maxCodeLen]
    | node a b => simp only [Shape.start, List.length_nil, maxCodeLen]; omega
  refine ⟨⟨?_, ?_, ?_, ?_⟩, hlist ▸ hkeys, ?_, ?_, ?_⟩
  · intro x
    rw [← mem_presentSymbols, ← hperm.mem_iff, ← hcfst, Option.isSome_iff_exists, List.mem_map]
    constructor
    · rintro ⟨c, hc⟩; exact ⟨(x, c), (hcode x c).1 hc, rfl⟩
    · rintro ⟨e, he, rfl⟩; exact ⟨e.2, (hcode _ _).2 he⟩
  · intro x c hc
    obtain ⟨h1, h2⟩ := s.codes_prefix s.start _ ((hcode x c).1 hc)
    refine ⟨?_, h2.trans hstart⟩
    cases s with
    | leaf y => simpa [Shape.start] using h1.length_le
    | node a b =>
      rcases List.mem_append.1 ((hcode x c).1 hc) with he | he
      · simpa using (a.codes_prefix _ _ he).1.length_le.trans' (by simp)
      · simpa using (b.codes_prefix _ _ he).1.length_le.trans' (by simp)
  · intro x y cx cy hx hy hpre
    have := s.codes_prefixFree s.start _ ((hcode x cx).1 hx) _ ((hcode y cy).1 hy) hpre
    exact congrArg Prod.fst this
  · rw [kraftSum_eq hcnd hcode, s.codes_kraft s.start maxCodeLen hstart]
    cases s with
    | leaf x => simp [Shape.leaves] at hlen; simp [Shape.start, ← hlen]
    | node a b =>
      have h1 := a.leaves_pos
      have h2 := b.leaves_pos
      simp only [Shape.leaves, List.length_append] at hlen
      rw [if_neg (by omega)]
      simp [Shape.start]
  · intro e he
    rw [hlist] at he
    rcases mem_putAll l he with h1 | ⟨e', he', h1⟩
    · cases h1
    · rw [h1]; exact hwf e' he'
  · intro h1 x c hc
    cases s with
    | leaf y =>
      have := (hcode x c).1 hc
      simp only [Shape.codes, Shape.start, List.mem_singleton, Prod.mk.injEq] at this
      exact this.2
    | node a b =>
      have h1' := a.leaves_pos
      have h2' := b.leaves_pos
      simp only [Shape.leaves, List.length_append] at hlen
      omega
  · intro h2 x c hc
    obtain ⟨q, f, k, h3, h4⟩ := descend_codes hs s.start _ ((hcode x c).1 hc)
    cases s with
    | leaf y => simp [Shape.leaves] at hlen; omega
    | node a b =>
      simp only [Shape.start, List.nil_append] at h3
      exact ⟨f, k, h3 ▸ h4⟩

/-- The turns to a leaf are among the paths of the walk. -/
theorem mem_codes_of_descend {node : Sparse Node} {t : NodeIx} {s : Shape} (hs : Reifies node t s) (p q : List Bool)
    {x : Symbol} {f : Freq} {k : NodeIx} (h : descend node t q = some (.leaf x f k)) : (x, p ++ q) ∈ s.codes p := by
  induction hs generalizing p q with
  | leaf e =>
    cases q with
    | nil =>
      rw [descend, e] at h
      simp only [Option.some.injEq, Node.leaf.injEq] at h
      simp [Shape.codes, h.1]
    | cons b q => simp [descend, e] at h
  | node e ha hb iha ihb =>
    cases q with
    | nil => rw [descend, e] at h; cases h
    | cons b q =>
      simp only [descend, e] at h
      cases b with
      | false => exact List.mem_append_left _ (by simpa using iha (p ++ [false]) q h)
      | true => exact List.mem_append_right _ (by simpa using ihb (p ++ [true]) q h)

/-- The turns to a leaf are the code of its symbol. -/
theorem rawCodes_of_descend {freq : Sparse Freq} {node : Sparse Node} {root : NodeIx} (h : TreeOf freq node root)
    (h2 : 2 ≤ (presentSymbols freq).length) {x : Symbol} {c : List Bool} {f : Freq} {k : NodeIx}
    (hd : descend node root c = some (.leaf x f k)) : codeBits (rawCodes node root) x = some c := by
  obtain ⟨s, hs⟩ := h.exists_shape root le_rfl
  have hmem := mem_codes_of_descend hs [] c hd
  have hx : x ∈ presentSymbols freq := by
    rw [← (h.leaves_perm hs).mem_iff, ← s.codes_fst []]
    exact List.mem_map_of_mem hmem
  obtain ⟨hc, -, -, -, hall⟩ := rawCodes_spec h
  obtain ⟨d, hcd⟩ := Option.isSome_iff_exists.mp ((hc.symbols x).mpr (mem_presentSymbols.mp hx))
  obtain ⟨f', k', hd'⟩ := hall h2 x d hcd
  have hmem' := mem_codes_of_descend hs [] d hd'
  have hnd : ((s.codes []).map Prod.fst).Nodup := by rw [s.codes_fst]; exact h.leaves_nodup hs le_rfl
  have := List.inj_on_of_nodup_map hnd hmem hmem' rfl
  simp only [List.nil_append, Prod.mk.injEq, true_and] at this
  rw [hcd, this]

end Sys2Proof.Machine
end

