-- ==== Sys2Proof/Laws/Canon.lean ====
section
/-! SUPPORT. `CANON`: the numbering along the sorted list gives every symbol a code of its raw length whose value is the room
taken by the codes before it; the table is prefix-free (43_canonicalizer.md R121 to R125). -/

namespace Sys2Proof.Machine

/-! ## The sorted list -/

theorem keyLe_total (a b : Nat × Symbol) : keyLe a b ∨ keyLe b a := by
  unfold keyLe; omega

theorem keyLe_trans {a b c : Nat × Symbol} (h1 : keyLe a b) (h2 : keyLe b c) : keyLe a c := by
  unfold keyLe at *; omega

theorem codeBits_length {t : Sparse BitSeq} {x : Symbol} {c : List Bool} (h : codeBits t x = some c) :
    ∃ q, Sparse.entry t x.toNat = some q ∧ q.bits = c ∧ q.len.toNat = c.length := by
  obtain ⟨q, h1, h2⟩ := Option.map_eq_some_iff.1 h
  exact ⟨q, h1, h2, by rw [← h2, BitSeq.bits_length]⟩

/-- The codes of a table of the sizes of `StorageInv`. -/
theorem codesFit_of_sizes {t : Sparse BitSeq} (h : ∀ e ∈ t, e.2.len.toNat ≤ maxCodeLen) : CodesFit t := by
  intro x c hc
  obtain ⟨q, h1, -, h3⟩ := codeBits_length hc
  exact h3 ▸ h _ (Sparse.mem_of_entry h1)

theorem CodesFor.fit {freq : Sparse Freq} {t : Sparse BitSeq} (h : CodesFor freq t) : CodesFit t :=
  fun x c hc => (h.lengths x c hc).2

theorem mem_codeLengths {t : Sparse BitSeq} {e : Nat × Symbol} :
    e ∈ codeLengths t ↔ ∃ c, codeBits t e.2 = some c ∧ c.length = e.1 := by
  rw [codeLengths, List.mem_filterMap]
  constructor
  · rintro ⟨x, _, hx⟩
    obtain ⟨q, h1, rfl⟩ := Option.map_eq_some_iff.1 hx
    exact ⟨q.bits, by simp [codeBits, h1], by simp⟩
  · rintro ⟨c, hc, hl⟩
    obtain ⟨q, h1, _, h3⟩ := codeBits_length hc
    exact ⟨e.2, mem_allSymbols _, by simp [h1, h3, hl]⟩

theorem codeLengths_snd (t : Sparse BitSeq) :
    (codeLengths t).map Prod.snd = allSymbols.filter fun x => (codeBits t x).isSome := by
  unfold codeLengths
  induction allSymbols with
  | nil => rfl
  | cons x l ih =>
    rw [List.filterMap_cons, List.filter_cons]
    cases h : Sparse.entry t x.toNat <;> simp [codeBits, h] at ih ⊢ <;> exact ih

theorem codeLengths_sum (t : Sparse BitSeq) (g : Nat → Symbol → Nat) : ((codeLengths t).map fun e => g e.1 e.2).sum =
    (allSymbols.map fun x => match codeBits t x with
      | none => 0
      | some c => g c.length x).sum := by
  unfold codeLengths
  induction allSymbols with
  | nil => rfl
  | cons x l ih =>
    rw [List.filterMap_cons, List.map_cons, List.sum_cons, ← ih]
    cases h : Sparse.entry t x.toNat <;> simp [codeBits, h]

theorem kraftSum_codeLengths (t : Sparse BitSeq) :
    kraftSum t = ((codeLengths t).map fun e => 2 ^ (maxCodeLen - e.1)).sum :=
  (codeLengths_sum t fun L _ => 2 ^ (maxCodeLen - L)).symm

theorem codeLengths_congr {t u : Sparse BitSeq} (h : SameLengths t u) : codeLengths t = codeLengths u := by
  unfold codeLengths
  refine List.filterMap_congr fun x _ => ?_
  have := h x
  simp only [codeBits, Option.map_map] at this
  cases h1 : Sparse.entry t x.toNat <;> cases h2 : Sparse.entry u x.toNat <;> simp_all

theorem sortedLengths_perm (t : Sparse BitSeq) : (sortedLengths t).Perm (codeLengths t) := List.perm_insertionSort _ _

theorem sortedLengths_sorted (t : Sparse BitSeq) : (sortedLengths t).Pairwise keyLe := by
  have : Std.Total keyLe := ⟨keyLe_total⟩
  have : IsTrans _ keyLe := ⟨fun _ _ _ => keyLe_trans⟩
  exact List.pairwise_insertionSort keyLe _

theorem sortedLengths_nodup (t : Sparse BitSeq) : ((sortedLengths t).map Prod.snd).Nodup := by
  rw [((sortedLengths_perm t).map _).nodup_iff, codeLengths_snd]
  exact allSymbols_nodup.filter _

/-! ## The numbering -/

/-- The room the codes of a list take at length `L`. -/
def roomAt (L : Nat) (l : List (Nat × Symbol)) : Nat := (l.map fun d => 2 ^ (L - d.1)).sum

theorem roomAt_raise {C L : Nat} {l : List (Nat × Symbol)} (h : ∀ d ∈ l, d.1 ≤ C) (hCL : C ≤ L) :
    roomAt C l * 2 ^ (L - C) = roomAt L l := by
  induction l with
  | nil => simp [roomAt]
  | cons d r ih =>
    have h1 := ih fun d hd => h d (List.mem_cons_of_mem _ hd)
    have h2 := h d List.mem_cons_self
    simp only [roomAt, List.map_cons, List.sum_cons] at h1 ⊢
    rw [Nat.add_mul, h1, ← pow_add]
    congr 2
    omega

/-- The codes of the symbols of `done` have been assigned. -/
structure Numbered (done : List (Nat × Symbol)) (s : State) : Prop where
  reached : ∀ d ∈ done, d.1 ≤ s.curLen.toNat
  next : s.nextCode = roomAt s.curLen.toNat done
  codes : ∀ pre e post, done = pre ++ e :: post →
    Sparse.entry s.can e.2.toNat = some (BitSeq.ofNat e.1 (roomAt e.1 pre))
  others : ∀ x, x ∉ done.map Prod.snd → Sparse.entry s.can x.toNat = none
  keys : Sparse.wf maxSymbols s.can
  wf : ∀ e ∈ s.can, e.2.wf
  sizes : ∀ e ∈ s.can, e.2.len.toNat ≤ maxCodeLen

theorem Numbered.numberSymbol {done : List (Nat × Symbol)} {s : State} (h : Numbered done s) {e : Nat × Symbol}
    (hle : s.curLen.toNat ≤ e.1) (hnew : e.2 ∉ done.map Prod.snd) (hmax : e.1 ≤ maxCodeLen) :
    Numbered (done ++ [e]) (s.numberSymbol e) ∧ (s.numberSymbol e).curLen.toNat = e.1 := by
  have h32 : e.1 < 2 ^ 32 := hmax.trans_lt (by decide)
  have hcur : (s.raiseLength e.1).curLen.toNat = e.1 := by rw [State.raiseLength_curLen _ hmax]; omega
  have hnext : (s.raiseLength e.1).nextCode = roomAt e.1 done := by
    rw [State.raiseLength_nextCode, h.next, roomAt_raise h.reached hle]
  have hcan : (s.numberSymbol e).can = Sparse.put s.can e.2.toNat (BitSeq.ofNat e.1 (roomAt e.1 done)) := by
    simp [State.numberSymbol, hcur, hnext]
  have hcur' : (s.numberSymbol e).curLen.toNat = e.1 := by simp [State.numberSymbol, hcur]
  refine ⟨⟨?_, ?_, ?_, ?_, ?_, ?_, ?_⟩, hcur'⟩
  · intro d hd
    rw [hcur']
    rcases List.mem_append.1 hd with hd | hd
    · exact (h.reached d hd).trans hle
    · rw [List.mem_singleton.1 hd]
  · rw [hcur']
    simp [State.numberSymbol, hnext, roomAt]
  · intro pre d post hdone
    rw [hcan]
    rcases List.eq_nil_or_concat post with rfl | ⟨post', z, rfl⟩
    · obtain ⟨rfl, rfl⟩ : done = pre ∧ e = d := by
        have := List.append_inj' hdone rfl
        simpa using this
      exact Sparse.entry_put_self _ _ _
    · have h1 : done ++ [e] = (pre ++ d :: post') ++ [z] := by simpa using hdone
      have h2 := (List.append_inj' h1 rfl).1
      have hne : d.2.toNat ≠ e.2.toNat := by
        intro heq
        apply hnew
        rw [← BitVec.eq_of_toNat_eq heq, h2]
        simp
      rw [Sparse.entry_put_ne _ _ hne]
      exact h.codes pre d post' h2
  · intro x hx
    rw [List.map_append, List.mem_append, not_or] at hx
    have hne : x.toNat ≠ e.2.toNat := fun heq => hx.2 (by simp [BitVec.eq_of_toNat_eq heq])
    rw [hcan, Sparse.entry_put_ne _ _ hne]
    exact h.others x hx.1
  · rw [hcan]; exact Sparse.wf_put h.keys e.2.isLt _
  · intro d hd
    rw [hcan] at hd
    rcases Sparse.mem_put hd with rfl | hd
    · exact BitSeq.ofNat_wf _ _ h32
    · exact h.wf d hd
  · intro d hd
    rw [hcan] at hd
    rcases Sparse.mem_put hd with rfl | hd
    · rw [BitSeq.ofNat_len _ _ h32]; exact hmax
    · exact h.sizes d hd

theorem Numbered.foldl (rest done : List (Nat × Symbol)) (s : State) (h : Numbered done s)
    (hs : (rest.map Prod.fst).Pairwise (· ≤ ·)) (hle : ∀ e ∈ rest, s.curLen.toNat ≤ e.1)
    (hnd : ((done ++ rest).map Prod.snd).Nodup) (hmax : ∀ e ∈ rest, e.1 ≤ maxCodeLen) :
    Numbered (done ++ rest) (rest.foldl State.numberSymbol s) := by
  induction rest generalizing done s with
  | nil => simpa using h
  | cons e r ih =>
    rw [List.map_cons, List.pairwise_cons] at hs
    have hnew : e.2 ∉ done.map Prod.snd := by
      intro hmem
      rw [List.map_append, List.map_cons, List.nodup_append] at hnd
      exact hnd.2.2 _ hmem _ List.mem_cons_self rfl
    obtain ⟨h1, h2⟩ := h.numberSymbol (hle e List.mem_cons_self) hnew (hmax e List.mem_cons_self)
    have := ih (done ++ [e]) _ h1 hs.2 (fun d hd => by rw [h2]; exact hs.1 _ (List.mem_map_of_mem hd)) (by simpa using hnd)
      fun d hd => hmax d (List.mem_cons_of_mem _ hd)
    simpa using this

/-- R120: the whole loop numbers the sorted list of a table whose codes have the size of R20. -/
theorem numbered_numberCodes (s : State) (hs : CodesFit s.raw) : Numbered (sortedLengths s.raw) s.numberCodes := by
  have h0 : Numbered [] { s with can := [], nextCode := 0, curLen := 0#8 } := by
    constructor <;> simp [roomAt, Sparse.wf]
  have hsorted : ((sortedLengths s.raw).map Prod.fst).Pairwise (· ≤ ·) := by
    rw [List.pairwise_map]
    exact (sortedLengths_sorted s.raw).imp fun h => by unfold keyLe at h; omega
  have hmax : ∀ e ∈ sortedLengths s.raw, e.1 ≤ maxCodeLen := by
    intro e he
    obtain ⟨c, hc, hl⟩ := mem_codeLengths.1 ((sortedLengths_perm s.raw).mem_iff.1 he)
    exact hl ▸ hs _ c hc
  simpa [State.numberCodes] using
    h0.foldl (sortedLengths s.raw) [] _ hsorted (by simp) (by simpa using sortedLengths_nodup s.raw) hmax

/-! ## The canonical table -/

/-- The code of a symbol of the sorted list, and the symbols before it. -/
theorem numberCodes_code (s : State) (hs : CodesFit s.raw) {x : Symbol} {c : List Bool} (h : codeBits s.raw x = some c) :
    ∃ pre post, sortedLengths s.raw = pre ++ (c.length, x) :: post ∧
      Sparse.entry s.numberCodes.can x.toNat = some (BitSeq.ofNat c.length (roomAt c.length pre)) := by
  have hmem : (c.length, x) ∈ sortedLengths s.raw :=
    (sortedLengths_perm s.raw).mem_iff.2 (mem_codeLengths.2 ⟨c, h, rfl⟩)
  obtain ⟨pre, post, e⟩ := List.append_of_mem hmem
  exact ⟨pre, post, e, (numbered_numberCodes s hs).codes pre _ post e⟩

theorem numberCodes_none (s : State) (hs : CodesFit s.raw) {x : Symbol} (h : codeBits s.raw x = none) :
    Sparse.entry s.numberCodes.can x.toNat = none := by
  refine (numbered_numberCodes s hs).others x fun hmem => ?_
  rw [((sortedLengths_perm s.raw).map _).mem_iff, codeLengths_snd, List.mem_filter, h] at hmem
  simp at hmem

theorem length_lt_of_codeBits {t : Sparse BitSeq} {x : Symbol} {c : List Bool} (h : codeBits t x = some c) :
    c.length < 2 ^ 32 := by
  obtain ⟨q, _, _, h3⟩ := codeBits_length h
  have := q.len.isLt
  omega

/-- R124 (a): lengths are kept. -/
theorem numberCodes_sameLengths (s : State) (hs : CodesFit s.raw) : SameLengths s.raw s.numberCodes.can := by
  intro x
  cases h : codeBits s.raw x with
  | none => simp [codeBits, numberCodes_none s hs h]
  | some c =>
    obtain ⟨pre, post, _, e⟩ := numberCodes_code s hs h
    have := BitSeq.ofNat_len c.length (roomAt c.length pre) (length_lt_of_codeBits h)
    simp [codeBits, e, this]

theorem room_le {L : Nat} {pre : List (Nat × Symbol)} (hpre : ∀ d ∈ pre, d.1 ≤ L) (hL : L ≤ maxCodeLen)
    (h : roomAt maxCodeLen pre + 2 ^ (maxCodeLen - L) ≤ 2 ^ maxCodeLen) : roomAt L pre + 1 ≤ 2 ^ L := by
  have h1 := roomAt_raise hpre hL
  have h2 : 2 ^ L * 2 ^ (maxCodeLen - L) = 2 ^ maxCodeLen := by rw [← pow_add]; congr 1; omega
  have h3 : (roomAt L pre + 1) * 2 ^ (maxCodeLen - L) ≤ 2 ^ L * 2 ^ (maxCodeLen - L) := by
    rw [Nat.add_mul, h1, h2, Nat.one_mul]; exact h
  exact Nat.le_of_mul_le_mul_right h3 (Nat.two_pow_pos _)

theorem roomAt_append (L : Nat) (a b : List (Nat × Symbol)) : roomAt L (a ++ b) = roomAt L a + roomAt L b := by
  simp [roomAt]

/-- Before and after a member of the sorted list. -/
theorem sorted_split {s : State} {pre post : List (Nat × Symbol)} {e : Nat × Symbol}
    (h : sortedLengths s.raw = pre ++ e :: post) : (∀ d ∈ pre, keyLe d e) ∧ ∀ d ∈ post, keyLe e d := by
  have hs := sortedLengths_sorted s.raw
  rw [h, List.pairwise_append, List.pairwise_cons] at hs
  exact ⟨fun d hd => hs.2.2 d hd e List.mem_cons_self, hs.2.1.1⟩

/-- R125: at every rendering the number fits its length. -/
theorem room_lt {s : State} (hk : kraftSum s.raw ≤ 2 ^ maxCodeLen) {pre post : List (Nat × Symbol)} {e : Nat × Symbol}
    (h : sortedLengths s.raw = pre ++ e :: post) (hL : e.1 ≤ maxCodeLen) : roomAt e.1 pre + 1 ≤ 2 ^ e.1 := by
  refine room_le (fun d hd => ?_) hL ?_
  · have := (sorted_split h).1 d hd
    unfold keyLe at this
    omega
  · have h1 : kraftSum s.raw = roomAt maxCodeLen (sortedLengths s.raw) := by
      rw [kraftSum_codeLengths, roomAt]
      exact (((sortedLengths_perm s.raw).map _).sum_eq).symm
    rw [h1, h, roomAt_append] at hk
    simp only [roomAt, List.map_cons, List.sum_cons] at hk ⊢
    omega

/-- The code words of a table whose Kraft sum is at most 1, by value. -/
theorem numberCodes_bits (s : State) (hs : CodesFit s.raw) (hk : kraftSum s.raw ≤ 2 ^ maxCodeLen) {x : Symbol}
    {c : List Bool} (h : codeBits s.raw x = some c) : ∃ pre post d,
      sortedLengths s.raw = pre ++ (c.length, x) :: post ∧ codeBits s.numberCodes.can x = some d ∧
        d.length = c.length ∧ bitsVal d = roomAt c.length pre := by
  obtain ⟨pre, post, h1, h2⟩ := numberCodes_code s hs h
  have h32 := length_lt_of_codeBits h
  refine ⟨pre, post, (BitSeq.ofNat c.length (roomAt c.length pre)).bits, h1, by simp [codeBits, h2], ?_, ?_⟩
  · rw [BitSeq.bits_length, BitSeq.ofNat_len _ _ h32]
  · rw [BitSeq.bits_ofNat _ _ h32, bitsVal_render]
    have := room_lt hk h1 (hs x c h)
    exact Nat.mod_eq_of_lt (by simpa using this)

/-- The room before a symbol is the sum R122 builds up. -/
theorem roomAt_eq_canonicalValue {s : State} {pre post : List (Nat × Symbol)} {L : Nat} {x : Symbol}
    (h : sortedLengths s.raw = pre ++ (L, x) :: post) : roomAt L pre = canonicalValue s.raw L x := by
  have h1 : canonicalValue s.raw L x = ((codeLengths s.raw).map fun e =>
      if e.1 < L ∨ (e.1 = L ∧ e.2.toNat < x.toNat) then 2 ^ (L - e.1) else 0).sum :=
    (codeLengths_sum s.raw fun l y => if l < L ∨ (l = L ∧ y.toNat < x.toNat) then 2 ^ (L - l) else 0).symm
  have hnd := sortedLengths_nodup s.raw
  obtain ⟨hpre, hpost⟩ := sorted_split h
  rw [h, List.map_append, List.map_cons, List.nodup_append] at hnd
  rw [h1, ← (((sortedLengths_perm s.raw).map _).sum_eq), h, List.map_append, List.sum_append, List.map_cons, List.sum_cons]
  have h2 : (pre.map fun e => if e.1 < L ∨ (e.1 = L ∧ e.2.toNat < x.toNat) then 2 ^ (L - e.1) else 0) =
      pre.map fun e => 2 ^ (L - e.1) := by
    refine List.map_congr_left fun d hd => if_pos ?_
    have h3 := hpre d hd
    have h4 : d.2.toNat ≠ x.toNat := fun heq =>
      hnd.2.2 _ (List.mem_map_of_mem hd) _ List.mem_cons_self (BitVec.eq_of_toNat_eq heq)
    unfold keyLe at h3
    simp only at h3
    omega
  have h5 : (post.map fun e => if e.1 < L ∨ (e.1 = L ∧ e.2.toNat < x.toNat) then 2 ^ (L - e.1) else 0).sum = 0 := by
    refine List.sum_eq_zero fun v hv => ?_
    obtain ⟨d, hd, rfl⟩ := List.mem_map.1 hv
    refine if_neg ?_
    have h3 := hpost d hd
    unfold keyLe at h3
    simp only at h3
    omega
  rw [h2, h5]
  simp [roomAt]

/-- A later code word does not begin with an earlier one. -/
theorem not_prefix_of_room {c d : List Bool} {pre mid : List (Nat × Symbol)} {x : Symbol} (hcd : c.length ≤ d.length)
    (hc : bitsVal c = roomAt c.length pre) (hd : bitsVal d = roomAt d.length (pre ++ (c.length, x) :: mid))
    (hpre : ∀ e ∈ pre, e.1 ≤ c.length) : ¬ c <+: d := by
  rintro ⟨q, rfl⟩
  rw [bitsVal_append, hc, roomAt_append, ← roomAt_raise hpre hcd] at hd
  simp only [List.length_append, Nat.add_sub_cancel_left] at hd
  have h1 := bitsVal_lt q
  have h2 : 2 ^ q.length ≤ roomAt (c.length + q.length) ((c.length, x) :: mid) := by
    simp [roomAt]
  omega

/-- The canonical table is a code table for the same symbols (R124), each code word the number R122 gives. -/
theorem numberCodes_spec {freq : Sparse Freq} (s : State) (h : CodesFor freq s.raw) :
    CodesFor freq s.numberCodes.can ∧ SameLengths s.raw s.numberCodes.can ∧
      ∀ x c, codeBits s.raw x = some c → ∃ d, codeBits s.numberCodes.can x = some d ∧ d.length = c.length ∧
        bitsVal d = canonicalValue s.raw c.length x := by
  have hfit := h.fit
  have hsame := numberCodes_sameLengths s hfit
  have hk : kraftSum s.raw ≤ 2 ^ maxCodeLen := by
    rw [h.kraft]
    split_ifs
    · exact Nat.pow_le_pow_right (by norm_num) (by omega)
    · exact le_rfl
  have hback : ∀ x d, codeBits s.numberCodes.can x = some d → ∃ c, codeBits s.raw x = some c ∧ d.length = c.length := by
    intro x d hd
    have := hsame x
    rw [hd] at this
    obtain ⟨c, hc, hl⟩ := Option.map_eq_some_iff.1 this
    exact ⟨c, hc, hl.symm⟩
  have hval : ∀ x c, codeBits s.raw x = some c → ∃ pre post d, sortedLengths s.raw = pre ++ (c.length, x) :: post ∧
      codeBits s.numberCodes.can x = some d ∧ d.length = c.length ∧ bitsVal d = roomAt c.length pre :=
    fun x c hc => numberCodes_bits s hfit hk hc
  refine ⟨⟨?_, ?_, ?_, ?_⟩, hsame, ?_⟩
  · intro x
    rw [← h.symbols x]
    have := congrArg Option.isSome (hsame x)
    simp only [Option.isSome_map] at this
    rw [this]
  · intro x d hd
    obtain ⟨c, hc, hl⟩ := hback x d hd
    rw [hl]
    exact h.lengths x c hc
  · intro x y d e hd he hde
    obtain ⟨c, hc, hl⟩ := hback x d hd
    obtain ⟨c', hc', hl'⟩ := hback y e he
    obtain ⟨pre, post, d', s1, s2, _, s4⟩ := hval x c hc
    obtain ⟨pre', post', e', t1, t2, _, t4⟩ := hval y c' hc'
    rw [hd, Option.some.injEq] at s2
    rw [he, Option.some.injEq] at t2
    subst s2 t2
    rw [← hl] at s1 s4
    rw [← hl'] at t1 t4
    by_contra hxy
    have hle := hde.length_le
    -- one of the two comes first in the sorted list
    have hsplit := s1.symm.trans t1
    rcases List.append_eq_append_iff.1 hsplit with ⟨as, h1, h2⟩ | ⟨bs, h1, h2⟩
    · cases as with
      | nil =>
        simp only [List.nil_append, List.cons.injEq, Prod.mk.injEq] at h2
        exact hxy h2.1.2
      | cons z zs =>
        simp only [List.cons_append, List.cons.injEq] at h2
        obtain ⟨rfl, _⟩ := h2
        rw [h1] at t4
        exact not_prefix_of_room hle s4 t4 (fun d hd => by have := (sorted_split s1).1 d hd; unfold keyLe at this; simp only at this; omega) hde
    · cases bs with
      | nil =>
        simp only [List.nil_append, List.cons.injEq, Prod.mk.injEq] at h2
        exact hxy h2.1.2.symm
      | cons z zs =>
        simp only [List.cons_append, List.cons.injEq] at h2
        obtain ⟨rfl, _⟩ := h2
        have hle' : e.length ≤ d.length := by
          have := (sorted_split s1).1 (e.length, y) (by rw [h1]; simp)
          unfold keyLe at this
          simp only at this
          omega
        have heq : d = e := hde.eq_of_length (by omega)
        rw [h1] at s4
        exact not_prefix_of_room hle' t4 s4 (fun d hd => by have := (sorted_split t1).1 d hd; unfold keyLe at this; simp only at this; omega)
          (heq ▸ List.prefix_refl _)
  · rw [← h.kraft, kraftSum_codeLengths, kraftSum_codeLengths, codeLengths_congr hsame]
  · intro x c hc
    obtain ⟨pre, post, d, h1, h2, h3, h4⟩ := hval x c hc
    exact ⟨d, h2, h3, h4.trans (roomAt_eq_canonicalValue h1)⟩

/-- R121: the canonical table depends on the lengths only. -/
theorem numberCodes_can_congr {s t : State} (h : SameLengths s.raw t.raw) : s.numberCodes.can = t.numberCodes.can := by
  have hl : ∀ (l : List (Nat × Symbol)) (a b : State), a.can = b.can → a.nextCode = b.nextCode → a.curLen = b.curLen →
      (l.foldl State.numberSymbol a).can = (l.foldl State.numberSymbol b).can := by
    intro l
    induction l with
    | nil => exact fun _ _ h _ _ => h
    | cons e l ih =>
      intro a b h1 h2 h3
      refine ih _ _ ?_ ?_ ?_ <;> simp only [State.numberSymbol, State.raiseLength, State.assignCode, h1, h2, h3] <;>
        split <;> simp_all
  simp only [State.numberCodes, sortedLengths, codeLengths_congr h]
  exact hl _ _ _ rfl rfl rfl

/-- The canonical table has the storage form and the sizes of R20. -/
theorem numberCodes_wf (s : State) (hs : CodesFit s.raw) : Sparse.wf maxSymbols s.numberCodes.can ∧
    (∀ e ∈ s.numberCodes.can, e.2.wf) ∧ ∀ e ∈ s.numberCodes.can, e.2.len.toNat ≤ maxCodeLen :=
  ⟨(numbered_numberCodes s hs).keys, (numbered_numberCodes s hs).wf, (numbered_numberCodes s hs).sizes⟩

end Sys2Proof.Machine
end

