-- ==== Sys2Proof/Laws/Decode.lean ====
section
/-! SUPPORT. The command word as its eight fields, and the mask test of each opcode row as a test of fields
(30_encoding.md R61, R62, R65, R66). -/

namespace Sys2Proof

/-- The word with the given fields, `RSV` among them (R61). -/
def fieldsWord (op : BitVec 8) (ka : BitVec 2) (sa : BitVec 8) (kb : BitVec 2) (sb : BitVec 8) (f : BitVec 1)
    (rsv : BitVec 3) (imm : BitVec 32) : Word :=
  (op ++ ka ++ sa ++ kb ++ sb ++ f ++ rsv ++ imm : BitVec 64)

section fields

variable (op : BitVec 8) (ka : BitVec 2) (sa : BitVec 8) (kb : BitVec 2) (sb : BitVec 8) (f : BitVec 1) (rsv : BitVec 3)
  (imm : BitVec 32)

theorem assembleWord_eq : assembleWord op ka sa kb sb f imm = fieldsWord op ka sa kb sb f 0#3 imm := rfl

@[simp] theorem opField_fieldsWord : opField (fieldsWord op ka sa kb sb f rsv imm) = op := by
  refine BitVec.eq_of_getLsbD_eq fun i hi => ?_
  simp only [opField, fieldsWord, BitVec.getLsbD_extractLsb', BitVec.getLsbD_append, hi, decide_true, Bool.true_and]
  grind

@[simp] theorem kaField_fieldsWord : kaField (fieldsWord op ka sa kb sb f rsv imm) = ka := by
  refine BitVec.eq_of_getLsbD_eq fun i hi => ?_
  simp only [kaField, fieldsWord, BitVec.getLsbD_extractLsb', BitVec.getLsbD_append, hi, decide_true, Bool.true_and]
  grind

@[simp] theorem saField_fieldsWord : saField (fieldsWord op ka sa kb sb f rsv imm) = sa := by
  refine BitVec.eq_of_getLsbD_eq fun i hi => ?_
  simp only [saField, fieldsWord, BitVec.getLsbD_extractLsb', BitVec.getLsbD_append, hi, decide_true, Bool.true_and]
  grind

@[simp] theorem kbField_fieldsWord : kbField (fieldsWord op ka sa kb sb f rsv imm) = kb := by
  refine BitVec.eq_of_getLsbD_eq fun i hi => ?_
  simp only [kbField, fieldsWord, BitVec.getLsbD_extractLsb', BitVec.getLsbD_append, hi, decide_true, Bool.true_and]
  grind

@[simp] theorem sbField_fieldsWord : sbField (fieldsWord op ka sa kb sb f rsv imm) = sb := by
  refine BitVec.eq_of_getLsbD_eq fun i hi => ?_
  simp only [sbField, fieldsWord, BitVec.getLsbD_extractLsb', BitVec.getLsbD_append, hi, decide_true, Bool.true_and]
  grind

@[simp] theorem fField_fieldsWord : fField (fieldsWord op ka sa kb sb f rsv imm) = f := by
  refine BitVec.eq_of_getLsbD_eq fun i hi => ?_
  simp only [fField, fieldsWord, BitVec.getLsbD_extractLsb', BitVec.getLsbD_append, hi, decide_true, Bool.true_and]
  grind

@[simp] theorem rsvField_fieldsWord : rsvField (fieldsWord op ka sa kb sb f rsv imm) = rsv := by
  refine BitVec.eq_of_getLsbD_eq fun i hi => ?_
  simp only [rsvField, fieldsWord, BitVec.getLsbD_extractLsb', BitVec.getLsbD_append, hi, decide_true, Bool.true_and]
  grind

@[simp] theorem immField_fieldsWord : immField (fieldsWord op ka sa kb sb f rsv imm) = imm := by
  refine BitVec.eq_of_getLsbD_eq fun i hi => ?_
  simp only [immField, fieldsWord, BitVec.getLsbD_extractLsb', BitVec.getLsbD_append, hi, decide_true, Bool.true_and]
  grind

end fields

/-- A word is its fields. -/
theorem word_eq_fields (w : Word) :
    fieldsWord (opField w) (kaField w) (saField w) (kbField w) (sbField w) (fField w) (rsvField w) (immField w) = w := by
  refine BitVec.eq_of_getLsbD_eq fun i hi => ?_
  simp only [fieldsWord, opField, kaField, saField, kbField, sbField, fField, rsvField, immField,
    BitVec.getLsbD_extractLsb', BitVec.getLsbD_append]
  grind

/-- Words with the same fields are the same word. -/
theorem fieldsWord_inj {op op' : BitVec 8} {ka ka' : BitVec 2} {sa sa' : BitVec 8} {kb kb' : BitVec 2} {sb sb' : BitVec 8}
    {f f' : BitVec 1} {rsv rsv' : BitVec 3} {imm imm' : BitVec 32} :
    fieldsWord op ka sa kb sb f rsv imm = fieldsWord op' ka' sa' kb' sb' f' rsv' imm' ↔
      op = op' ∧ ka = ka' ∧ sa = sa' ∧ kb = kb' ∧ sb = sb' ∧ f = f' ∧ rsv = rsv' ∧ imm = imm' := by
  constructor
  · intro h
    exact ⟨by simpa using congrArg opField h, by simpa using congrArg kaField h, by simpa using congrArg saField h,
      by simpa using congrArg kbField h, by simpa using congrArg sbField h, by simpa using congrArg fField h,
      by simpa using congrArg rsvField h, by simpa using congrArg immField h⟩
  · rintro ⟨rfl, rfl, rfl, rfl, rfl, rfl, rfl, rfl⟩; rfl

theorem fieldsWord_and (op op' : BitVec 8) (ka ka' : BitVec 2) (sa sa' : BitVec 8) (kb kb' : BitVec 2) (sb sb' : BitVec 8)
    (f f' : BitVec 1) (rsv rsv' : BitVec 3) (imm imm' : BitVec 32) :
    fieldsWord op ka sa kb sb f rsv imm &&& fieldsWord op' ka' sa' kb' sb' f' rsv' imm' =
      fieldsWord (op &&& op') (ka &&& ka') (sa &&& sa') (kb &&& kb') (sb &&& sb') (f &&& f') (rsv &&& rsv')
        (imm &&& imm') := by
  refine BitVec.eq_of_getLsbD_eq fun i hi => ?_
  simp only [fieldsWord, BitVec.getLsbD_and, BitVec.getLsbD_append]
  split_ifs <;> rfl

/-- All ones in a field that must be zero, zeros in an operand field. -/
def fieldMask (w : Nat) (operand : Bool) : BitVec w := if operand then 0 else BitVec.allOnes w

theorem and_fieldMask {w : Nat} (x : BitVec w) (b : Bool) : x &&& fieldMask w b = 0 ↔ (b = false → x = 0) := by
  cases b <;> simp [fieldMask]

theorem Opcode.mask_eq (o : Opcode) : o.mask = fieldsWord (BitVec.allOnes 8) (fieldMask 2 o.format.hasKA)
    (fieldMask 8 o.format.hasSA) (fieldMask 2 o.format.hasB) (fieldMask 8 o.format.hasB) (fieldMask 1 o.format.hasF)
    (BitVec.allOnes 3) (fieldMask 32 o.format.hasImm) := by
  cases o <;> decide

theorem Opcode.pattern_eq (o : Opcode) : o.pattern = fieldsWord o.code 0 0 0 0 0 0 0 := by cases o <;> decide

/-- The mask test of a row is a test of fields: the opcode is there, and `RSV` and every field that is no operand is 0. -/
theorem mask_test_iff (o : Opcode) (w : Word) : w &&& o.mask = o.pattern ↔
    opField w = o.code ∧ (o.format.hasKA = false → kaField w = 0) ∧ (o.format.hasSA = false → saField w = 0) ∧
      (o.format.hasB = false → kbField w = 0) ∧ (o.format.hasB = false → sbField w = 0) ∧
      (o.format.hasF = false → fField w = 0) ∧ rsvField w = 0 ∧ (o.format.hasImm = false → immField w = 0) := by
  conv_lhs => rw [← word_eq_fields w, Opcode.mask_eq, Opcode.pattern_eq, fieldsWord_and, fieldsWord_inj]
  simp only [and_fieldMask, BitVec.and_allOnes]

/-! ## Opcodes and selectors -/

theorem Opcode.mem_all (o : Opcode) : o ∈ Opcode.all := by cases o <;> decide

theorem Opcode.ofCode_code (o : Opcode) : Opcode.ofCode o.code = some o := by cases o <;> decide

theorem Opcode.code_inj {o p : Opcode} (h : o.code = p.code) : o = p := by
  have := Opcode.ofCode_code o
  rw [h, Opcode.ofCode_code] at this
  exact (Option.some.inj this).symm

theorem Opcode.code_of_ofCode {c : BitVec 8} {o : Opcode} (h : Opcode.ofCode c = some o) : o.code = c := by
  have := List.find?_some h
  simpa using this

theorem Opcode.ofCode_eq_none {c : BitVec 8} : Opcode.ofCode c = none ↔ ∀ o : Opcode, o.code ≠ c := by
  constructor
  · intro h o ho
    rw [← ho, Opcode.ofCode_code] at h
    cases h
  · intro h
    cases hc : Opcode.ofCode c with
    | none => rfl
    | some o => exact absurd (Opcode.code_of_ofCode hc) (h o)

theorem Selector.ofFields_fields (a : Selector) : Selector.ofFields a.kind a.symbol = .ok a := by
  cases a <;> simp [Selector.ofFields, Selector.kind, Selector.symbol]

theorem Selector.fields_of_ofFields {k : BitVec 2} {s : BitVec 8} {a : Selector} (h : Selector.ofFields k s = .ok a) :
    a.kind = k ∧ a.symbol = s := by
  have hk : ∀ k : BitVec 2, k ≠ 0 → k ≠ 1 → k ≠ 2 → k = 3 := by decide
  unfold Selector.ofFields at h
  split_ifs at h with h1 h2 h3 h4 h5 <;> simp only [Except.ok.injEq] at h <;> subst h <;>
    simp_all [Selector.kind, Selector.symbol]

theorem Selector.ofFields_isOk {k : BitVec 2} {s : BitVec 8} :
    (∃ a, Selector.ofFields k s = .ok a) ↔ (k = 0 ∨ k = 1 → s = 0) := by
  unfold Selector.ofFields
  split_ifs with h1 h2 h3 h4 h5 <;> simp_all

theorem flagOf_ofBool (b : Bool) (op : BitVec 8) (ka : BitVec 2) (sa : BitVec 8) (kb : BitVec 2) (sb : BitVec 8)
    (rsv : BitVec 3) (imm : BitVec 32) : flagOf (fieldsWord op ka sa kb sb (BitVec.ofBool b) rsv imm) = b := by
  cases b <;> simp [flagOf]

theorem ofBool_flagOf (w : Word) : BitVec.ofBool (flagOf w) = fField w := by
  have : ∀ x : BitVec 1, BitVec.ofBool (x == 1#1) = x := by decide
  exact this _

theorem withSelector_ok {e : Except DecodeError Selector} {k : Selector → Except DecodeError Instr} {i : Instr} :
    withSelector e k = .ok i ↔ ∃ a, e = .ok a ∧ k a = .ok i := by
  cases e <;> simp [withSelector]

end Sys2Proof
end

