-- ==== Sys2Proof/Laws/Encode.lean ====
section
/-! SUPPORT. The encoder loop: when it succeeds and what it appends, where it stops and with which error
(44_encoder.md R130 to R134), and the reference decoder on a prefix-free table (R135). -/

namespace Sys2Proof.Machine

theorem codeBits_eq_some {t : Sparse BitSeq} {x : Symbol} {c : List Bool} :
    codeBits t x = some c ↔ ∃ q, Sparse.entry t x.toNat = some q ∧ q.bits = c := by
  simp [codeBits]

theorem codeBits_isSome {t : Sparse BitSeq} {x : Symbol} : (codeBits t x).isSome ↔ (Sparse.entry t x.toNat).isSome := by
  simp [codeBits]

/-! ## The code of a text -/

@[simp] theorem textCode_nil (t : Sparse BitSeq) : textCode t [] = [] := rfl

@[simp] theorem textCode_cons (t : Sparse BitSeq) (b : Byte) (r : List Byte) :
    textCode t (b :: r) = (codeBits t b).getD [] ++ textCode t r := rfl

@[simp] theorem textCode_append (t : Sparse BitSeq) (a b : List Byte) :
    textCode t (a ++ b) = textCode t a ++ textCode t b := by simp [textCode]

/-! ## The loop -/

/-- One byte with a code that fits. -/
theorem encodeText_cons {cap : Nat} {map : Sparse BitSeq} {i : Nat} {acc q : BitSeq} {b : Byte} {r : List Byte}
    (hb : Sparse.entry map b.toNat = some q) (hf : acc.len.toNat + q.len.toNat ≤ cap) :
    encodeText cap map i acc (b :: r) = encodeText cap map (i + 1) (acc.appendSeq q) r := by
  simp [encodeText, hb, Nat.not_lt.mpr hf]

/-- A text that is all coded and fits is appended whole, and the loop goes on after it. -/
theorem encodeText_append {cap : Nat} {map : Sparse BitSeq} (hcap : cap < 2 ^ 32) (pre rest : List Byte) (i : Nat)
    (acc : BitSeq) (hp : AllCoded map pre) (hf : acc.len.toNat + (textCode map pre).length ≤ cap) :
    ∃ q, encodeText cap map i acc (pre ++ rest) = encodeText cap map (i + pre.length) q rest ∧
      q.bits = acc.bits ++ textCode map pre ∧ q.len.toNat = acc.len.toNat + (textCode map pre).length ∧
      (acc.wf → q.wf) := by
  induction pre generalizing i acc with
  | nil => exact ⟨acc, by simp⟩
  | cons b r ih =>
    obtain ⟨c, hc⟩ := Option.isSome_iff_exists.mp (hp b (by simp))
    obtain ⟨p, hpe, rfl⟩ := codeBits_eq_some.mp hc
    simp only [textCode_cons, hc, Option.getD_some, List.length_append, BitSeq.bits_length] at hf
    obtain ⟨h1, h2, h3, -⟩ := BitSeq.appendSeq_spec acc p (by omega)
    obtain ⟨q, e1, e2, e3, e4⟩ := ih (i + 1) (acc.appendSeq p) (fun x hx => hp x (by simp [hx])) (by omega)
    refine ⟨q, ?_, ?_, ?_, fun hw => e4 (h3 hw)⟩
    · rw [List.cons_append, encodeText_cons hpe (by omega), e1, List.length_cons]
      congr 1; omega
    · simp [e2, h1, hc]
    · simp [e3, h2, hc, Nat.add_assoc]

/-- R130: success. -/
theorem encodeText_ok {cap : Nat} {map : Sparse BitSeq} (hcap : cap < 2 ^ 32) {text : List Byte} {acc : BitSeq} (i : Nat)
    (hp : AllCoded map text) (hf : acc.len.toNat + (textCode map text).length ≤ cap) :
    ∃ q, encodeText cap map i acc text = .ok q ∧ q.bits = acc.bits ++ textCode map text ∧
      q.len.toNat = acc.len.toNat + (textCode map text).length ∧ (acc.wf → q.wf) := by
  obtain ⟨q, h, hq⟩ := encodeText_append hcap text [] i acc hp hf
  exact ⟨q, by simpa [encodeText] using h, hq⟩

/-- R132 (b): the first byte with no code. -/
theorem encodeText_unknown {cap : Nat} {map : Sparse BitSeq} (hcap : cap < 2 ^ 32) {pre post : List Byte} {b : Byte}
    {acc : BitSeq} (i : Nat) (hp : AllCoded map pre) (hf : acc.len.toNat + (textCode map pre).length ≤ cap)
    (hb : codeBits map b = none) :
    encodeText cap map i acc (pre ++ b :: post) = .error (.unknownSymbol, BitVec.ofNat 32 (i + pre.length)) := by
  obtain ⟨q, h, -⟩ := encodeText_append hcap pre (b :: post) i acc hp hf
  rw [h]
  have : Sparse.entry map b.toNat = none := by simpa [codeBits] using hb
  simp [encodeText, this]

/-- R134: the first byte whose code does not fit. -/
theorem encodeText_capacity {cap : Nat} {map : Sparse BitSeq} (hcap : cap < 2 ^ 32) {pre post : List Byte} {b : Byte}
    {c : List Bool} {acc : BitSeq} (i : Nat) (hp : AllCoded map pre)
    (hf : acc.len.toNat + (textCode map pre).length ≤ cap) (hb : codeBits map b = some c)
    (hc : cap < acc.len.toNat + (textCode map pre).length + c.length) :
    encodeText cap map i acc (pre ++ b :: post) = .error (.capacity, 0) := by
  obtain ⟨q, h, -, hl, -⟩ := encodeText_append hcap pre (b :: post) i acc hp hf
  obtain ⟨p, hpe, rfl⟩ := codeBits_eq_some.mp hb
  rw [h]
  simp only [BitSeq.bits_length] at hc
  simp [encodeText, hpe, hl, hc]

/-- The loop ends in one of three ways, and the text says which. -/
theorem encodeText_cases {cap : Nat} {map : Sparse BitSeq} (text : List Byte) (n : Nat) (hn : n ≤ cap) :
    (AllCoded map text ∧ n + (textCode map text).length ≤ cap) ∨
    (∃ pre b post, text = pre ++ b :: post ∧ AllCoded map pre ∧ n + (textCode map pre).length ≤ cap ∧
      (codeBits map b = none ∨ ∃ c, codeBits map b = some c ∧ cap < n + (textCode map pre).length + c.length)) := by
  induction text generalizing n with
  | nil => exact .inl ⟨by simp [AllCoded], by simpa using hn⟩
  | cons b r ih =>
    cases hb : codeBits map b with
    | none => exact .inr ⟨[], b, r, rfl, by simp [AllCoded], by simpa using hn, .inl hb⟩
    | some c =>
      by_cases hc : cap < n + c.length
      · exact .inr ⟨[], b, r, rfl, by simp [AllCoded], by simpa using hn, .inr ⟨c, hb, by simpa using hc⟩⟩
      · obtain ⟨h1, h2⟩ | ⟨pre, d, post, h1, h2, h3, h4⟩ := ih (n + c.length) (by omega)
        · refine .inl ⟨?_, by simp [hb]; omega⟩
          intro x hx
          rcases List.mem_cons.mp hx with rfl | hx
          · simp [hb]
          · exact h1 x hx
        · refine .inr ⟨b :: pre, d, post, by simp [h1], ?_, by simp [hb]; omega, ?_⟩
          · intro x hx
            rcases List.mem_cons.mp hx with rfl | hx
            · simp [hb]
            · exact h2 x hx
          · rcases h4 with h4 | ⟨e, h4, h5⟩
            · exact .inl h4
            · exact .inr ⟨e, h4, by simp [hb]; omega⟩

/-- What a success says: the text was all coded, it fits, and the output is its code. -/
theorem encodeText_inv {cap : Nat} {map : Sparse BitSeq} (hcap : cap < 2 ^ 32) {text : List Byte} {acc q : BitSeq} {i : Nat}
    (ha : acc.len.toNat ≤ cap) (h : encodeText cap map i acc text = .ok q) :
    AllCoded map text ∧ acc.len.toNat + (textCode map text).length ≤ cap ∧ q.bits = acc.bits ++ textCode map text ∧
      q.len.toNat = acc.len.toNat + (textCode map text).length ∧ (acc.wf → q.wf) := by
  obtain ⟨h1, h2⟩ | ⟨pre, b, post, rfl, h2, h3, h4 | ⟨c, h4, h5⟩⟩ := encodeText_cases (map := map) text acc.len.toNat ha
  · obtain ⟨p, e, hp⟩ := encodeText_ok hcap i h1 h2
    rw [e] at h
    cases h
    exact ⟨h1, h2, hp⟩
  · rw [encodeText_unknown hcap i h2 h3 h4] at h; cases h
  · rw [encodeText_capacity hcap i h2 h3 h4 h5] at h; cases h

/-- A text of known bytes whose code words do not all fit is a capacity error (44_encoder.md R134). -/
theorem encodeText_overflow {cap : Nat} {map : Sparse BitSeq} (hcap : cap < 2 ^ 32) {text : List Byte}
    (hp : AllCoded map text) (hf : cap < (textCode map text).length) :
    encodeText cap map 0 BitSeq.empty text = .error (.capacity, 0) := by
  obtain ⟨-, h2⟩ | ⟨pre, b, post, rfl, h2, h3, h4 | ⟨c, h4, h5⟩⟩ := encodeText_cases (map := map) text 0 (Nat.zero_le cap)
  · omega
  · have := hp b (by simp)
    simp [h4] at this
  · exact encodeText_capacity hcap 0 h2 (by simpa using h3) h4 (by simpa using h5)

/-- Which errors the loop can end with. -/
theorem encodeText_error {cap : Nat} {map : Sparse BitSeq} {i : Nat} {acc : BitSeq} {text : List Byte} {e : Status}
    {info : Imm} (h : encodeText cap map i acc text = .error (e, info)) :
    e = .unknownSymbol ∨ (e = .capacity ∧ info = 0) := by
  induction text generalizing i acc with
  | nil => simp [encodeText] at h
  | cons b r ih =>
    unfold encodeText at h
    split at h
    · simp only [Except.error.injEq, Prod.mk.injEq] at h; exact .inl h.1.symm
    · split at h
      · simp only [Except.error.injEq, Prod.mk.injEq] at h; exact .inr ⟨h.1.symm, h.2.symm⟩
      · exact ih h

/-- The index in an unknown-symbol error is that of the first byte with no code. -/
theorem encodeText_unknown_index {cap : Nat} {map : Sparse BitSeq} {i : Nat} {acc : BitSeq} {text : List Byte} {info : Imm}
    (h : encodeText cap map i acc text = .error (.unknownSymbol, info)) :
    info = BitVec.ofNat 32 (i + text.findIdx fun b => (codeBits map b).isNone) := by
  induction text generalizing i acc with
  | nil => simp [encodeText] at h
  | cons b r ih =>
    unfold encodeText at h
    split at h
    · next he =>
      have : (codeBits map b).isNone = true := by simp [codeBits, he]
      simp only [Except.error.injEq, Prod.mk.injEq] at h
      rw [List.findIdx_cons, this, ← h.2]; simp
    · next c he =>
      have : (codeBits map b).isNone = false := by simp [codeBits, he]
      split at h
      · simp at h
      · rw [ih h, List.findIdx_cons, this, cond_false]; congr 1; omega

/-! ## The reference decoder -/

/-- On a prefix-free table the next code word is the only candidate. -/
theorem candidates_eq {t : Sparse BitSeq} (ht : PrefixFree t) {x : Symbol} {c : List Bool} (hx : codeBits t x = some c)
    (bs : List Bool) : candidates t (c ++ bs) = [x] := by
  have hmem : ∀ y, y ∈ candidates t (c ++ bs) ↔ y = x := by
    intro y
    simp only [candidates, List.mem_filter, mem_allSymbols, true_and]
    constructor
    · intro hy
      cases hd : codeBits t y with
      | none => simp [hd] at hy
      | some d =>
        simp only [hd, List.isPrefixOf_iff_prefix] at hy
        rcases List.prefix_or_prefix_of_prefix hy (List.prefix_append c bs) with h | h
        · exact ht y x d c hd hx h
        · exact (ht x y c d hx hd h).symm
    · rintro rfl
      simp [hx]
  have hnd : (candidates t (c ++ bs)).Nodup := allSymbols_nodup.filter _
  have := (List.perm_ext_iff_of_nodup hnd (List.nodup_singleton x)).mpr (by simpa using hmem)
  exact List.perm_singleton.mp this

/-- R135: the code of a text decodes to the text. -/
theorem refDecode_textCode {t : Sparse BitSeq} (ht : PrefixFree t)
    (hl : ∀ x c, codeBits t x = some c → 1 ≤ c.length) (text : List Byte) (hp : AllCoded t text) (fuel : Nat)
    (hf : text.length ≤ fuel) : refDecode t fuel (textCode t text) = some text := by
  induction text generalizing fuel with
  | nil => cases fuel <;> simp [refDecode]
  | cons b r ih =>
    obtain ⟨c, hc⟩ := Option.isSome_iff_exists.mp (hp b (by simp))
    cases fuel with
    | zero => simp at hf
    | succ fuel =>
      have hcl := hl b c hc
      simp only [textCode_cons, hc, Option.getD_some]
      cases hcc : c ++ textCode t r with
      | nil => simp at hcc; simp [hcc.1] at hcl
      | cons v vs =>
        rw [refDecode, ← hcc, candidates_eq ht hc]
        · simp only [hc, Option.getD_some, List.drop_left]
          rw [ih (fun x hx => hp x (by simp [hx])) fuel (by simpa using hf)]
          simp
        · simp

end Sys2Proof.Machine
end

