-- ==== Sys2Proof/Laws/Operands.lean ====
section
/-! SUPPORT. What the shared operations of a command can answer: ending, taking a payload, the stage check, and resolving
one or two selectors (41_bit_sequence.md R92). -/

namespace Sys2Proof.Machine

/-! ## Stages -/

theorem Stage.code_lt (st : Stage) : st.code.toNat < 6 := by cases st <;> decide

theorem Stage.code_inj {a b : Stage} (h : a.code.toNat = b.code.toNat) : a = b := by
  cases a <;> cases b <;> first | rfl | (exact absurd h (by decide))

theorem Stage.atLeast_iff (st : Stage) (n : Nat) : st.atLeast n = true ↔ n ≤ st.code.toNat := by simp [Stage.atLeast]

theorem Stage.encoded_iff (st : Stage) : st = .encoded ↔ 5 ≤ st.code.toNat := by cases st <;> decide

/-! ## Ending a command -/

theorem ok_eq (res : Imm) (chars : List Byte) (s : State) :
    ok res chars s = .next { s with responses := ⟨.ok, res, chars⟩ :: s.responses } := rfl

theorem raise_eq (e : Status) (info : Imm) (s : State) :
    raise e info s = .next { s with responses := ⟨e, info, []⟩ :: s.responses } := rfl

/-! ## The payload and the stage check -/

theorem withText_of_supplied {n : Imm} {s : State} (h : n.toNat ≤ s.tin.length) (k : List Byte → State → Outcome) :
    withText n s k = k (s.tin.take n.toNat) { s with tin := s.tin.drop n.toNat } := by simp [withText, h]

theorem withText_of_withheld {n : Imm} {s : State} (h : s.tin.length < n.toNat) (k : List Byte → State → Outcome) :
    withText n s k = .fault .payloadWithheld := by simp [withText, Nat.not_le.mpr h]

theorem withText_next {n : Imm} {s t : State} {k : List Byte → State → Outcome} (h : withText n s k = .next t) :
    n.toNat ≤ s.tin.length ∧ k (s.tin.take n.toNat) { s with tin := s.tin.drop n.toNat } = .next t := by
  unfold withText at h
  split at h
  · exact ⟨‹_›, h⟩
  · cases h

theorem atStage_pass {want : Stage} {s : State} (h : s.stage = want) (k : State → Outcome) :
    atStage want s k = k s := by simp [atStage, h]

theorem atStage_fail {want : Stage} {s : State} (h : s.stage ≠ want) (k : State → Outcome) :
    atStage want s k = raise .usageOrder 0 s := by simp [atStage, h]

/-! ## Selectors -/

/-- A selector is too early, absent, or denotes a sequence. -/
theorem selector_cases (s : State) (a : Selector) : TooEarly s a ∨ Absent s a ∨ ∃ q, ResolvesTo s q a := by
  cases a with
  | scr => exact .inr (.inr ⟨_, rfl⟩)
  | out =>
    by_cases h : s.stage = .encoded
    · exact .inr (.inr ⟨_, h, rfl⟩)
    · exact .inl h
  | raw x =>
    by_cases h : s.stage.code.toNat < 3
    · exact .inl h
    · cases hx : Sparse.entry s.raw x.toNat with
      | none => exact .inr (.inl ⟨by omega, hx⟩)
      | some q => exact .inr (.inr ⟨q, by omega, hx⟩)
  | can x =>
    by_cases h : s.stage.code.toNat < 4
    · exact .inl h
    · cases hx : Sparse.entry s.can x.toNat with
      | none => exact .inr (.inl ⟨by omega, hx⟩)
      | some q => exact .inr (.inr ⟨q, by omega, hx⟩)

theorem stagePasses_iff (s : State) (a : Selector) : stagePasses s.stage a = true ↔ ¬ TooEarly s a := by
  cases a <;> simp [stagePasses, TooEarly, Stage.atLeast_iff, Stage.encoded_iff]

theorem not_tooEarly_of_absent {s : State} {a : Selector} (h : Absent s a) : ¬ TooEarly s a := by
  cases a <;> simp_all [Absent, TooEarly]

theorem not_tooEarly_of_resolves {s : State} {q : BitSeq} {a : Selector} (h : ResolvesTo s q a) : ¬ TooEarly s a := by
  cases a <;> simp_all [ResolvesTo, TooEarly]

theorem denote_of_absent {s : State} {a : Selector} (h : Absent s a) : denote s a = none := by
  cases a <;> simp_all [Absent, denote]

theorem denote_of_resolves {s : State} {q : BitSeq} {a : Selector} (h : ResolvesTo s q a) : denote s a = some q := by
  cases a <;> simp_all [ResolvesTo, denote]

theorem resolves_unique {s : State} {q p : BitSeq} {a : Selector} (h : ResolvesTo s q a) (h' : ResolvesTo s p a) :
    q = p := Option.some.inj ((denote_of_resolves h).symm.trans (denote_of_resolves h'))

theorem withSeq_tooEarly {s : State} {a : Selector} (h : TooEarly s a) (k : BitSeq → Outcome) :
    withSeq a s k = raise .usageOrder 0 s := by
  have := mt (stagePasses_iff s a).mp (not_not.mpr h)
  simp [withSeq, this]

theorem withSeq_absent {s : State} {a : Selector} (h : Absent s a) (k : BitSeq → Outcome) :
    withSeq a s k = raise .unknownSymbol 0 s := by
  have := (stagePasses_iff s a).mpr (not_tooEarly_of_absent h)
  simp [withSeq, this, withPresent, denote_of_absent h]

theorem withSeq_resolves {s : State} {q : BitSeq} {a : Selector} (h : ResolvesTo s q a) (k : BitSeq → Outcome) :
    withSeq a s k = k q := by
  have := (stagePasses_iff s a).mpr (not_tooEarly_of_resolves h)
  simp [withSeq, this, withPresent, denote_of_resolves h]

theorem withSeqs_tooEarly {s : State} {a b : Selector} (h : TooEarly s a ∨ TooEarly s b) (k : BitSeq → BitSeq → Outcome) :
    withSeqs a b s k = raise .usageOrder 0 s := by
  have ha := stagePasses_iff s a
  have hb := stagePasses_iff s b
  rcases h with h | h <;> simp_all [withSeqs]

theorem withSeqs_absent {s : State} {a b : Selector} (ha : ¬ TooEarly s a) (hb : ¬ TooEarly s b)
    (h : Absent s a ∨ Absent s b) (k : BitSeq → BitSeq → Outcome) :
    withSeqs a b s k = raise .unknownSymbol 0 s := by
  have ha' := (stagePasses_iff s a).mpr ha
  have hb' := (stagePasses_iff s b).mpr hb
  simp only [withSeqs, ha', hb', Bool.and_self, if_true, withPresent]
  rcases h with h | h
  · simp [denote_of_absent h]
  · cases hq : denote s a <;> simp [denote_of_absent h]

theorem withSeqs_resolves {s : State} {q p : BitSeq} {a b : Selector} (ha : ResolvesTo s q a) (hb : ResolvesTo s p b)
    (k : BitSeq → BitSeq → Outcome) : withSeqs a b s k = k q p := by
  have ha' := (stagePasses_iff s a).mpr (not_tooEarly_of_resolves ha)
  have hb' := (stagePasses_iff s b).mpr (not_tooEarly_of_resolves hb)
  simp [withSeqs, ha', hb', withPresent, denote_of_resolves ha, denote_of_resolves hb]

end Sys2Proof.Machine
end

