-- ==== Sys2Proof/Laws/Exec.lean ====
section
/-! SUPPORT. What a command can do, said once: a command whose payload is delivered answers a next state, which is either its
error's or that of its effect, and the effect of each command is a record update. -/

namespace Sys2Proof.Machine

/-- The state after a command has consumed its payload. -/
def fed (i : Instr) (s : State) : State := { s with tin := s.tin.drop (Instr.textLength i) }

/-- `t` is what the effect of command `i` leaves of `s`, and `s` passes the checks of the command. -/
def Effect (s t : State) : Instr → Prop
  | .newsession => t = s.clearSession.respond .ok 0 []
  | .rdstage => t = s.respond .ok (s.stage.code.setWidth 32) []
  | .rdfreq x => 1 ≤ s.stage.code.toNat ∧ t = s.respond .ok (Sparse.read s.freq x.toNat) []
  | .count n => s.stage = .empty ∧ t = State.respond { s with
      tin := s.tin.drop n.toNat
      freq := countText (s.tin.take n.toNat)
      nsym := BitVec.ofNat 9 (presentSymbols (countText (s.tin.take n.toNat))).length
      stage := .frequenciesCounted } .ok 0 []
  | .build => s.stage = .frequenciesCounted ∧ s.nsym ≠ 0 ∧ t = State.respond { s with
      node := s.buildTree.node
      root := s.buildTree.pool.headD 0
      stage := .treeBuilt
      tie := 0#9
      pool := [] } .ok 0 []
  | .gencodes => s.stage = .treeBuilt ∧ t = State.respond { s with
      raw := rawCodes s.node s.root
      node := []
      root := 0#9
      stage := .rawCodesGenerated } .ok 0 []
  | .canon => s.stage = .rawCodesGenerated ∧ t = State.respond { s with
      can := s.numberCodes.can
      stage := .canonicalCodesGenerated
      nextCode := 0
      curLen := 0#8 } .ok 0 []
  | .encode f n => s.stage = .canonicalCodesGenerated ∧ ∃ q,
      encodeText s.cfg.outCapBits.toNat (s.codeMap f) 0 BitSeq.empty (s.tin.take n.toNat) = .ok q ∧
      t = State.respond { s with tin := s.tin.drop n.toNat, out := q, stage := .encoded } .ok 0 []
  | .bsclr => t = State.respond { s with scr := BitSeq.empty } .ok 0 []
  | .bsappb b => s.scr.len.toNat + 1 ≤ s.cfg.scrCapBits.toNat ∧
      t = State.respond { s with scr := s.scr.append b } .ok 0 []
  | .bsapps a => a ≠ .scr ∧ ∃ q, ResolvesTo s q a ∧ s.scr.len.toNat + q.len.toNat ≤ s.cfg.scrCapBits.toNat ∧
      t = State.respond { s with scr := s.scr.appendSeq q } .ok 0 []
  | .bsbit a i => ∃ q, ResolvesTo s q a ∧ t = s.respond .ok (if q.bitAt i.toNat then 1 else 0) []
  | .bslen a => ∃ q, ResolvesTo s q a ∧ t = s.respond .ok q.len []
  | .bsbytes a => ∃ q, ResolvesTo s q a ∧ t = s.respond .ok (BitVec.ofNat 32 q.byteCount) []
  | .bsbin a => ∃ q, ResolvesTo s q a ∧ t = s.respond .ok q.len (q.bits.map bitChar)
  | .bshex a limit => ∃ q, ResolvesTo s q a ∧ t = s.respond .ok (BitVec.ofNat 32 (2 * min limit.toNat q.byteCount))
      ((List.range (min limit.toNat q.byteCount)).flatMap fun k => hexPair (q.byteAt k))
  | .bseq a b => ∃ q p, ResolvesTo s q a ∧ ResolvesTo s p b ∧ t = s.respond .ok (if q.same p then 1 else 0) []

/-- `t` is what an error of command `i` leaves of `s` (60_exceptions.md R156); only `ENCODE` has a `RES` with an error, the index
of a byte with no code (30_encoding.md R73). -/
def Failed (i : Instr) (s t : State) : Prop := ∃ e info, e ≠ .ok ∧
  (info = 0 ∨ (∃ f n, i = .encode f n) ∧ e = .unknownSymbol) ∧ t = (fed i s).respond e info []

theorem fed_of_no_text {i : Instr} {s : State} (h : Instr.textLength i = 0) : fed i s = s := by
  cases s; simp [fed, h]

/-- A command on one selector. -/
theorem withSeq_next {i : Instr} {a : Selector} {s t : State} {k : BitSeq → Outcome} (hi : Instr.textLength i = 0)
    (h : withSeq a s k = .next t) : Failed i s t ∨ ∃ q, ResolvesTo s q a ∧ k q = .next t := by
  rcases selector_cases s a with ha | ha | ⟨q, ha⟩
  · rw [withSeq_tooEarly ha] at h
    exact .inl ⟨.usageOrder, 0, by decide, .inl rfl, by rw [fed_of_no_text hi]; cases h; rfl⟩
  · rw [withSeq_absent ha] at h
    exact .inl ⟨.unknownSymbol, 0, by decide, .inl rfl, by rw [fed_of_no_text hi]; cases h; rfl⟩
  · rw [withSeq_resolves ha] at h
    exact .inr ⟨q, ha, h⟩

/-- A stage command. -/
theorem atStage_next {want : Stage} {s t : State} {k : State → Outcome} (h : atStage want s k = .next t) :
    t = s.respond .usageOrder 0 [] ∨ (s.stage = want ∧ k s = .next t) := by
  by_cases hs : s.stage = want
  · rw [atStage_pass hs] at h
    exact .inr ⟨hs, h⟩
  · rw [atStage_fail hs] at h
    exact .inl (by cases h; rfl)

/-- What a command can answer when it answers a next state. -/
theorem exec_next {i : Instr} {s t : State} (h : exec i s = .next t) : Supplied i s ∧ (Failed i s t ∨ Effect s t i) := by
  cases i with
  | newsession => exact ⟨Nat.zero_le _, .inr (by cases h; rfl)⟩
  | rdstage => exact ⟨Nat.zero_le _, .inr (by cases h; rfl)⟩
  | rdfreq x =>
    refine ⟨Nat.zero_le _, ?_⟩
    simp only [exec, execRdfreq] at h
    split at h
    · exact .inr ⟨(Stage.atLeast_iff _ _).mp ‹_›, by cases h; rfl⟩
    · exact .inl ⟨.usageOrder, 0, by decide, .inl rfl, by cases h; rfl⟩
  | count n =>
    simp only [exec, execCount] at h
    obtain ⟨hn, h⟩ := withText_next h
    refine ⟨hn, ?_⟩
    rcases atStage_next h with h | ⟨hs, h⟩
    · exact .inl ⟨_, _, by decide, .inl rfl, h⟩
    · exact .inr ⟨hs, by cases h; rfl⟩
  | build =>
    refine ⟨Nat.zero_le _, ?_⟩
    simp only [exec, execBuild] at h
    rcases atStage_next h with h | ⟨hs, h⟩
    · exact .inl ⟨_, _, by decide, .inl rfl, h⟩
    · split at h
      · exact .inl ⟨.emptyInput, 0, by decide, .inl rfl, by cases h; rfl⟩
      · exact .inr ⟨hs, ‹_›, by cases h; rfl⟩
  | gencodes =>
    refine ⟨Nat.zero_le _, ?_⟩
    simp only [exec, execGencodes] at h
    rcases atStage_next h with h | ⟨hs, h⟩
    · exact .inl ⟨_, _, by decide, .inl rfl, h⟩
    · exact .inr ⟨hs, by cases h; rfl⟩
  | canon =>
    refine ⟨Nat.zero_le _, ?_⟩
    simp only [exec, execCanon] at h
    rcases atStage_next h with h | ⟨hs, h⟩
    · exact .inl ⟨_, _, by decide, .inl rfl, h⟩
    · exact .inr ⟨hs, by cases h; rfl⟩
  | encode f n =>
    simp only [exec, execEncode] at h
    obtain ⟨hn, h⟩ := withText_next h
    refine ⟨hn, ?_⟩
    rcases atStage_next h with h | ⟨hs, h⟩
    · exact .inl ⟨_, _, by decide, .inl rfl, h⟩
    · obtain ⟨⟨e, info⟩, he⟩ | ⟨q, hq⟩ : (∃ x, encodeText s.cfg.outCapBits.toNat (s.codeMap f) 0 BitSeq.empty
          (s.tin.take n.toNat) = .error x) ∨ ∃ q, encodeText s.cfg.outCapBits.toNat (s.codeMap f) 0 BitSeq.empty
          (s.tin.take n.toNat) = .ok q := by
        cases encodeText s.cfg.outCapBits.toNat (s.codeMap f) 0 BitSeq.empty (s.tin.take n.toNat) <;> simp
      · have h : raise e info (fed (.encode f n) s) = .next t := by
          rw [State.codeMap] at he
          simpa only [fed, Instr.textLength, State.codeMap, he] using h
        have hcases := encodeText_error he
        refine .inl ⟨e, info, ?_, hcases.symm.imp And.right fun h => ⟨⟨f, n, rfl⟩, h⟩, by cases h; rfl⟩
        rcases hcases with h' | ⟨h', -⟩ <;> subst h' <;> decide
      · have h : ok 0 [] { fed (.encode f n) s with out := q, stage := .encoded } = .next t := by
          rw [State.codeMap] at hq
          simpa only [fed, Instr.textLength, State.codeMap, hq] using h
        exact .inr ⟨hs, q, hq, by cases h; rfl⟩
  | bsclr => exact ⟨Nat.zero_le _, .inr (by cases h; rfl)⟩
  | bsappb b =>
    refine ⟨Nat.zero_le _, ?_⟩
    simp only [exec, execBsappb] at h
    split at h
    · exact .inl ⟨.capacity, 0, by decide, .inl rfl, by cases h; rfl⟩
    · exact .inr ⟨by omega, by cases h; rfl⟩
  | bsapps a =>
    refine ⟨Nat.zero_le _, ?_⟩
    simp only [exec, execBsapps] at h
    split at h
    · exact .inl ⟨.illegalCommand, 0, by decide, .inl rfl, by cases h; rfl⟩
    · rcases withSeq_next (i := .bsapps a) rfl h with h | ⟨q, hq, h⟩
      · exact .inl h
      · split at h
        · exact .inl ⟨.capacity, 0, by decide, .inl rfl, by cases h; rfl⟩
        · exact .inr ⟨‹_›, q, hq, by omega, by cases h; rfl⟩
  | bsbit a i =>
    refine ⟨Nat.zero_le _, ?_⟩
    rcases withSeq_next (i := .bsbit a i) rfl h with h | ⟨q, hq, h⟩
    · exact .inl h
    · exact .inr ⟨q, hq, by cases h; rfl⟩
  | bslen a =>
    refine ⟨Nat.zero_le _, ?_⟩
    rcases withSeq_next (i := .bslen a) rfl h with h | ⟨q, hq, h⟩
    · exact .inl h
    · exact .inr ⟨q, hq, by cases h; rfl⟩
  | bsbytes a =>
    refine ⟨Nat.zero_le _, ?_⟩
    rcases withSeq_next (i := .bsbytes a) rfl h with h | ⟨q, hq, h⟩
    · exact .inl h
    · exact .inr ⟨q, hq, by cases h; rfl⟩
  | bsbin a =>
    refine ⟨Nat.zero_le _, ?_⟩
    rcases withSeq_next (i := .bsbin a) rfl h with h | ⟨q, hq, h⟩
    · exact .inl h
    · exact .inr ⟨q, hq, by cases h; rfl⟩
  | bshex a limit =>
    refine ⟨Nat.zero_le _, ?_⟩
    rcases withSeq_next (i := .bshex a limit) rfl h with h | ⟨q, hq, h⟩
    · exact .inl h
    · exact .inr ⟨q, hq, by cases h; rfl⟩
  | bseq a b =>
    refine ⟨Nat.zero_le _, ?_⟩
    simp only [exec, execBseq] at h
    have hf : fed (.bseq a b) s = s := fed_of_no_text rfl
    rcases selector_cases s a with ha | ha | ⟨q, ha⟩
    · rw [withSeqs_tooEarly (.inl ha)] at h
      exact .inl ⟨.usageOrder, 0, by decide, .inl rfl, by rw [hf]; cases h; rfl⟩
    · by_cases hb : TooEarly s b
      · rw [withSeqs_tooEarly (.inr hb)] at h
        exact .inl ⟨.usageOrder, 0, by decide, .inl rfl, by rw [hf]; cases h; rfl⟩
      · rw [withSeqs_absent (not_tooEarly_of_absent ha) hb (.inl ha)] at h
        exact .inl ⟨.unknownSymbol, 0, by decide, .inl rfl, by rw [hf]; cases h; rfl⟩
    · rcases selector_cases s b with hb | hb | ⟨p, hb⟩
      · rw [withSeqs_tooEarly (.inr hb)] at h
        exact .inl ⟨.usageOrder, 0, by decide, .inl rfl, by rw [hf]; cases h; rfl⟩
      · rw [withSeqs_absent (not_tooEarly_of_resolves ha) (not_tooEarly_of_absent hb) (.inr hb)] at h
        exact .inl ⟨.unknownSymbol, 0, by decide, .inl rfl, by rw [hf]; cases h; rfl⟩
      · rw [withSeqs_resolves ha hb] at h
        exact .inr ⟨q, p, ha, hb, by cases h; rfl⟩

theorem withSeq_answers (a : Selector) (s : State) {k : BitSeq → Outcome} (hk : ∀ q, ∃ t, k q = .next t) :
    ∃ t, withSeq a s k = .next t := by
  rcases selector_cases s a with ha | ha | ⟨q, ha⟩
  · exact ⟨_, withSeq_tooEarly ha k⟩
  · exact ⟨_, withSeq_absent ha k⟩
  · rw [withSeq_resolves ha]; exact hk q

theorem atStage_answers (want : Stage) (s : State) {k : State → Outcome} (hk : ∃ t, k s = .next t) :
    ∃ t, atStage want s k = .next t := by
  unfold atStage
  split
  · exact hk
  · exact ⟨_, rfl⟩

/-- A command whose payload is delivered never stops. -/
theorem exec_of_supplied {i : Instr} {s : State} (h : Supplied i s) : ∃ t, exec i s = .next t := by
  cases i with
  | newsession => exact ⟨_, rfl⟩
  | rdstage => exact ⟨_, rfl⟩
  | rdfreq x => simp only [exec, execRdfreq]; split <;> exact ⟨_, rfl⟩
  | count n =>
    simp only [exec, execCount]
    rw [withText_of_supplied h]
    exact atStage_answers _ _ ⟨_, rfl⟩
  | build =>
    simp only [exec, execBuild]
    refine atStage_answers _ _ ?_
    split <;> exact ⟨_, rfl⟩
  | gencodes => simp only [exec, execGencodes]; exact atStage_answers _ _ ⟨_, rfl⟩
  | canon => simp only [exec, execCanon]; exact atStage_answers _ _ ⟨_, rfl⟩
  | encode f n =>
    simp only [exec, execEncode]
    rw [withText_of_supplied h]
    refine atStage_answers _ _ ?_
    dsimp only
    split <;> exact ⟨_, rfl⟩
  | bsclr => exact ⟨_, rfl⟩
  | bsappb b => simp only [exec, execBsappb]; split <;> exact ⟨_, rfl⟩
  | bsapps a =>
    simp only [exec, execBsapps]
    split
    · exact ⟨_, rfl⟩
    · refine withSeq_answers _ _ fun q => ?_
      split <;> exact ⟨_, rfl⟩
  | bsbit a i => exact withSeq_answers _ _ fun q => ⟨_, rfl⟩
  | bslen a => exact withSeq_answers _ _ fun q => ⟨_, rfl⟩
  | bsbytes a => exact withSeq_answers _ _ fun q => ⟨_, rfl⟩
  | bsbin a => exact withSeq_answers _ _ fun q => ⟨_, rfl⟩
  | bshex a limit => exact withSeq_answers _ _ fun q => ⟨_, rfl⟩
  | bseq a b =>
    simp only [exec, execBseq, withSeqs, withPresent]
    split
    · split
      · exact ⟨_, rfl⟩
      · split <;> exact ⟨_, rfl⟩
    · exact ⟨_, rfl⟩

/-- A command whose payload is delivered gives one response and consumes its payload, and then either it failed and nothing else
changed, or it has had its effect. -/
theorem exec_responds {i : Instr} {s : State} (hs : Supplied i s) : ∃ t r, exec i s = .next t ∧
    t.responses = r :: s.responses ∧ t.tin = s.tin.drop (Instr.textLength i) ∧
    ((r.status ≠ .ok ∧ r.chars = [] ∧ (r.res = 0 ∨ (∃ f n, i = .encode f n) ∧ r.status = .unknownSymbol) ∧
        t = { s with tin := s.tin.drop (Instr.textLength i), responses := r :: s.responses }) ∨
      (r.status = .ok ∧ Effect s t i)) := by
  obtain ⟨t, ht⟩ := exec_of_supplied hs
  obtain ⟨-, ⟨e, info, he, hi, h⟩ | h⟩ := exec_next ht
  · exact ⟨t, ⟨e, info, []⟩, ht, by rw [h]; rfl, by rw [h]; rfl, .inl ⟨he, rfl, hi, by rw [h]; rfl⟩⟩
  · have hE := h
    cases i
    case newsession | rdstage | bsclr => exact ⟨t, _, ht, by rw [h]; rfl, by rw [h]; rfl, .inr ⟨rfl, hE⟩⟩
    case rdfreq | count | gencodes | canon | bsappb =>
      obtain ⟨_, h⟩ := h
      exact ⟨t, _, ht, by rw [h]; rfl, by rw [h]; rfl, .inr ⟨rfl, hE⟩⟩
    case build | bsbit | bslen | bsbytes | bsbin | bshex =>
      obtain ⟨_, _, h⟩ := h
      exact ⟨t, _, ht, by rw [h]; rfl, by rw [h]; rfl, .inr ⟨rfl, hE⟩⟩
    case encode =>
      obtain ⟨_, _, _, h⟩ := h
      exact ⟨t, _, ht, by rw [h]; rfl, by rw [h]; rfl, .inr ⟨rfl, hE⟩⟩
    case bsapps | bseq =>
      obtain ⟨_, _, _, _, h⟩ := h
      exact ⟨t, _, ht, by rw [h]; rfl, by rw [h]; rfl, .inr ⟨rfl, hE⟩⟩

/-- What a step can be: idle, a reset, an illegal word, or a command. -/
theorem step_next {s t : State} (h : step s = .next t) :
    (s.moves = [] ∧ t = s) ∨
    (∃ rest, s.moves = .reset :: rest ∧ t = State.hardReset { s with moves := rest }) ∨
    (∃ w text rest d, s.moves = .command w text :: rest ∧ decode w = .error d ∧ ∃ k, t =
      State.respond { s.accept text rest with tin := (s.tin ++ text).drop k } .illegalCommand 0 []) ∨
    (∃ w text rest i, s.moves = .command w text :: rest ∧ decode w = .ok i ∧ exec i (s.accept text rest) = .next t) := by
  unfold step at h
  split at h
  · exact .inl ⟨‹_›, by cases h; rfl⟩
  · next w text rest hm =>
    unfold runWord at h
    split at h
    · exact .inr (.inr (.inr ⟨w, text, rest, _, hm, ‹_›, h⟩))
    · next d hd =>
      refine .inr (.inr (.inl ⟨w, text, rest, d, hm, hd, ?_⟩))
      unfold illegal at h
      split at h
      · obtain ⟨-, h⟩ := withText_next h
        exact ⟨(immField w).toNat, by cases h; rfl⟩
      · exact ⟨0, by cases h; rfl⟩
  · next rest hm => exact .inr (.inl ⟨rest, hm, by cases h; rfl⟩)

end Sys2Proof.Machine
end

