-- ==== Sys2Proof/Laws/Storage.lean ====
section
/-! SUPPORT. The shared operations keep the canonical forms of the storage from every state, also one no run reaches: the tree
walk on any arena, the merges whatever the counts, the encoder's output. -/

namespace Sys2Proof.Machine

/-! ## The walk on any arena -/

theorem walkTree_wf (node : Sparse Node) (fuel : Nat) (t : NodeIx) (path : BitSeq) (raw : Sparse BitSeq)
    (hp : path.wf) (hl : path.len.toNat + fuel ≤ maxCodeLen + 1) (hr : Sparse.wf maxSymbols raw)
    (hc : ∀ e ∈ raw, e.2.wf ∧ e.2.len.toNat ≤ maxCodeLen) : Sparse.wf maxSymbols (walkTree node fuel t path raw) ∧
      ∀ e ∈ walkTree node fuel t path raw, e.2.wf ∧ e.2.len.toNat ≤ maxCodeLen := by
  induction fuel generalizing t path raw with
  | zero => exact ⟨hr, hc⟩
  | succ fuel ih =>
    unfold walkTree
    split
    · exact ⟨hr, hc⟩
    · refine ⟨Sparse.wf_put hr (BitVec.isLt _) _, fun e he => ?_⟩
      rcases Sparse.mem_put he with rfl | he
      · exact ⟨hp, show path.len.toNat ≤ maxCodeLen by omega⟩
      · exact hc e he
    · next l r _ =>
      have h32 : path.len.toNat + 1 < 2 ^ 32 := by simp only [maxCodeLen] at hl; omega
      have hw (v : Bool) := BitSeq.append_wf path v hp h32
      have hn (v : Bool) : (path.append v).len.toNat + fuel ≤ maxCodeLen + 1 := by
        rw [BitSeq.append_len path v h32]; omega
      have hlw := ih l (path.append false) raw (hw false) (hn false) hr hc
      exact ih r (path.append true) _ (hw true) (hn true) hlw.1 hlw.2

/-- `GENCODES` leaves a code table in canonical form, of codes of at most 255 bits, whatever the arena. -/
theorem rawCodes_wf (node : Sparse Node) (root : NodeIx) :
    Sparse.wf maxSymbols (rawCodes node root) ∧ ∀ e ∈ rawCodes node root, e.2.wf ∧ e.2.len.toNat ≤ maxCodeLen := by
  have h0 : Sparse.wf maxSymbols ([] : Sparse BitSeq) := ⟨List.Pairwise.nil, by simp⟩
  unfold rawCodes
  split
  · exact ⟨h0, by simp⟩
  · refine ⟨Sparse.wf_put h0 (BitVec.isLt _) _, fun e he => ?_⟩
    rcases Sparse.mem_put he with rfl | he
    · exact ⟨BitSeq.append_wf _ _ BitSeq.empty_wf (by decide), show (BitSeq.empty.append false).len.toNat ≤ maxCodeLen by decide⟩
    · simp at he
  · exact walkTree_wf node (maxCodeLen + 1) root BitSeq.empty [] BitSeq.empty_wf (by decide) h0 (by simp)

/-! ## The merges, whatever the counts -/

/-- The shape of a build in progress without its frequencies: `m` nodes made, of `n` leaves. -/
structure Sized (n m : Nat) (s : State) : Prop where
  tie : s.tie.toNat = m
  size : s.pool.length + m = 2 * n
  indices : s.node.map Prod.fst = List.range m

theorem Sized.mergeOnce {n m : Nat} {s : State} (h : Sized n m s) (hp : 2 ≤ s.pool.length) (hm : m + 1 < 512) :
    Sized n (m + 1) s.mergeOnce := by
  obtain ⟨a, b, ha, hb, -, -, he⟩ := mergeOnce_eq s hp
  rw [he]
  refine ⟨ix_succ h.tie hm, ?_, ?_⟩
  · have h1 := List.length_erase_of_mem ha
    have h2 := List.length_erase_of_mem hb
    have h3 := h.size
    simp only [State.addNode_pool, List.length_append, List.length_singleton, h2, h1]
    omega
  · simp only [State.addNode_node, h.tie]
    exact Sparse.put_range h.indices _

theorem Sized.mergeLoop {n : Nat} (k : Nat) {m : Nat} {s : State} (h : Sized n m s) (hm : m < 2 * n) (hn : n ≤ 256)
    (hk : s.pool.length ≤ k + 1) : Sized n (2 * n - 1) (s.mergeLoop k) := by
  have hs := h.size
  induction k generalizing m s with
  | zero =>
    have : m = 2 * n - 1 := by omega
    exact this ▸ h
  | succ k ih =>
    unfold State.mergeLoop
    split
    · next hp =>
      have hn1 := h.mergeOnce hp (by omega)
      have := hn1.size
      exact ih hn1 (by omega) (by omega) this
    · have : m = 2 * n - 1 := by omega
      exact this ▸ h

/-- `BUILD` leaves nodes at the indices `0` to `2n - 2` whatever the counts. -/
theorem sized_buildTree (s : State) (hn : s.node = []) (hne : presentSymbols s.freq ≠ []) :
    Sized (presentSymbols s.freq).length (2 * (presentSymbols s.freq).length - 1) s.buildTree := by
  have h := planted_plantLeaves s hn
  have hpos := List.length_pos_iff.mpr hne
  have hl := presentSymbols_length_le s.freq
  have hp : s.plantLeaves.pool.length = (presentSymbols s.freq).length := by simp [h.pool]
  refine Sized.mergeLoop _ (m := (presentSymbols s.freq).length) ⟨h.tie, ?_, h.indices⟩ (by omega) hl (by omega)
  omega

theorem buildTree_nodeKeys (s : State) (hn : s.node = []) (hne : presentSymbols s.freq ≠ []) :
    Sparse.wf maxNodes s.buildTree.node := by
  have h := (sized_buildTree s hn hne).indices
  have hl := presentSymbols_length_le s.freq
  refine ⟨h ▸ List.pairwise_lt_range, fun e he => ?_⟩
  have := Sparse.keys_lt h e he
  have hpos := List.length_pos_iff.mpr hne
  show e.1 < 511
  omega

/-! ## The encoder -/

/-- The output of a successful `ENCODE`. -/
theorem encode_output {s : State} {f : Bool} {text : List Byte} {q : BitSeq}
    (h : encodeText s.cfg.outCapBits.toNat (s.codeMap f) 0 BitSeq.empty text = .ok q) :
    AllCoded (s.codeMap f) text ∧ q.bits = textCode (s.codeMap f) text ∧ q.len.toNat ≤ s.cfg.outCapBits.toNat ∧ q.wf := by
  obtain ⟨h1, h2, h3, h4, h5⟩ := encodeText_inv s.cfg.outCapBits.isLt (by simp) h
  simp only [BitSeq.empty_len, BitSeq.empty_bits, List.nil_append] at h2 h3 h4
  exact ⟨h1, h3, by rw [h4]; exact h2, h5 BitSeq.empty_wf⟩

end Sys2Proof.Machine
end

