-- ==== Sys2Proof/Laws/Optimal.lean ====
section
/-! SUPPORT. The tree of the sorter has the least weighted path length (42_tree_builder.md R109 (a)): the exchange argument
over Kraft sums, the merges of a built tree, and the depths of its leaves. -/

namespace Sys2Proof.Machine

/-! ## The exchange argument -/

section Exchange

variable {ι : Type} [DecidableEq ι]

/-- The Kraft sum of lengths over a set. -/
def kraftOver (S : Finset ι) (len : ι → Nat) : ℚ := ∑ i ∈ S, (1 / 2 : ℚ) ^ len i

theorem swap_moves {S : Finset ι} {p q : ι} (hp : p ∈ S) (hq : q ∈ S) : {a | Equiv.swap p q a ≠ a} ⊆ (S : Set ι) := by
  intro a ha
  by_contra h
  have h1 : a ≠ p := by rintro rfl; exact h hp
  have h2 : a ≠ q := by rintro rfl; exact h hq
  exact ha (Equiv.swap_apply_of_ne_of_ne h1 h2)

theorem kraftOver_swap {S : Finset ι} (len : ι → Nat) {p q : ι} (hp : p ∈ S) (hq : q ∈ S) :
    kraftOver S (fun i => len (Equiv.swap p q i)) = kraftOver S len :=
  (Equiv.swap p q).sum_comp S (fun i => (1 / 2 : ℚ) ^ len i) (swap_moves hp hq)

theorem sum_split {M : Type} [AddCommMonoid M] {S : Finset ι} (f : ι → M) {p q : ι} (hp : p ∈ S) (hq : q ∈ S)
    (hpq : p ≠ q) : ∑ i ∈ S, f i = f p + (f q + ∑ i ∈ (S.erase p).erase q, f i) := by
  rw [Finset.add_sum_erase _ f (Finset.mem_erase.mpr ⟨hpq.symm, hq⟩), Finset.add_sum_erase _ f hp]

/-- Giving the lighter of two the greater length costs no more. -/
theorem cost_swap_le {S : Finset ι} (w len : ι → Nat) {p q : ι} (hp : p ∈ S) (hq : q ∈ S) (hw : w p ≤ w q)
    (hl : len p ≤ len q) : ∑ i ∈ S, w i * len (Equiv.swap p q i) ≤ ∑ i ∈ S, w i * len i := by
  by_cases hpq : p = q
  · subst hpq; simp
  · rw [sum_split _ hp hq hpq, sum_split (fun i => w i * len i) hp hq hpq, Equiv.swap_apply_left,
      Equiv.swap_apply_right]
    have : ∑ i ∈ (S.erase p).erase q, w i * len (Equiv.swap p q i) = ∑ i ∈ (S.erase p).erase q, w i * len i := by
      refine Finset.sum_congr rfl fun i hi => ?_
      simp only [Finset.mem_erase] at hi
      rw [Equiv.swap_apply_of_ne_of_ne hi.2.1 hi.1]
    rw [this]
    have := mul_add_mul_le_mul_add_mul hw hl
    omega

/-- A greatest length that only one element has can be shortened. -/
theorem kraft_shorten {S : Finset ι} {len : ι → Nat} (hk : kraftOver S len ≤ 1) {x : ι} (hx : x ∈ S)
    (hpos : 1 ≤ len x) (hmax : ∀ i ∈ S, i ≠ x → len i < len x) :
    kraftOver S (Function.update len x (len x - 1)) ≤ 1 := by
  have hscale : kraftOver S len * 2 ^ len x = ((∑ i ∈ S, 2 ^ (len x - len i) : ℕ) : ℚ) := by
    rw [kraftOver, Finset.sum_mul, Nat.cast_sum]
    refine Finset.sum_congr rfl fun i hi => ?_
    have hle : len i ≤ len x := by
      by_cases h : i = x
      · rw [h]
      · exact (hmax i hi h).le
    rw [Nat.cast_pow, Nat.cast_ofNat, one_div, inv_pow, inv_mul_eq_div, div_eq_iff (by positivity), ← pow_add]
    congr 1; omega
  have hnat : ∑ i ∈ S, 2 ^ (len x - len i) ≤ 2 ^ len x := by
    have : ((∑ i ∈ S, 2 ^ (len x - len i) : ℕ) : ℚ) ≤ ((2 ^ len x : ℕ) : ℚ) := by
      rw [← hscale]; push_cast
      exact mul_le_of_le_one_left (by positivity) hk
    exact_mod_cast this
  have hodd : ∑ i ∈ S, 2 ^ (len x - len i) = 1 + ∑ i ∈ S.erase x, 2 ^ (len x - len i) := by
    rw [← Finset.add_sum_erase _ _ hx]; simp
  have heven : 2 ∣ ∑ i ∈ S.erase x, 2 ^ (len x - len i) := by
    refine Finset.dvd_sum fun i hi => ?_
    simp only [Finset.mem_erase] at hi
    exact dvd_pow_self 2 (by have := hmax i hi.2 hi.1; omega)
  have heven' : 2 ∣ 2 ^ len x := dvd_pow_self 2 (by omega)
  have hle : (∑ i ∈ S.erase x, 2 ^ (len x - len i)) + 2 ≤ 2 ^ len x := by omega
  have hrest : kraftOver S len = (1 / 2) ^ len x + ∑ i ∈ S.erase x, (1 / 2 : ℚ) ^ len i := by
    rw [kraftOver, Finset.add_sum_erase S (fun i => (1 / 2 : ℚ) ^ len i) hx]
  have hnew : kraftOver S (Function.update len x (len x - 1)) =
      (1 / 2) ^ (len x - 1) + ∑ i ∈ S.erase x, (1 / 2 : ℚ) ^ len i := by
    rw [kraftOver, ← Finset.add_sum_erase _ _ hx]
    congr 1
    · simp
    · refine Finset.sum_congr rfl fun i hi => ?_
      simp [Function.update_of_ne (Finset.mem_erase.mp hi).1]
  have hhalf : (1 / 2 : ℚ) ^ (len x - 1) = 2 * (1 / 2) ^ len x := by
    conv_rhs => rw [show len x = len x - 1 + 1 by omega, pow_succ]
    ring
  have hunit : (1 / 2 : ℚ) ^ len x * 2 ^ len x = 1 := by rw [← mul_pow]; norm_num
  have hfin : (kraftOver S len + (1 / 2) ^ len x) * 2 ^ len x ≤ 1 * 2 ^ len x := by
    rw [add_mul, hscale, hunit, one_mul]
    have : ((∑ i ∈ S, 2 ^ (len x - len i) : ℕ) + 1 : ℚ) ≤ ((2 ^ len x : ℕ) : ℚ) := by
      have : (∑ i ∈ S, 2 ^ (len x - len i)) + 1 ≤ 2 ^ len x := by omega
      exact_mod_cast this
    simpa using this
  have := le_of_mul_le_mul_right hfin (by positivity)
  rw [hnew, hhalf]
  rw [hrest] at this
  linarith

/-- The exchange argument: the two lightest can have one length, no shorter than any other needs, at no greater cost. -/
theorem exchange {S : Finset ι} (w : ι → Nat) {a b : ι} (ha : a ∈ S) (hb : b ∈ S) (hab : a ≠ b)
    (hwa : ∀ c ∈ S, w a ≤ w c) (hwb : ∀ c ∈ S, c ≠ a → w b ≤ w c) (len : ι → Nat) (hk : kraftOver S len ≤ 1) :
    ∃ len', kraftOver S len' ≤ 1 ∧ ∑ i ∈ S, w i * len' i ≤ ∑ i ∈ S, w i * len i ∧ len' a = len' b ∧ 1 ≤ len' a := by
  induction hn : ∑ i ∈ S, len i using Nat.strong_induction_on generalizing len with
  | _ n ih =>
    obtain ⟨x, hx, hmax⟩ := S.exists_max_image len ⟨a, ha⟩
    have hpos : 1 ≤ len x := by
      by_contra h0
      have hz : ∀ i ∈ S, len i = 0 := fun i hi => by have := hmax i hi; omega
      have : (2 : ℚ) ≤ kraftOver S len := by
        rw [kraftOver, sum_split _ ha hb hab, hz a ha, hz b hb]
        have : 0 ≤ ∑ i ∈ (S.erase a).erase b, (1 / 2 : ℚ) ^ len i := Finset.sum_nonneg fun _ _ => by positivity
        norm_num at this ⊢; linarith
      linarith
    by_cases hsec : ∃ y ∈ S, y ≠ x ∧ len y = len x
    · obtain ⟨y, hy, hyx, hly⟩ := hsec
      -- a takes the greatest length
      set l1 := fun i => len (Equiv.swap a x i) with hl1
      have k1 : kraftOver S l1 ≤ 1 := by rw [hl1, kraftOver_swap len ha hx]; exact hk
      have c1 := cost_swap_le w len ha hx (hwa x hx) (hmax a ha)
      have e1 : l1 a = len x := by simp [hl1]
      -- another element still has it
      set z := Equiv.swap a x y with hz
      have hzS : z ∈ S := by
        rw [hz]
        by_cases h : y = a
        · rw [h, Equiv.swap_apply_left]; exact hx
        · rw [Equiv.swap_apply_of_ne_of_ne h hyx]; exact hy
      have hza : z ≠ a := by
        rw [hz, ne_eq, Equiv.swap_apply_eq_iff, Equiv.swap_apply_left]; exact hyx
      have ez : l1 z = len x := by simp [hl1, hz, hly]
      have m1 : ∀ i ∈ S, l1 i ≤ len x := by
        intro i hi
        simp only [hl1]
        refine hmax _ ?_
        by_cases h : i = a
        · rw [h, Equiv.swap_apply_left]; exact hx
        · by_cases h' : i = x
          · rw [h', Equiv.swap_apply_right]; exact ha
          · rw [Equiv.swap_apply_of_ne_of_ne h h']; exact hi
      refine ⟨fun i => l1 (Equiv.swap b z i), ?_, ?_, ?_, ?_⟩
      · rw [kraftOver_swap l1 hb hzS]; exact k1
      · exact (cost_swap_le w l1 hb hzS (hwb z hzS hza) (by rw [ez]; exact m1 b hb)).trans c1
      · show l1 (Equiv.swap b z a) = l1 (Equiv.swap b z b)
        rw [Equiv.swap_apply_of_ne_of_ne hab hza.symm, Equiv.swap_apply_left, e1, ez]
      · show 1 ≤ l1 (Equiv.swap b z a)
        rw [Equiv.swap_apply_of_ne_of_ne hab hza.symm, e1]; exact hpos
    · push Not at hsec
      have hlt : ∀ i ∈ S, i ≠ x → len i < len x := fun i hi h => lt_of_le_of_ne (hmax i hi) (hsec i hi h)
      have hupd : ∀ i, Function.update len x (len x - 1) i ≤ len i := by
        intro i
        by_cases h : i = x
        · subst h; simp
        · rw [Function.update_of_ne h]
      have hsmall : ∑ i ∈ S, Function.update len x (len x - 1) i < n := by
        rw [← hn]
        exact Finset.sum_lt_sum (fun i _ => hupd i) ⟨x, hx, by simp; omega⟩
      obtain ⟨l, h1, h2, h3⟩ := ih _ hsmall _ (kraft_shorten hk hx hpos hlt) rfl
      exact ⟨l, h1, h2.trans (Finset.sum_le_sum fun i _ => Nat.mul_le_mul_left _ (hupd i)), h3⟩
end Exchange

/-! ## The pool at each merge -/

open scoped Classical in
/-- The nodes made before `t` that no merge before `t` has taken. -/
noncomputable def alive (node : Sparse Node) (t : Nat) : Finset Nat :=
  (Finset.range t).filter fun c => ∀ t' < t, ¬ ChildOf node c t'

theorem mem_alive {node : Sparse Node} {t c : Nat} : c ∈ alive node t ↔ c < t ∧ ∀ t' < t, ¬ ChildOf node c t' := by
  simp [alive]

/-- The weight of node `c`. -/
def weight (node : Sparse Node) (c : Nat) : Nat := (nodeFrequency node (BitVec.ofNat 9 c)).toNat

theorem weight_toNat (node : Sparse Node) (c : NodeIx) : weight node c.toNat = (nodeFrequency node c).toNat := by
  simp [weight]

namespace TreeOf
variable {freq : Sparse Freq} {node : Sparse Node} {root : NodeIx}

/-- A merge: its two children, which are the two lightest of the pool, and its weight. -/
theorem merge (h : TreeOf freq node root) {t : Nat} (h1 : (presentSymbols freq).length ≤ t) (h2 : t ≤ root.toNat) :
    ∃ l r, l ∈ alive node t ∧ r ∈ alive node t ∧ l ≠ r ∧ (∀ c, ChildOf node c t ↔ c = l ∨ c = r) ∧
      weight node t = weight node l + weight node r ∧ (∀ c ∈ alive node t, weight node l ≤ weight node c) ∧
      ∀ c ∈ alive node t, c ≠ l → weight node r ≤ weight node c := by
  have hr := h.rootLast
  obtain ⟨f, l, r, e, hl, hrt, hne, hf⟩ := h.internals t h1 (by omega)
  have hch : Children node t l r := ⟨f, _, e⟩
  obtain ⟨g1, g2⟩ := h.greedy t l r hch
  have hno : ∀ c, ChildOf node c t → ∀ t' < t, ¬ ChildOf node c t' := fun c hc t' ht' hc' => by
    have := h.rightUnique hc hc'; omega
  have hlc : ChildOf node l.toNat t := ⟨l, r, hch, .inl rfl⟩
  have hrc : ChildOf node r.toNat t := ⟨l, r, hch, .inr rfl⟩
  have hnat : l.toNat ≠ r.toNat := fun h' => hne (BitVec.eq_of_toNat_eq h')
  have hlt : t < 512 := by have := root.isLt; omega
  have hle : ∀ {a b : NodeIx}, before node a b = true → weight node a.toNat ≤ weight node b.toNat := by
    intro a b hab
    rw [weight_toNat, weight_toNat]
    rcases (before_iff node a b).mp hab with h' | h' <;> omega
  have hright : ∀ c ∈ alive node t, c ≠ l.toNat → weight node r.toNat ≤ weight node c := by
    intro c hc hcl
    by_cases hcr : c = r.toNat
    · rw [hcr]
    · obtain ⟨c1, c2⟩ := mem_alive.mp hc
      have hcn : (BitVec.ofNat 9 c : NodeIx).toNat = c := toNat_ofNat_ix (by omega)
      have := hle (g2 (BitVec.ofNat 9 c) (by omega) (by rintro rfl; exact hcl hcn.symm)
        (by rintro rfl; exact hcr hcn.symm) (by rw [hcn]; exact c2))
      rwa [hcn] at this
  refine ⟨l.toNat, r.toNat, mem_alive.mpr ⟨hl, hno _ hlc⟩, mem_alive.mpr ⟨hrt, hno _ hrc⟩, hnat, ?_, ?_, ?_, hright⟩
  · intro c
    constructor
    · rintro ⟨l', r', ⟨f', k', e'⟩, hc⟩
      rw [e] at e'
      simp only [Option.some.injEq, Node.internal.injEq] at e'
      obtain ⟨_, _, rfl, rfl⟩ := e'
      exact hc.imp Eq.symm Eq.symm
    · rintro (rfl | rfl)
      · exact hlc
      · exact hrc
  · have : nodeFrequency node (BitVec.ofNat 9 t) = f := by
      rw [nodeFrequency, toNat_ofNat_ix hlt, e]
    rw [weight_toNat, weight_toNat, ← hf, weight, this]
  · intro c hc
    by_cases hcl : c = l.toNat
    · rw [hcl]
    · exact (hle g1).trans (hright c hc hcl)

theorem alive_succ (h : TreeOf freq node root) {t l r : Nat} (hl : l ∈ alive node t) (hr : r ∈ alive node t)
    (hc : ∀ c, ChildOf node c t ↔ c = l ∨ c = r) : alive node (t + 1) = insert t (((alive node t).erase l).erase r) := by
  have hlt := (mem_alive.mp hl).1
  have hrt := (mem_alive.mp hr).1
  ext c
  simp only [mem_alive, Finset.mem_insert, Finset.mem_erase]
  constructor
  · rintro ⟨c1, c2⟩
    by_cases hct : c = t
    · exact .inl hct
    · refine .inr ⟨?_, ?_, by omega, fun t' ht' => c2 t' (by omega)⟩
      · rintro rfl; exact c2 t (by omega) ((hc _).mpr (.inr rfl))
      · rintro rfl; exact c2 t (by omega) ((hc _).mpr (.inl rfl))
  · rintro (rfl | ⟨c1, c2, c3, c4⟩)
    · refine ⟨by omega, fun t' ht' hct => ?_⟩
      have := (h.childOf_lt hct).1
      omega
    · refine ⟨by omega, fun t' ht' hct => ?_⟩
      by_cases htt : t' = t
      · subst htt
        rcases (hc c).mp hct with rfl | rfl
        · exact c2 rfl
        · exact c1 rfl
      · exact c4 t' (by omega) hct

theorem alive_leaves (h : TreeOf freq node root) :
    alive node (presentSymbols freq).length = Finset.range (presentSymbols freq).length := by
  ext c
  simp only [mem_alive, Finset.mem_range, and_iff_left_iff_imp]
  rintro hc t' ht' ⟨l, r, ⟨f, k, e⟩, _⟩
  rw [h.leaves t' _ (List.getElem?_eq_getElem ht')] at e
  cases e

/-- The lower bound: lengths for the pool that meet the Kraft inequality cost at least the merges still to come. -/
theorem cost_ge (h : TreeOf freq node root) (k t : Nat) (hk : t + k = root.toNat + 1)
    (h1 : (presentSymbols freq).length ≤ t) (len : Nat → Nat) (hlen : kraftOver (alive node t) len ≤ 1) :
    ∑ u ∈ Finset.Ico t (root.toNat + 1), weight node u ≤ ∑ c ∈ alive node t, weight node c * len c := by
  induction k generalizing t len with
  | zero => rw [Finset.Ico_eq_empty (by omega)]; simp
  | succ k ih =>
    obtain ⟨l, r, hl, hr, hne, hc, hw, hmin, hmin'⟩ := h.merge h1 (by omega)
    obtain ⟨len', k1, c1, heq, hpos⟩ := exchange (weight node) hl hr hne hmin hmin' len hlen
    refine le_trans ?_ c1
    have hlt := (mem_alive.mp hl).1
    have hrt := (mem_alive.mp hr).1
    have ht : t ∉ ((alive node t).erase l).erase r := by
      simp only [Finset.mem_erase, mem_alive]; omega
    set R := ((alive node t).erase l).erase r with hR
    have hupd : ∀ c ∈ R, Function.update len' t (len' l - 1) c = len' c := fun c hc => by
      rw [Function.update_of_ne]; rintro rfl; exact ht hc
    have hsum : ∑ c ∈ R, weight node c * Function.update len' t (len' l - 1) c = ∑ c ∈ R, weight node c * len' c :=
      Finset.sum_congr rfl fun c hc => by rw [hupd c hc]
    have hkr : kraftOver (alive node (t + 1)) (Function.update len' t (len' l - 1)) ≤ 1 := by
      rw [h.alive_succ hl hr hc, kraftOver, Finset.sum_insert ht, Function.update_self,
        Finset.sum_congr rfl fun c hc => by rw [hupd c hc]]
      rw [kraftOver, sum_split _ hl hr hne, ← heq] at k1
      have hhalf : (1 / 2 : ℚ) ^ (len' l - 1) = (1 / 2) ^ len' l + (1 / 2) ^ len' l := by
        conv_rhs => rw [show len' l = len' l - 1 + 1 by omega, pow_succ]
        ring
      rw [hhalf]; linarith
    have := ih (t + 1) (by omega) (by omega) _ hkr
    rw [h.alive_succ hl hr hc, Finset.sum_insert ht, Function.update_self, hsum] at this
    rw [Finset.sum_eq_sum_Ico_succ_bot (by omega), sum_split _ hl hr hne, ← heq, ← hR]
    obtain ⟨m, hm⟩ : ∃ m, len' l = m + 1 := ⟨len' l - 1, by omega⟩
    rw [hm] at this ⊢
    rw [hw] at this ⊢
    simp only [Nat.add_sub_cancel] at this
    have e1 : (weight node l + weight node r) * m = weight node l * m + weight node r * m := Nat.add_mul _ _ _
    have e2 : weight node l * (m + 1) = weight node l * m + weight node l := Nat.mul_succ _ _
    have e3 : weight node r * (m + 1) = weight node r * m + weight node r := Nat.mul_succ _ _
    omega

/-! ## Depths -/

/-- The tree has a depth function. -/
theorem exists_depth (h : TreeOf freq node root) : ∃ d : Nat → Nat, d root.toNat = 0 ∧
    ∀ c t, ChildOf node c t → d c = d t + 1 := by
  have key : ∀ k t, t + k = root.toNat + 1 → ∃ d : Nat → Nat, d root.toNat = 0 ∧
      ∀ c u, t ≤ u → ChildOf node c u → d c = d u + 1 := by
    intro k
    induction k with
    | zero => exact fun t ht => ⟨fun _ => 0, rfl, fun c u hu hc => by have := (h.childOf_lt hc).2; omega⟩
    | succ k ih =>
      intro t ht
      obtain ⟨d, d0, d1⟩ := ih (t + 1) (by omega)
      classical
      refine ⟨fun c => if ChildOf node c t then d t + 1 else d c, ?_, ?_⟩
      · have : ¬ ChildOf node root.toNat t := fun hc => by have := h.childOf_lt hc; omega
        simp [this, d0]
      · intro c u hu hc
        have hun : ¬ ChildOf node u t := fun hc' => by have := (h.childOf_lt hc').1; omega
        by_cases hut : u = t
        · subst hut; simp [hc, hun]
        · have hct : ¬ ChildOf node c t := fun hc' => hut (h.rightUnique hc hc')
          simp only [hct, hun, if_false]
          exact d1 c u (by omega) hc
  obtain ⟨d, d0, d1⟩ := key (root.toNat + 1) 0 (by omega)
  exact ⟨d, d0, fun c t => d1 c t (Nat.zero_le _)⟩

/-- The weighted depths of the pool add up to the merges still to come. -/
theorem cost_depth (h : TreeOf freq node root) {d : Nat → Nat} (d0 : d root.toNat = 0)
    (d1 : ∀ c t, ChildOf node c t → d c = d t + 1) (k t : Nat) (hk : t + k = root.toNat + 1)
    (h1 : (presentSymbols freq).length ≤ t) :
    ∑ c ∈ alive node t, weight node c * d c = ∑ u ∈ Finset.Ico t (root.toNat + 1), weight node u := by
  induction k generalizing t with
  | zero =>
    rw [Finset.Ico_eq_empty (by omega), Finset.sum_empty]
    refine Finset.sum_eq_zero fun c hc => ?_
    obtain ⟨c1, c2⟩ := mem_alive.mp hc
    by_cases hcr : c = root.toNat
    · rw [hcr, d0, Nat.mul_zero]
    · obtain ⟨u, hu, -⟩ := h.owned c (by omega)
      exact absurd hu (c2 u (by have := (h.childOf_lt hu).2; omega))
  | succ k ih =>
    obtain ⟨l, r, hl, hr, hne, hc, hw, -, -⟩ := h.merge h1 (by omega)
    have hlt := (mem_alive.mp hl).1
    have hrt := (mem_alive.mp hr).1
    have ht : t ∉ ((alive node t).erase l).erase r := by
      simp only [Finset.mem_erase, mem_alive]; omega
    have := ih (t + 1) (by omega) (by omega)
    rw [h.alive_succ hl hr hc, Finset.sum_insert ht] at this
    rw [Finset.sum_eq_sum_Ico_succ_bot (by omega), sum_split _ hl hr hne, ← this, d1 l t ((hc l).mpr (.inl rfl)),
      d1 r t ((hc r).mpr (.inr rfl)), hw]
    have e1 : (weight node l + weight node r) * d t = weight node l * d t + weight node r * d t := Nat.add_mul _ _ _
    have e2 : weight node l * (d t + 1) = weight node l * d t + weight node l := Nat.mul_succ _ _
    have e3 : weight node r * (d t + 1) = weight node r * d t + weight node r := Nat.mul_succ _ _
    omega

/-- The depth of a leaf is the number of turns to it. -/
theorem depth_of_descend (h : TreeOf freq node root) {d : Nat → Nat} (d1 : ∀ c t, ChildOf node c t → d c = d t + 1)
    (c : List Bool) (t : NodeIx) (ht : t.toNat ≤ root.toNat) {x : Symbol} {f : Freq} {k : NodeIx}
    (hd : descend node t c = some (.leaf x f k)) : ∃ j, (presentSymbols freq)[j]? = some x ∧ d j = d t.toNat + c.length := by
  induction c generalizing t with
  | nil =>
    rw [descend] at hd
    rcases h.leaf_or_internal ht with ⟨y, hy, e⟩ | ⟨_, _, _, _, e, _⟩
    · rw [e] at hd
      simp only [Option.some.injEq, Node.leaf.injEq] at hd
      rw [hd.1] at hy
      exact ⟨t.toNat, hy, rfl⟩
    · rw [e] at hd; cases hd
  | cons b bs ih =>
    rw [descend] at hd
    rcases h.leaf_or_internal ht with ⟨y, hy, e⟩ | ⟨_, f', l, r, e, hl, hr, _⟩
    · rw [e] at hd; cases hd
    · simp only [e] at hd
      have hch : Children node t.toNat l r := ⟨f', _, e⟩
      have hc : ChildOf node (if b then r else l).toNat t.toNat := ⟨l, r, hch, by cases b <;> simp⟩
      obtain ⟨j, h1, h2⟩ := ih _ (by have := (h.childOf_lt hc).1; omega) hd
      exact ⟨j, h1, by rw [h2, d1 _ _ hc, List.length_cons]; omega⟩

end TreeOf

/-! ## The Kraft inequality for a prefix-free code -/

theorem prefixFree_uniquelyDecodable {S : Set (List Bool)} (hne : [] ∉ S) (hp : ∀ c ∈ S, ∀ d ∈ S, c <+: d → c = d) :
    InformationTheory.UniquelyDecodable S := by
  intro l1
  induction l1 with
  | nil =>
    intro l2 _ h2 h
    cases l2 with
    | nil => rfl
    | cons d r =>
      have hd := h2 d (by simp)
      simp only [List.flatten_nil, List.flatten_cons] at h
      have : d = [] := by simpa using (List.append_eq_nil_iff.mp h.symm).1
      exact absurd (this ▸ hd) hne
  | cons c r ih =>
    intro l2 h1 h2 h
    have hc := h1 c (by simp)
    cases l2 with
    | nil =>
      simp only [List.flatten_nil, List.flatten_cons] at h
      have : c = [] := by simpa using (List.append_eq_nil_iff.mp h).1
      exact absurd (this ▸ hc) hne
    | cons d r' =>
      have hd := h2 d (by simp)
      simp only [List.flatten_cons] at h
      have hcd : c = d := by
        have p1 : c <+: c ++ r.flatten := List.prefix_append _ _
        have p2 : d <+: c ++ r.flatten := by rw [h]; exact List.prefix_append _ _
        rcases List.prefix_or_prefix_of_prefix p1 p2 with p | p
        · exact hp c hc d hd p
        · exact (hp d hd c hc p).symm
      subst hcd
      rw [List.append_cancel_left_eq] at h
      rw [ih r' (fun w hw => h1 w (by simp [hw])) (fun w hw => h2 w (by simp [hw])) h]

/-- Two or more code words, none a prefix of another. -/
theorem kraftOver_le_one {ι : Type} [DecidableEq ι] {S : Finset ι} (u : ι → List Bool) (h2 : 1 < S.card)
    (hp : ∀ x ∈ S, ∀ y ∈ S, u x <+: u y → x = y) : kraftOver S (fun x => (u x).length) ≤ 1 := by
  have hinj : Set.InjOn u S := fun x hx y hy hxy => hp x hx y hy (by rw [hxy])
  have hne : [] ∉ ((S.image u : Finset (List Bool)) : Set (List Bool)) := by
    intro hmem
    simp only [Finset.coe_image, Set.mem_image, Finset.mem_coe] at hmem
    obtain ⟨x, hx, hux⟩ := hmem
    obtain ⟨y, hy, hyx⟩ := Finset.exists_mem_ne h2 x
    exact hyx (hp x hx y hy (by rw [hux]; exact List.nil_prefix)).symm
  have hud : InformationTheory.UniquelyDecodable ((S.image u : Finset (List Bool)) : Set (List Bool)) := by
    refine prefixFree_uniquelyDecodable hne ?_
    simp only [Finset.coe_image, Set.forall_mem_image, Finset.mem_coe]
    intro x hx y hy hxy
    rw [hp x hx y hy hxy]
  have hk := InformationTheory.kraft_mcmillan_inequality hud
  rw [Finset.sum_image hinj, Fintype.card_bool] at hk
  have : ((kraftOver S (fun x => (u x).length) : ℚ) : ℝ) ≤ ((1 : ℚ) : ℝ) := by
    rw [kraftOver]; push_cast
    simpa using hk
  exact_mod_cast this

/-! ## The codes of the tree -/

theorem sum_map_eq_range {α : Type} (l : List α) (g : α → Nat) (d : α) :
    (l.map g).sum = ∑ i ∈ Finset.range l.length, g (l.getD i d) := by
  induction l using List.reverseRecOn with
  | nil => simp
  | append_singleton l a ih =>
    rw [List.map_append, List.sum_append, ih, List.length_append, List.length_singleton, Finset.sum_range_succ]
    congr 1
    · refine Finset.sum_congr rfl fun i hi => ?_
      rw [List.getD_append _ _ _ _ (Finset.mem_range.mp hi)]
    · simp

namespace TreeOf
variable {freq : Sparse Freq} {node : Sparse Node} {root : NodeIx}

theorem codeCost_eq (h : TreeOf freq node root) (len : Symbol → Nat) : codeCost freq len =
    ∑ c ∈ alive node (presentSymbols freq).length, weight node c * len ((presentSymbols freq).getD c 0) := by
  rw [h.alive_leaves, codeCost, sum_map_eq_range _ _ 0]
  refine Finset.sum_congr rfl fun i hi => ?_
  have hi := Finset.mem_range.mp hi
  have hl := presentSymbols_length_le freq
  rw [List.getD_eq_getElem _ _ hi, weight, nodeFrequency, toNat_ofNat_ix (by omega),
    h.leaves i _ (List.getElem?_eq_getElem hi)]

/-- No prefix-free code for the symbols costs less than the turns of the tree. -/
theorem codeCost_le (h : TreeOf freq node root) (h2 : 2 ≤ (presentSymbols freq).length) (raw u : Symbol → List Bool)
    (hraw : ∀ x ∈ presentSymbols freq, ∃ f k, descend node root (raw x) = some (.leaf x f k))
    (hu : ∀ x ∈ presentSymbols freq, ∀ y ∈ presentSymbols freq, u x <+: u y → x = y) :
    codeCost freq (fun x => (raw x).length) ≤ codeCost freq fun x => (u x).length := by
  obtain ⟨d, d0, d1⟩ := h.exists_depth
  have hr := h.rootLast
  have hget : ∀ c ∈ alive node (presentSymbols freq).length,
      (presentSymbols freq)[c]? = some ((presentSymbols freq).getD c 0) := by
    intro c hc
    rw [h.alive_leaves, Finset.mem_range] at hc
    rw [List.getD_eq_getElem _ _ hc, List.getElem?_eq_getElem hc]
  have hinj : ∀ {i j : Nat} {x : Symbol}, (presentSymbols freq)[i]? = some x → (presentSymbols freq)[j]? = some x →
      i = j := by
    intro i j x hi hj
    have hi := List.getElem?_eq_some_iff.mp hi
    have hj := List.getElem?_eq_some_iff.mp hj
    exact (List.Nodup.getElem_inj_iff (presentSymbols_nodup freq)).mp (hi.2.trans hj.2.symm)
  have hlow := h.cost_ge (root.toNat + 1 - (presentSymbols freq).length) (presentSymbols freq).length (by omega) le_rfl
    (fun c => (u ((presentSymbols freq).getD c 0)).length)
    (kraftOver_le_one (fun c => u ((presentSymbols freq).getD c 0)) (by rw [h.alive_leaves, Finset.card_range]; omega)
      (by
        intro i hi j hj hij
        have hx := hget i hi
        have hy := hget j hj
        exact hinj hx (by rw [hy, ← hu _ (List.mem_of_getElem? hx) _ (List.mem_of_getElem? hy) hij])))
  have hdep := h.cost_depth d0 d1 (root.toNat + 1 - (presentSymbols freq).length) (presentSymbols freq).length (by omega)
    le_rfl
  rw [h.codeCost_eq, h.codeCost_eq]
  refine le_of_eq_of_le ?_ (hdep.trans_le hlow)
  refine Finset.sum_congr rfl fun c hc => ?_
  have hx := hget c hc
  obtain ⟨f, k, hd⟩ := hraw _ (List.mem_of_getElem? hx)
  obtain ⟨j, hj, hdj⟩ := h.depth_of_descend d1 _ root le_rfl hd
  rw [hinj hx hj, hdj, d0, Nat.zero_add, ← hinj hx hj]

end TreeOf

end Sys2Proof.Machine
end

