-- ==== Sys2Proof/Laws/PerInstr.lean ====
section
/-! SUPPORT. Statements for all instructions, one lemma per constructor of `Instr`. `EncodesItsRow`: the word of an
instruction carries its opcode and passes the mask test of its row (30_encoding.md R66). -/

namespace Sys2Proof.Laws.EncodesItsRow

/-- The word of `i` has the opcode of `i` and zero in every field that is no operand of its format. -/
def Statement (i : Instr) : Prop := opField (encode i) = i.opcode.code ∧ encode i &&& i.opcode.mask = i.opcode.pattern

theorem newsession : Statement .newsession := ⟨by decide, by decide⟩
theorem rdstage : Statement .rdstage := ⟨by decide, by decide⟩
theorem rdfreq (s : Symbol) : Statement (.rdfreq s) := by
  simp [Statement, encode, Instr.opcode, mask_test_iff, assembleWord_eq, Opcode.format, Format.hasKA, Format.hasSA,
    Format.hasB, Format.hasF, Format.hasImm]
theorem count (n : Imm) : Statement (.count n) := by
  simp [Statement, encode, Instr.opcode, mask_test_iff, assembleWord_eq, Opcode.format, Format.hasKA, Format.hasSA,
    Format.hasB, Format.hasF, Format.hasImm]
theorem build : Statement .build := ⟨by decide, by decide⟩
theorem gencodes : Statement .gencodes := ⟨by decide, by decide⟩
theorem canon : Statement .canon := ⟨by decide, by decide⟩
theorem encode (f : Bool) (n : Imm) : Statement (.encode f n) := by
  simp [Statement, Sys2Proof.encode, Instr.opcode, mask_test_iff, assembleWord_eq, Opcode.format, Format.hasKA,
    Format.hasSA, Format.hasB, Format.hasF, Format.hasImm]
theorem bsclr : Statement .bsclr := ⟨by decide, by decide⟩
theorem bsappb (b : Bool) : Statement (.bsappb b) := by
  simp [Statement, Sys2Proof.encode, Instr.opcode, mask_test_iff, assembleWord_eq, Opcode.format, Format.hasKA,
    Format.hasSA, Format.hasB, Format.hasF, Format.hasImm]

/-- Formats `S` and `SI` in one place. -/
theorem formatSI_row (o : Opcode) (a : Selector) (n : Imm) (hk : o.format.hasKA = true) (hs : o.format.hasSA = true)
    (hn : o.format.hasImm = true ∨ n = 0) : opField (formatSI o a n) = o.code ∧ formatSI o a n &&& o.mask = o.pattern := by
  simp only [mask_test_iff, formatSI, assembleWord_eq, opField_fieldsWord, kaField_fieldsWord, saField_fieldsWord,
    kbField_fieldsWord, sbField_fieldsWord, fField_fieldsWord, rsvField_fieldsWord, immField_fieldsWord, hk, hs]
  rcases hn with hn | hn <;> simp [hn]

theorem bsapps (a : Selector) : Statement (.bsapps a) := formatSI_row .bsapps a 0 rfl rfl (.inr rfl)
theorem bsbit (a : Selector) (i : Imm) : Statement (.bsbit a i) := formatSI_row .bsbit a i rfl rfl (.inl rfl)
theorem bslen (a : Selector) : Statement (.bslen a) := formatSI_row .bslen a 0 rfl rfl (.inr rfl)
theorem bsbytes (a : Selector) : Statement (.bsbytes a) := formatSI_row .bsbytes a 0 rfl rfl (.inr rfl)
theorem bsbin (a : Selector) : Statement (.bsbin a) := formatSI_row .bsbin a 0 rfl rfl (.inr rfl)
theorem bshex (a : Selector) (limit : Imm) : Statement (.bshex a limit) := formatSI_row .bshex a limit rfl rfl (.inl rfl)
theorem bseq (a b : Selector) : Statement (.bseq a b) := by
  simp [Statement, Sys2Proof.encode, Instr.opcode, mask_test_iff, assembleWord_eq, Opcode.format, Format.hasKA,
    Format.hasSA, Format.hasB, Format.hasF, Format.hasImm]

end Sys2Proof.Laws.EncodesItsRow
end

