-- ==== Sys2Proof/Laws/Results.lean ====
section
/-! SUPPORT. What a command word decodes to and what a command answers, in the forms a proof cites instead of unfolding a
meaning, and the sums that code lengths take over a text. -/

namespace Sys2Proof

/-! ## Decoding -/

theorem selectorA_ok {w : Word} {a : Selector} (hk : kaField w = a.kind) (hs : saField w = a.symbol) :
    selectorA w = .ok a := by rw [selectorA, hk, hs, Selector.ofFields_fields]

theorem selectorB_ok {w : Word} {a : Selector} (hk : kbField w = a.kind) (hs : sbField w = a.symbol) :
    selectorB w = .ok a := by rw [selectorB, hk, hs, Selector.ofFields_fields]

theorem decode_row {w : Word} {o : Opcode} (h1 : opField w = o.code) (h2 : w &&& o.mask = o.pattern) :
    decode w = decodeOperands w o := by
  rw [decode, h1, Opcode.ofCode_code]; simp [h2]

theorem decode_cases {w : Word} {i : Instr} (h : decode w = .ok i) : ∃ o, o.code = opField w ∧ w &&& o.mask = o.pattern ∧
    decodeOperands w o = .ok i := by
  unfold decode at h
  split at h
  · cases h
  · next o ho =>
    split at h
    · exact ⟨o, Opcode.code_of_ofCode ho, ‹_›, h⟩
    · cases h

theorem opcode_of_decodeOperands {w : Word} {o : Opcode} {i : Instr} (h : decodeOperands w o = .ok i) : i.opcode = o := by
  cases o <;> simp only [decodeOperands, withSelector_ok, Except.ok.injEq] at h
  all_goals try (subst h; rfl)
  · obtain ⟨a, -, h⟩ := h
    split at h <;> cases h
    rfl
  all_goals obtain ⟨a, -, h⟩ := h
  all_goals try (subst h; rfl)
  all_goals try (obtain ⟨b, -, h⟩ := h; subst h; rfl)

theorem selectorA_fields {w : Word} {a : Selector} (h : selectorA w = .ok a) : kaField w = a.kind ∧ saField w = a.symbol := by
  have := Selector.fields_of_ofFields h
  exact ⟨this.1.symm, this.2.symm⟩

theorem selectorB_fields {w : Word} {a : Selector} (h : selectorB w = .ok a) : kbField w = a.kind ∧ sbField w = a.symbol := by
  have := Selector.fields_of_ofFields h
  exact ⟨this.1.symm, this.2.symm⟩

theorem Selector.ofFields_ok_iff (k : BitVec 2) (s : BitVec 8) : (∃ a, Selector.ofFields k s = .ok a) ↔ (k.toNat ≤ 1 → s = 0) := by
  rw [Selector.ofFields_isOk]
  have : ∀ k : BitVec 2, (k = 0 ∨ k = 1) ↔ k.toNat ≤ 1 := by decide
  rw [this]

/-! ## Words written field by field (30_encoding.md R61) -/

theorem word_rdfreq (x : Symbol) : (0x03#8 ++ 0#2 ++ x ++ 0#46 : Word) = encode (.rdfreq x) := by
  refine BitVec.eq_of_getLsbD_eq fun i hi => ?_
  simp only [encode, assembleWord, BitVec.getLsbD_append, Opcode.code]
  grind

theorem word_count (n : Imm) : (0x10#8 ++ 0#24 ++ n : Word) = encode (.count n) := by
  refine BitVec.eq_of_getLsbD_eq fun i hi => ?_
  simp only [encode, assembleWord, BitVec.getLsbD_append, Opcode.code]
  grind

theorem word_encode (f : Bool) (n : Imm) : (0x14#8 ++ 0#20 ++ BitVec.ofBool f ++ 0#3 ++ n : Word) = encode (.encode f n) := by
  refine BitVec.eq_of_getLsbD_eq fun i hi => ?_
  simp only [encode, assembleWord, BitVec.getLsbD_append, Opcode.code]
  grind

theorem word_bsappb (f : Bool) : (0x21#8 ++ 0#20 ++ BitVec.ofBool f ++ 0#35 : Word) = encode (.bsappb f) := by
  refine BitVec.eq_of_getLsbD_eq fun i hi => ?_
  simp only [encode, assembleWord, BitVec.getLsbD_append, Opcode.code]
  grind

theorem word_formatS (op : BitVec 8) (o : Opcode) (ho : o.code = op) (a : Selector) :
    (op ++ a.kind ++ a.symbol ++ 0#46 : Word) = formatSI o a 0#32 := by
  refine BitVec.eq_of_getLsbD_eq fun i hi => ?_
  simp only [formatSI, assembleWord, BitVec.getLsbD_append, ho]
  grind

theorem word_formatSI (op : BitVec 8) (o : Opcode) (ho : o.code = op) (a : Selector) (n : Imm) :
    (op ++ a.kind ++ a.symbol ++ 0#14 ++ n : Word) = formatSI o a n := by
  refine BitVec.eq_of_getLsbD_eq fun i hi => ?_
  simp only [formatSI, assembleWord, BitVec.getLsbD_append, ho]
  grind

theorem word_bseq (a b : Selector) :
    (0x28#8 ++ a.kind ++ a.symbol ++ b.kind ++ b.symbol ++ 0#36 : Word) = encode (.bseq a b) := by
  refine BitVec.eq_of_getLsbD_eq fun i hi => ?_
  simp only [encode, assembleWord, BitVec.getLsbD_append, Opcode.code]
  grind

end Sys2Proof

namespace Sys2Proof.Machine

/-! ## Payloads -/

/-- The payload of a command is that of its word. -/
theorem textLength_eq_payloadLength {w : Word} {i : Instr} (h : decode w = .ok i) : Instr.textLength i = payloadLength w := by
  obtain ⟨o, h1, -, h3⟩ := decode_cases h
  rw [payloadLength, ← h1]
  cases o <;> simp only [decodeOperands, withSelector_ok, Except.ok.injEq] at h3
  all_goals try (subst h3; simp [Instr.textLength, Opcode.code])
  · obtain ⟨a, -, h3⟩ := h3
    split at h3 <;> cases h3
    simp [Instr.textLength, Opcode.code]
  all_goals obtain ⟨a, -, h3⟩ := h3
  all_goals try (subst h3; simp [Instr.textLength, Opcode.code])
  all_goals try (obtain ⟨b, -, h3⟩ := h3; subst h3; simp [Instr.textLength, Opcode.code])

theorem supplied_of_payload {w : Word} {i : Instr} {s : State} (h : decode w = .ok i)
    (hp : payloadLength w ≤ s.tin.length) : Supplied i s := by rw [Supplied, textLength_eq_payloadLength h]; exact hp

/-- What an illegal word does when its payload is there. -/
theorem illegal_next {w : Word} {s : State} (h : payloadLength w ≤ s.tin.length) : illegal w s = .next { s with
    tin := s.tin.drop (payloadLength w), responses := ⟨.illegalCommand, 0, []⟩ :: s.responses } := by
  unfold illegal payloadLength at *
  by_cases hp : opField w = 0x10#8 ∨ opField w = 0x14#8
  · rw [if_pos hp] at h ⊢
    rw [if_pos (by simpa [takesPayload] using hp), withText_of_supplied h]; rfl
  · rw [if_neg hp, if_neg (by simpa [takesPayload] using hp)]; rfl

/-! ## The session commands at their stage -/

theorem exec_of_not_supplied {i : Instr} {s : State} (h : ¬ Supplied i s) : exec i s = .fault .payloadWithheld := by
  cases i <;> simp [Supplied, Instr.textLength] at h
  · simp only [exec, execCount]; exact withText_of_withheld h _
  · simp only [exec, execEncode]; exact withText_of_withheld h _

theorem nsym_toNat (f : Sparse Freq) : (BitVec.ofNat 9 (presentSymbols f).length).toNat = (presentSymbols f).length := by
  have := presentSymbols_length_le f
  simp; omega

theorem gencodes_next {s : State} (h : s.stage = .treeBuilt) : exec .gencodes s = .next (State.respond { s with
      raw := rawCodes s.node s.root
      node := []
      root := 0#9
      stage := .rawCodesGenerated } .ok 0 []) := by
  simp only [exec, execGencodes]; rw [atStage_pass h]; rfl

theorem canon_next {s : State} (h : s.stage = .rawCodesGenerated) : exec .canon s = .next (State.respond { s with
      can := s.numberCodes.can
      stage := .canonicalCodesGenerated
      nextCode := 0
      curLen := 0#8 } .ok 0 []) := by
  simp only [exec, execCanon]; rw [atStage_pass h]; rfl

theorem encode_next {f : Bool} {n : Imm} {s : State} (hn : n.toNat ≤ s.tin.length) (h : s.stage = .canonicalCodesGenerated)
    {q : BitSeq} (hq : encodeText s.cfg.outCapBits.toNat (s.codeMap f) 0 BitSeq.empty (s.tin.take n.toNat) = .ok q) :
    exec (.encode f n) s = .next { s with
          tin := s.tin.drop n.toNat, out := q, stage := .encoded, responses := ⟨.ok, 0, []⟩ :: s.responses } := by
  simp only [exec, execEncode]
  rw [withText_of_supplied hn, atStage_pass (by exact h)]
  rw [State.codeMap] at hq
  simp only [State.codeMap, hq]; rfl

theorem encode_raises {f : Bool} {n : Imm} {s : State} (hn : n.toNat ≤ s.tin.length) (h : s.stage = .canonicalCodesGenerated)
    {e : Status} {info : Imm} (hq : encodeText s.cfg.outCapBits.toNat (s.codeMap f) 0 BitSeq.empty (s.tin.take n.toNat) = .error (e, info)) :
    exec (.encode f n) s = .next { s with
          tin := s.tin.drop n.toNat, responses := ⟨e, info, []⟩ :: s.responses } := by
  simp only [exec, execEncode]
  rw [withText_of_supplied hn, atStage_pass (by exact h)]
  rw [State.codeMap] at hq
  simp only [State.codeMap, hq]; rfl

/-! ## Selectors -/

theorem refuses_one {i : Instr} {a : Selector} {s : State} {k : BitSeq → Outcome} (hs : Instr.selectors i = [a])
    (h : exec i s = withSeq a s k) : RefusesSelectors i s := by
  unfold RefusesSelectors
  simp only [hs, List.mem_singleton, exists_eq_left, forall_eq, h]
  exact ⟨fun h => by rw [withSeq_tooEarly h]; rfl, fun _ h => by rw [withSeq_absent h]; rfl⟩

theorem refuses_bsapps {a : Selector} (ha : a ≠ .scr) (s : State) : RefusesSelectors (.bsapps a) s :=
  refuses_one (a := a) rfl (by simp only [exec, execBsapps]; rw [if_neg ha])

theorem refuses_bsbit (a : Selector) (n) (s : State) : RefusesSelectors (.bsbit a n) s :=
  refuses_one (a := a) rfl (by simp only [exec, execBsbit]; rfl)

theorem refuses_bslen (a : Selector) (s : State) : RefusesSelectors (.bslen a) s :=
  refuses_one (a := a) rfl (by simp only [exec, execBslen]; rfl)

theorem refuses_bsbytes (a : Selector) (s : State) : RefusesSelectors (.bsbytes a) s :=
  refuses_one (a := a) rfl (by simp only [exec, execBsbytes]; rfl)

theorem refuses_bsbin (a : Selector) (s : State) : RefusesSelectors (.bsbin a) s :=
  refuses_one (a := a) rfl (by simp only [exec, execBsbin]; rfl)

theorem refuses_bshex (a : Selector) (n) (s : State) : RefusesSelectors (.bshex a n) s :=
  refuses_one (a := a) rfl (by simp only [exec, execBshex]; rfl)

theorem refuses_bseq (a b : Selector) (s : State) : RefusesSelectors (.bseq a b) s := by
  unfold RefusesSelectors
  simp only [Instr.selectors, List.mem_cons, List.not_mem_nil, or_false, exists_eq_or_imp, exists_eq_left,
    forall_eq_or_imp, forall_eq, exec, execBseq]
  exact ⟨fun h => by rw [withSeqs_tooEarly h]; rfl, fun ⟨h1, h2⟩ h => by rw [withSeqs_absent h1 h2 h]; rfl⟩

theorem selectorsPass_iff (i : Instr) {s : State} :
    selectorsPass s.stage.code.toNat (Instr.selectors i) ↔ ∀ a ∈ Instr.selectors i, ¬ TooEarly s a := by
  constructor
  · rintro ⟨h1, h2, h3⟩ a ha
    cases a with
    | scr => simp [TooEarly]
    | out => have := h3 ha; simp only [TooEarly, not_not, Stage.encoded_iff]; omega
    | raw x => have := h1 x ha; simp only [TooEarly]; omega
    | can x => have := h2 x ha; simp only [TooEarly]; omega
  · intro h
    refine ⟨fun x hx => ?_, fun x hx => ?_, fun hx => ?_⟩
    · have := h _ hx; simp only [TooEarly] at this; omega
    · have := h _ hx; simp only [TooEarly] at this; omega
    · have := h _ hx; simp only [TooEarly, not_not, Stage.encoded_iff] at this
      have := s.stage.code_lt; omega

theorem hexPair_eq (v : Byte) : hexPair v = [hexDigits.getD (v.toNat / 16) 0, hexDigits.getD (v.toNat % 16) 0] := by
  revert v; decide +kernel

/-! ## Code lengths -/

theorem SessionInv.mapCodes {s : State} (hi : SessionInv s) (h : s.stage = .canonicalCodesGenerated) (f : Bool) :
    CodesFor s.freq (if f then s.can else s.raw) := by
  have h4 : 4 ≤ s.stage.code.toNat := by rw [h]; decide
  have h3 : 3 ≤ s.stage.code.toNat := by rw [h]; decide
  cases f
  · exact hi.raw h3
  · exact (hi.can h4).1

theorem SessionInv.mapLengths {s : State} (hi : SessionInv s) (h : s.stage = .canonicalCodesGenerated) (f : Bool) (x : Symbol) :
    ((codeBits (if f then s.can else s.raw) x).getD []).length = ((codeBits s.raw x).getD []).length := by
  have h4 : 4 ≤ s.stage.code.toNat := by rw [h]; decide
  cases f
  · rfl
  · have := (hi.can h4).2 x
    simp only [if_true]
    cases e1 : codeBits s.raw x <;> cases e2 : codeBits s.can x <;> simp_all

theorem sum_one_symbol (x : Symbol) : (allSymbols.map fun z => if z = x then 1 else 0).sum = 1 := by
  revert x; decide +kernel

theorem sum_by_symbol (g : Symbol → Nat) (text : List Byte) :
    (text.map g).sum = (allSymbols.map fun x => text.count x * g x).sum := by
  induction text with
  | nil => simp
  | cons b r ih =>
    have : ∀ x, (b :: r).count x * g x = r.count x * g x + (if x = b then g b else 0) := by
      intro x
      rw [List.count_cons]
      by_cases h : x = b
      · subst h; simp; ring
      · have : ¬ b = x := fun h' => h h'.symm
        simp [h, this]
    simp only [this, List.sum_map_add, List.map_cons, List.sum_cons, ih]
    have : (allSymbols.map fun x => if x = b then g b else 0).sum = g b := by
      have h1 := sum_one_symbol b
      have h2 : (fun x : Symbol => if x = b then g b else 0) = fun x => (if x = b then 1 else 0) * g b := by
        funext x; split <;> simp
      rw [h2, List.sum_map_mul_right, h1, one_mul]
    rw [this, Nat.add_comm]

theorem codeCost_all (freq : Sparse Freq) (g : Symbol → Nat) :
    codeCost freq g = (allSymbols.map fun x => (Sparse.read freq x.toNat).toNat * g x).sum := by
  unfold codeCost presentSymbols
  generalize allSymbols = l
  induction l with
  | nil => rfl
  | cons a l ih =>
    by_cases h : 1 ≤ (Sparse.read freq a.toNat).toNat
    · rw [List.filter_cons_of_pos (by simpa using h)]; simp [ih]
    · rw [List.filter_cons_of_neg (by simpa using h), ih]
      have : (Sparse.read freq a.toNat).toNat = 0 := by omega
      simp [this]

theorem textCode_length (t : Sparse BitSeq) (text : List Byte) :
    (textCode t text).length = (text.map fun b => ((codeBits t b).getD []).length).sum := by
  simp [textCode, List.length_flatMap]

theorem sum_text_eq_codeCost {freq : Sparse Freq} {text : List Byte} (hc : ∀ x : Symbol, (Sparse.read freq x.toNat).toNat = text.count x)
    (g : Symbol → Nat) : (text.map g).sum = codeCost freq g := by
  rw [sum_by_symbol, codeCost_all]
  simp only [hc]

theorem CodesFor.textCode_le {freq : Sparse Freq} {t : Sparse BitSeq} (hc : CodesFor freq t) (text : List Byte) :
    (textCode t text).length ≤ maxCodeLen * text.length := by
  induction text with
  | nil => simp
  | cons b r ih =>
    rw [textCode_cons, List.length_append, List.length_cons, Nat.mul_succ]
    have : ((codeBits t b).getD []).length ≤ maxCodeLen := by
      cases h : codeBits t b with
      | none => simp
      | some c => exact (hc.lengths b c h).2
    omega

theorem canonicalValue_next {t : Sparse BitSeq} {x y : Symbol} {cx cy : List Bool} (hx : codeBits t x = some cx)
    (hy : codeBits t y = some cy) (hlt : cx.length < cy.length ∨ (cx.length = cy.length ∧ x.toNat < y.toNat))
    (hno : ∀ z cz, codeBits t z = some cz → z ≠ x → z ≠ y →
        ¬ ((cx.length < cz.length ∨ (cx.length = cz.length ∧ x.toNat < z.toNat)) ∧
          (cz.length < cy.length ∨ (cz.length = cy.length ∧ z.toNat < y.toNat)))) :
    canonicalValue t cy.length y = (canonicalValue t cx.length x + 1) * 2 ^ (cy.length - cx.length) := by
  have hle : cx.length ≤ cy.length := by omega
  have h1 : canonicalValue t cx.length x + 1 = canonicalValue t cx.length x +
    (allSymbols.map fun z => if z = x then 1 else 0).sum := by rw [sum_one_symbol]
  rw [h1, canonicalValue, canonicalValue, ← List.sum_map_add, ← List.sum_map_mul_right]
  refine congrArg List.sum (List.map_congr_left fun z _ => ?_)
  cases hz : codeBits t z with
  | none =>
    have : z ≠ x := by rintro rfl; simp [hz] at hx
    simp [this]
  | some cz =>
    dsimp only
    by_cases hzx : z = x
    · subst hzx
      rw [hz] at hx; cases hx
      rw [if_pos hlt, if_neg (by omega)]; simp
    · have hne : z.toNat ≠ x.toNat := fun h => hzx (BitVec.eq_of_toNat_eq h)
      by_cases hzy : z = y
      · subst hzy
        rw [hz] at hy; cases hy
        rw [if_neg (by omega), if_neg (by omega), if_neg hzx]; simp
      · have := hno z cz hz hzx hzy
        by_cases hb : cz.length < cx.length ∨ (cz.length = cx.length ∧ z.toNat < x.toNat)
        · rw [if_pos (by omega), if_pos hb, if_neg hzx, Nat.add_zero, ← pow_add]
          congr 1; omega
        · rw [if_neg (by omega), if_neg hb, if_neg hzx]; simp

end Sys2Proof.Machine
end

