-- ==== Sys2Proof/Laws/Transient.lean ====
section
/-! SUPPORT. What the loops of `BUILD` and `CANON` do not read: the transient registers as they were before the command, `SCR`,
and, for the numbering, the raw codes themselves (10_state.md R20, R31; 43_canonicalizer.md R121). -/

namespace Sys2Proof.Machine

theorem addLeaf_numbering (s : State) (x : Symbol) (nc : Nat) (cl : BitVec 8) (q : BitSeq) :
    State.addLeaf { s with nextCode := nc, curLen := cl, scr := q } x =
      { s.addLeaf x with nextCode := nc, curLen := cl, scr := q } := rfl

theorem foldl_addLeaf_numbering (l : List Symbol) (s : State) (nc : Nat) (cl : BitVec 8) (q : BitSeq) :
    l.foldl State.addLeaf { s with nextCode := nc, curLen := cl, scr := q } =
      { l.foldl State.addLeaf s with nextCode := nc, curLen := cl, scr := q } := by
  induction l generalizing s with
  | nil => rfl
  | cons x l ih => rw [List.foldl_cons, List.foldl_cons, ← ih, addLeaf_numbering]

theorem mergeOnce_numbering (s : State) (nc : Nat) (cl : BitVec 8) (q : BitSeq) :
    State.mergeOnce { s with nextCode := nc, curLen := cl, scr := q } =
      { s.mergeOnce with nextCode := nc, curLen := cl, scr := q } := by
  simp only [State.mergeOnce]
  cases extractMin s.node s.pool with
  | none => rfl
  | some p =>
    obtain ⟨a, rest⟩ := p
    simp only
    cases extractMin s.node rest <;> rfl

theorem mergeLoop_numbering (k : Nat) (s : State) (nc : Nat) (cl : BitVec 8) (q : BitSeq) :
    State.mergeLoop k { s with nextCode := nc, curLen := cl, scr := q } =
      { s.mergeLoop k with nextCode := nc, curLen := cl, scr := q } := by
  induction k generalizing s with
  | zero => rfl
  | succ k ih =>
    simp only [State.mergeLoop]
    split
    · rw [mergeOnce_numbering, ih]
    · rfl

/-- `BUILD` reads neither a transient register nor `SCR`. -/
theorem buildTree_transient (s : State) (tie : NodeIx) (pool : List NodeIx) (nc : Nat) (cl : BitVec 8) (q : BitSeq) :
    State.buildTree { s with tie := tie, pool := pool, nextCode := nc, curLen := cl, scr := q } =
      { s.buildTree with nextCode := nc, curLen := cl, scr := q } := by
  have h : State.plantLeaves { s with tie := tie, pool := pool, nextCode := nc, curLen := cl, scr := q } =
      { s.plantLeaves with nextCode := nc, curLen := cl, scr := q } :=
    foldl_addLeaf_numbering (presentSymbols s.freq) { s with tie := 0#9, pool := [] } nc cl q
  rw [State.buildTree, h, mergeLoop_numbering]; rfl

theorem foldl_numberSymbol_others (l : List (Nat × Symbol)) (s : State) (u : Sparse BitSeq) (tie : NodeIx)
    (pool : List NodeIx) (q : BitSeq) : l.foldl State.numberSymbol { s with raw := u, tie := tie, pool := pool, scr := q } =
      { l.foldl State.numberSymbol s with raw := u, tie := tie, pool := pool, scr := q } := by
  induction l generalizing s with
  | nil => rfl
  | cons e l ih =>
    rw [List.foldl_cons, List.foldl_cons, ← ih]
    congr 1
    simp only [State.numberSymbol, State.raiseLength, State.assignCode]
    split <;> rfl

/-- `CANON` reads neither a transient register nor `SCR`. -/
theorem numberCodes_transient (s : State) (tie : NodeIx) (pool : List NodeIx) (nc : Nat) (cl : BitVec 8) (q : BitSeq) :
    State.numberCodes { s with tie := tie, pool := pool, nextCode := nc, curLen := cl, scr := q } =
      { s.numberCodes with tie := tie, pool := pool, scr := q } := by
  have h := foldl_numberSymbol_others (sortedLengths s.raw) { s with can := [], nextCode := 0, curLen := 0#8 } s.raw tie pool q
  have hr : ∀ l : List (Nat × Symbol), ∀ s : State, (l.foldl State.numberSymbol s).raw = s.raw := by
    intro l
    induction l with
    | nil => exact fun _ => rfl
    | cons e l ih => intro s; rw [List.foldl_cons, ih]; simp [State.numberSymbol]
  have h0 : State.numberCodes { s with tie := tie, pool := pool, nextCode := nc, curLen := cl, scr := q } =
      { s.numberCodes with raw := s.raw, tie := tie, pool := pool, scr := q } := h
  rw [h0]
  have := hr (sortedLengths s.raw) { s with can := [], nextCode := 0, curLen := 0#8 }
  have hraw : s.numberCodes.raw = s.raw := this
  rw [← hraw]

end Sys2Proof.Machine
end

