-- ==== Sys2Proof/Tests/Slice0.lean ====
section
/-! SUPPORT. Tests: words written out from 30_encoding.md R61 and R66 and one step of each command on the
examples of the spec, and a state that meets the premises of each statement. -/

open Sys2Proof Sys2Proof.Machine

namespace Sys2Proof.Tests

set_option Elab.async false

/-! ## Helpers -/

/-- The next state of an outcome. -/
def stateAfter : Outcome → Option State
  | .next t => some t
  | .fault _ => none
  | .refused _ => none

/-- The response a command gives. -/
def answer (i : Instr) (s : State) : Option Response := (stateAfter (exec i s)).bind fun t => t.responses.head?

/-- Part of the state after a command. -/
def after {α : Type} (i : Instr) (s : State) (g : State → α) : Option α := (stateAfter (exec i s)).map g

/-- A code table as bits. -/
def tableBits (t : Sparse BitSeq) : List (Nat × List Bool) := t.map fun e => (e.1, e.2.bits)

/-- `"AAAABBBCCCDDEEF"`, the text of the source's scenario (44_encoder.md R136). -/
def scenarioText : List Byte :=
  [0x41, 0x41, 0x41, 0x41, 0x42, 0x42, 0x42, 0x43, 0x43, 0x43, 0x44, 0x44, 0x45, 0x45, 0x46]

/-- Its counts (R136). -/
def scenarioFreq : Sparse Freq := [(65, 4), (66, 3), (67, 3), (68, 2), (69, 2), (70, 1)]

/-- Its leaves and its merges (42_tree_builder.md R104). -/
def scenarioNode : Sparse Node :=
  [(0, .leaf 65 4 0), (1, .leaf 66 3 1), (2, .leaf 67 3 2), (3, .leaf 68 2 3), (4, .leaf 69 2 4), (5, .leaf 70 1 5),
    (6, .internal 3 6 5 3), (7, .internal 5 7 4 1), (8, .internal 6 8 2 6), (9, .internal 9 9 0 7),
    (10, .internal 15 10 8 9)]

/-- `A=10, B=111, C=00, D=011, E=110, F=010` (R136). -/
def scenarioRaw : Sparse BitSeq :=
  [(65, .ofBits [true, false]), (66, .ofBits [true, true, true]), (67, .ofBits [false, false]),
    (68, .ofBits [false, true, true]), (69, .ofBits [true, true, false]), (70, .ofBits [false, true, false])]

/-- `A=00, B=100, C=01, D=101, E=110, F=111` (R136). -/
def scenarioCan : Sparse BitSeq :=
  [(65, .ofBits [false, false]), (66, .ofBits [true, false, false]), (67, .ofBits [false, true]),
    (68, .ofBits [true, false, true]), (69, .ofBits [true, true, false]), (70, .ofBits [true, true, true])]

/-- The scenario at `FrequenciesCounted`. -/
def counted : State := { State.reset with stage := .frequenciesCounted, nsym := 6, freq := scenarioFreq }

/-- The scenario at `TreeBuilt`. -/
def built : State := { counted with stage := .treeBuilt, node := scenarioNode, root := 10 }

/-- The scenario at `RawCodesGenerated`. -/
def coded : State := { counted with stage := .rawCodesGenerated, raw := scenarioRaw }

/-- The scenario at `CanonicalCodesGenerated`, the text delivered again. -/
def canonical : State := { coded with stage := .canonicalCodesGenerated, can := scenarioCan, tin := scenarioText }

/-- The scenario at `Encoded`: 38 bits, bytes `00 92 2B 6E DC` (R136). -/
def encoded : State :=
  { canonical with stage := .encoded, tin := [], out := ⟨38, [(1, 0x92), (2, 0x2B), (3, 0x6E), (4, 0xDC)]⟩ }

/-- `"AAAA"` at `FrequenciesCounted`. -/
def loneCounted : State := { State.reset with stage := .frequenciesCounted, nsym := 1, freq := [(65, 4)] }

/-- `"AAAA"` at `TreeBuilt` (42_tree_builder.md R106). -/
def loneBuilt : State := { loneCounted with stage := .treeBuilt, node := [(0, .leaf 65 4 0)] }

/-- `"AAAA"` at `CanonicalCodesGenerated` (R108, 43_canonicalizer.md R120). -/
def loneCanonical : State :=
  { loneCounted with
    stage := .canonicalCodesGenerated
    raw := [(65, .ofBits [false])]
    can := [(65, .ofBits [false])]
    tin := [0x41, 0x41, 0x41, 0x41] }

/-- Scratch `1011`, one byte `B0` (41_bit_sequence.md R83). -/
def scratch : State := { State.reset with scr := ⟨4, [(0, 0xB0)]⟩ }

/-- A reset state with room for `n` bits in either sequence. -/
def small (n : BitVec 32) (s : State) : State := { s with cfg := ⟨n, n⟩ }

/-! ## WellFormed -/

theorem test_bsapps_scr_is_ill_formed : (Instr.bsapps .scr).wellFormed = false := by decide

theorem test_bsapps_out_is_well_formed : (Instr.bsapps .out).wellFormed = true := by decide

/-! ## Decoding: the fields of R61 with the opcodes of R66 -/

theorem test_decode_newsession : decode 0x0100000000000000#64 = .ok .newsession := by decide
theorem test_decode_rdstage : decode 0x0200000000000000#64 = .ok .rdstage := by decide
theorem test_decode_rdfreq : decode 0x0310400000000000#64 = .ok (.rdfreq 0x41) := by decide
theorem test_decode_count : decode 0x100000000000000F#64 = .ok (.count 15) := by decide
theorem test_decode_build : decode 0x1100000000000000#64 = .ok .build := by decide
theorem test_decode_gencodes : decode 0x1200000000000000#64 = .ok .gencodes := by decide
theorem test_decode_canon : decode 0x1300000000000000#64 = .ok .canon := by decide
theorem test_decode_encode : decode 0x140000080000000F#64 = .ok (.encode true 15) := by decide
theorem test_decode_bsclr : decode 0x2000000000000000#64 = .ok .bsclr := by decide
theorem test_decode_bsappb : decode 0x2100000800000000#64 = .ok (.bsappb true) := by decide
theorem test_decode_bsapps : decode 0x22D0800000000000#64 = .ok (.bsapps (.can 0x42)) := by decide
theorem test_decode_bsbit : decode 0x2340000000000008#64 = .ok (.bsbit .out 8) := by decide
theorem test_decode_bslen : decode 0x2440000000000000#64 = .ok (.bslen .out) := by decide
theorem test_decode_bsbytes : decode 0x2500000000000000#64 = .ok (.bsbytes .scr) := by decide
theorem test_decode_bsbin : decode 0x2690400000000000#64 = .ok (.bsbin (.raw 0x41)) := by decide
theorem test_decode_bshex : decode 0x27400000FFFFFFFF#64 = .ok (.bshex .out 0xFFFFFFFF) := by decide
theorem test_decode_bseq : decode 0x2891745000000000#64 = .ok (.bseq (.raw 0x45) (.can 0x45)) := by decide

/-- Field by field: `OP`, `KA`, `SA`, `KB`, `SB`, `F`, `RSV`, `IMM`. -/
theorem test_decode_bseq_fields :
    decode (0x28#8 ++ 0b10#2 ++ 0x45#8 ++ 0b11#2 ++ 0x5A#8 ++ 0b0#1 ++ 0b000#3 ++ 0x00000000#32) =
      .ok (.bseq (.raw 0x45) (.can 0x5A)) := by decide

theorem test_reserved_opcode : decode 0x1500000000000000#64 = .error .reservedOpcode := by decide
theorem test_rsv_not_zero : decode 0x1100000100000000#64 = .error .fieldNotZero := by decide
theorem test_out_selector_with_a_symbol : decode 0x2440400000000000#64 = .error .selectorSymbolNotZero := by decide
theorem test_second_selector_with_a_symbol : decode 0x2800001000000000#64 = .error .selectorSymbolNotZero := by decide
theorem test_self_append : decode 0x2200000000000000#64 = .error .selfAppend := by decide
theorem test_table_word : decodeTableWord 64 0x2340000000000008 = some (.bsbit .out 8) := by decide

/-! ## Lines of 95_test_vectors.md and 30_encoding.md R70, R71 -/

theorem test_read_bseq : AsmLine.read "BSEQ RAW['E'], CAN[0x45]".toList = some (.bseq (.raw 0x45) (.can 0x45)) := by
  decide +kernel
theorem test_read_payloads : AsmLine.read "ENCODE CAN, \"A,B\"".toList = some (.encodeCan [0x41, 0x2C, 0x42]) ∧
    AsmLine.read "COUNT x\"FF0080\"".toList = some (.count [0xFF, 0x00, 0x80]) := by decide +kernel
theorem test_read_pseudo : AsmLine.read "BSHEX SCR".toList = some (.bshexAll .scr) ∧
    AsmLine.read "BITS \"101\"".toList = some (.bits [true, false, true]) := by decide +kernel
theorem test_read_what_is_written :
    AsmLine.read (AsmLine.bsbit (.raw 200) 77).text.toList = some (.bsbit (.raw 200) 77) := by decide +kernel

/-! ## A step -/

/-- `COUNT` of three bytes, run as the first command after reset (log 18). -/
theorem test_first_command : (stateAfter (step (State.reset.withFetchWord 64 0x1000000000000003))).map
    (fun t => (t.stage, t.freq, t.moves, t.responses)) = some (.frequenciesCounted, [(0, 3)], [], [⟨.ok, 0, []⟩]) := by
  decide +kernel

/-- R172. -/
theorem test_reset_move : (stateAfter (step { encoded with moves := [.reset] })).map (fun t => (t.stage, t.out)) =
    some (.empty, BitSeq.empty) := by decide +kernel

/-- R72: an illegal word with the opcode of `COUNT` consumes its payload. -/
theorem test_illegal_count_word : (stateAfter (step { State.reset with moves := [.command 0x1000000100000002#64 [1, 2, 3]] })).map
    (fun t => (t.tin, t.responses)) = some ([3], [⟨.illegalCommand, 0, []⟩]) := by decide +kernel

/-! ## One step of each command -/

/-- R140, its example. -/
theorem test_newsession : after .newsession { encoded with scr := scratch.scr } (fun t => (t.stage, t.out.len, t.scr)) =
    some (.empty, 0, scratch.scr) := by decide +kernel

/-- R141, its example. -/
theorem test_rdstage : answer .rdstage counted = some ⟨.ok, 1, []⟩ := by decide +kernel

/-- R142, its examples. -/
theorem test_rdfreq : answer (.rdfreq 0x41) encoded = some ⟨.ok, 4, []⟩ ∧ answer (.rdfreq 0x5A) encoded = some ⟨.ok, 0, []⟩ := by
  decide +kernel
theorem test_rdfreq_at_empty : answer (.rdfreq 0x41) State.reset = some ⟨.usageOrder, 0, []⟩ := by decide +kernel

/-- R136: the counts of the scenario. -/
theorem test_count : after (.count 15) { State.reset with tin := scenarioText } (fun t => (t.freq, t.nsym)) =
    some (scenarioFreq, 6) := by decide +kernel
/-- R100: the empty text is counted. -/
theorem test_count_empty_text : after (.count 0) State.reset (fun t => (t.stage, t.nsym)) =
    some (.frequenciesCounted, 0) := by decide +kernel

/-- R104: the tree of the scenario. -/
theorem test_build : after .build counted (fun t => (t.node, t.root)) = some (scenarioNode, 10) := by decide +kernel
/-- 60_exceptions.md R154. -/
theorem test_build_empty : answer .build { counted with nsym := 0, freq := [] } = some ⟨.emptyInput, 0, []⟩ := by
  decide +kernel

/-- R107, its example. -/
theorem test_gencodes : after .gencodes built (fun t => tableBits t.raw) = some (tableBits scenarioRaw) := by decide +kernel
/-- R108. -/
theorem test_gencodes_lone : after .gencodes loneBuilt (fun t => tableBits t.raw) = some [(65, [false])] := by decide +kernel

/-- R120, its example. -/
theorem test_canon : after .canon coded (fun t => tableBits t.can) = some (tableBits scenarioCan) := by decide +kernel
theorem test_canon_too_early : answer .canon built = some ⟨.usageOrder, 0, []⟩ := by decide +kernel

/-- R136: `00 92 2B 6E DC`, and with the raw codes `AA FF 80 DE C8`. -/
theorem test_encode : after (.encode true 15) canonical (·.out) = some encoded.out ∧
    after (.encode false 15) canonical (·.out) =
      some ⟨38, [(0, 0xAA), (1, 0xFF), (2, 0x80), (3, 0xDE), (4, 0xC8)]⟩ := by decide +kernel
/-- R132: the index of the first byte with no code. -/
theorem test_encode_unknown : answer (.encode true 3) { canonical with tin := [0x41, 0x42, 0x5A] } =
    some ⟨.unknownSymbol, 2, []⟩ := by decide +kernel

/-- R82. -/
theorem test_bsclr : after .bsclr scratch (·.scr) = some ⟨0, []⟩ := by decide +kernel

/-- R83: the fourth bit of `B0`, and the ninth bit, which begins a byte. -/
theorem test_bsappb : after (.bsappb true) { scratch with scr := ⟨3, [(0, 0xA0)]⟩ } (·.scr) = some ⟨4, [(0, 0xB0)]⟩ ∧
    after (.bsappb true) { scratch with scr := ⟨8, [(0, 0xFF)]⟩ } (·.scr) = some ⟨9, [(0, 0xFF), (1, 0x80)]⟩ := by
  decide +kernel
theorem test_bsappb_full : answer (.bsappb true) (small 4 scratch) = some ⟨.capacity, 0, []⟩ := by decide +kernel

/-- R84, its example: `CAN['A']` after `CAN['B']`. -/
theorem test_bsapps : after (.bsapps (.can 0x41)) { encoded with scr := ⟨3, [(0, 0x80)]⟩ } (·.scr) = some ⟨5, [(0, 0x80)]⟩ := by
  decide +kernel
/-- R84: nothing is appended when not all fits. -/
theorem test_bsapps_full : after (.bsapps .out) (small 38 { encoded with scr := ⟨1, [(0, 0x80)]⟩ })
    (fun t => (t.scr, t.responses)) = some (⟨1, [(0, 0x80)]⟩, [⟨.capacity, 0, []⟩]) := by decide +kernel

/-- R85, its examples. -/
theorem test_bsbit : answer (.bsbit .out 8) encoded = some ⟨.ok, 1, []⟩ ∧ answer (.bsbit .out 9) encoded = some ⟨.ok, 0, []⟩ ∧
    answer (.bsbit .out 38) encoded = some ⟨.ok, 0, []⟩ := by decide +kernel

/-- R86, its examples. -/
theorem test_bslen : answer (.bslen .out) encoded = some ⟨.ok, 38, []⟩ ∧
    answer (.bslen (.can 0x41)) encoded = some ⟨.ok, 2, []⟩ := by decide +kernel

/-- R87, its example. -/
theorem test_bsbytes : answer (.bsbytes .out) encoded = some ⟨.ok, 5, []⟩ := by decide +kernel

/-- R88: `100`, the code of `B` (R136). -/
theorem test_bsbin : answer (.bsbin (.can 0x42)) encoded = some ⟨.ok, 3, [0x31, 0x30, 0x30]⟩ := by decide +kernel
/-- R92: a symbol with no code. -/
theorem test_bsbin_absent : answer (.bsbin (.raw 0x5A)) encoded = some ⟨.unknownSymbol, 0, []⟩ := by decide +kernel

/-- R89, its examples: `B0`, and `0092` with the limit 2. -/
theorem test_bshex : answer (.bshex .scr 0xFFFFFFFF) scratch = some ⟨.ok, 2, [0x42, 0x30]⟩ ∧
    answer (.bshex .out 2) encoded = some ⟨.ok, 4, [0x30, 0x30, 0x39, 0x32]⟩ := by decide +kernel

/-- R90, its examples. -/
theorem test_bseq : answer (.bseq (.raw 0x45) (.can 0x45)) encoded = some ⟨.ok, 1, []⟩ ∧
    answer (.bseq (.raw 0x41) (.can 0x41)) encoded = some ⟨.ok, 0, []⟩ := by decide +kernel
/-- R92: both stage checks come before either presence check. -/
theorem test_bseq_stage_first : answer (.bseq (.raw 0x5A) .out) canonical = some ⟨.usageOrder, 0, []⟩ := by decide +kernel

/-! ## Trees, code tables and sessions of the scenario and of the lone symbol -/

theorem test_tree : TreeOf scenarioFreq scenarioNode 10 := by
  obtain ⟨root, h1, h2, -⟩ := buildTree_spec counted rfl (by decide +kernel) (by decide +kernel)
  have e1 : counted.buildTree.node = scenarioNode := by decide +kernel
  have e2 : counted.buildTree.pool = [10] := by decide +kernel
  rw [e2] at h1
  cases h1
  rw [e1] at h2
  exact h2

theorem test_lone_tree : TreeOf [(65, 4)] [(0, .leaf 65 4 0)] 0 := by
  obtain ⟨root, h1, h2, -⟩ := buildTree_spec loneCounted rfl (by decide +kernel) (by decide +kernel)
  have e1 : loneCounted.buildTree.node = [(0, .leaf 65 4 0)] := by decide +kernel
  have e2 : loneCounted.buildTree.pool = [0] := by decide +kernel
  rw [e2] at h1
  cases h1
  rw [e1] at h2
  exact h2

theorem test_raw_codes : CodesFor scenarioFreq scenarioRaw := by
  have h := (rawCodes_spec test_tree).1
  have e : rawCodes scenarioNode 10 = scenarioRaw := by decide +kernel
  rwa [e] at h

/-- What makes a state at `CanonicalCodesGenerated` a session. -/
theorem session_of {s : State} {node : Sparse Node} {root : NodeIx} (hs : StorageInv s) (hl : LifetimeInv s)
    (ht : freqTotal s.freq < 2 ^ 32) (hn : presentSymbols s.freq ≠ []) (hst : s.stage = .canonicalCodesGenerated)
    (tree : TreeOf s.freq node root) (hr : rawCodes node root = s.raw) (hc : s.numberCodes.can = s.can) : SessionInv s := by
  obtain ⟨h1, -, -, h4, -⟩ := rawCodes_spec tree
  rw [hr] at h1 h4
  obtain ⟨k1, k2, k3⟩ := numberCodes_spec s h1
  rw [hc] at k1 k2 k3
  refine ⟨hs, hl, ht, fun _ => hn, by simp [hst], fun _ => h1, fun _ => ⟨k1, k2⟩, fun _ => h4, fun _ x c hx => ?_⟩
  have := k2 x
  rw [hx] at this
  cases e1 : codeBits s.raw x with
  | none => simp [e1] at this
  | some d =>
    obtain ⟨e, j1, j2, j3⟩ := k3 x d e1
    rw [hx] at j1
    cases j1
    rw [j3, j2]

theorem test_storage : StorageInv canonical := by
  constructor <;> decide +kernel

theorem test_lifetime : LifetimeInv canonical := by
  constructor <;> decide +kernel

theorem test_session : SessionInv canonical :=
  session_of (node := scenarioNode) (root := 10) test_storage test_lifetime (by decide +kernel) (by decide +kernel) rfl
    test_tree (by decide +kernel) (by decide +kernel)

theorem test_lone_session : SessionInv loneCanonical :=
  session_of (node := [(0, .leaf 65 4 0)]) (root := 0) (by constructor <;> decide +kernel) (by constructor <;> decide +kernel)
    (by decide +kernel) (by decide +kernel) rfl test_lone_tree (by decide +kernel) (by decide +kernel)


/-! ## The premises of the statements are met

Each theorem names its statement; a clause with a range is met at the ends of the range. -/

/-- Both ends of each reserved range of R67. -/
theorem test_witness_ReservedOpcodesAreIllegal : (∀ o : Opcode, o.code ≠ opField 0x1500000000000000#64) ∧
    ∀ o ∈ Opcode.all, o.code ∉ [0x00#8, 0x04#8, 0x0F#8, 0x15#8, 0x1F#8, 0x29#8, 0xFF#8] :=
  ⟨fun o => by cases o <;> decide, by decide⟩

theorem test_witness_FieldsThatAreNoOperandAreZero : decode 0x1100000000000000#64 = .ok .build ∧
    Opcode.build.format.hasKA = false ∧ Opcode.build.format.hasSA = false ∧ Opcode.build.format.hasB = false ∧
    Opcode.build.format.hasF = false ∧ Opcode.build.format.hasImm = false := by decide

/-- No payload, a payload of exactly `IMM` bytes, and the empty payload. -/
theorem test_witness_IllegalWordsAreAnswered :
    (¬ LegalWord 0x1500000000000000#64 ∧ payloadLength 0x1500000000000000#64 ≤ ([] : List Byte).length) ∧
    (¬ LegalWord 0x1000000100000002#64 ∧ payloadLength 0x1000000100000002#64 = ([1, 2] : List Byte).length) ∧
    (¬ LegalWord 0x1440000000000000#64 ∧ payloadLength 0x1440000000000000#64 = ([] : List Byte).length) := by
  unfold LegalWord payloadLength; decide

/-- A line of one word, of two, with no limit; a selector that `BSAPPS` takes; a text of any byte count. -/
theorem test_witness_AssembledMovesAreFramed :
    (AsmLine.count [0x41, 0x42]).assemble = some [.command 0x1000000000000002#64 [0x41, 0x42]] ∧
    (AsmLine.bits [true, false]).assemble =
      some [.command 0x2100000800000000#64 [], .command 0x2100000000000000#64 []] ∧
    (AsmLine.bshexAll .out).assemble = some [.command 0x27400000FFFFFFFF#64 []] ∧ Selector.out ≠ .scr ∧
    ∀ n, (List.replicate n 0x41#8).length = n :=
  ⟨by decide, by decide, by decide, by decide, fun _ => List.length_replicate⟩

theorem test_witness_StepRunsTheDecodedCommand :
    ({ counted with moves := [.command 0x0200000000000000#64 []] } : State).moves =
      .command 0x0200000000000000#64 [] :: [] ∧ decode 0x0200000000000000#64 = .ok .rdstage := by decide

theorem test_witness_ResetGivesTheResetState : ({ encoded with moves := [.reset] } : State).moves = .reset :: [] := rfl

theorem test_witness_IdleStepHoldsTheState : encoded.moves = [] := rfl

/-- One byte short, and not short. -/
theorem test_witness_OnlyAWithheldPayloadStops :
    step { State.reset with moves := [.command 0x1000000000000002#64 [0x41]] } = .fault .payloadWithheld ∧
    (stateAfter (step { State.reset with moves := [.command 0x1000000000000002#64 [0x41, 0x42]] })).isSome := by
  exact ⟨rfl, by decide +kernel⟩

theorem test_witness_RdfreqReadsACount : State.reset.stage = .empty ∧ counted.stage ≠ .empty := by decide

/-- The whole of `tin`, and the empty text. -/
theorem test_witness_CountCountsTheText :
    ((15#32).toNat ≤ ({ State.reset with tin := scenarioText } : State).tin.length ∧ State.reset.stage = .empty) ∧
    ((0#32).toNat ≤ State.reset.tin.length ∧ counted.stage ≠ .empty) := by decide

theorem test_witness_CountsAddUpToTheTextLength :
    (15#32).toNat ≤ ({ State.reset with tin := scenarioText } : State).tin.length ∧ State.reset.stage = .empty := by decide

theorem test_witness_ExtractMinGivesTheLeastPair : ([0, 1, 2, 3, 4, 5] : List NodeIx) ≠ [] ∧
    (([0, 1, 2, 3, 4, 5] : List NodeIx).map (nodeTiebreaker scenarioNode)).Nodup := by decide

/-- The three clauses, the last, which is also for `RootFrequencyIsTheTotal`, with several symbols and with one. -/
theorem test_witness_BuildMakesTheTreeOfTheCounts :
    built.stage ≠ .frequenciesCounted ∧
    (({ counted with nsym := 0, freq := [] } : State).stage = .frequenciesCounted ∧
      ({ counted with nsym := 0, freq := [] } : State).nsym = 0) ∧
    ∀ s ∈ [counted, loneCounted], s.stage = .frequenciesCounted ∧ s.nsym ≠ 0 ∧
      s.nsym.toNat = (presentSymbols s.freq).length ∧ s.node = [] ∧ freqTotal s.freq < 2 ^ 32 := by decide +kernel

/-- Two states with one tree and another `SCR`, their text delivered. -/
theorem test_witness_TreeDoesNotDependOnTheSorter : TreeOf scenarioFreq scenarioNode 10 ∧
    (∀ s ∈ [({ built with tin := scenarioText } : State), { built with tin := scenarioText, scr := scratch.scr }],
      s.stage = .treeBuilt ∧ TreeOf s.freq s.node s.root ∧ s.freq = built.freq ∧ s.cfg = built.cfg ∧ s.out = built.out ∧
        (15#32).toNat ≤ s.tin.length) ∧
    ([5, 3, 1] : List NodeIx).Perm [1, 5, 3] ∧ (([5, 3, 1] : List NodeIx).map (nodeTiebreaker scenarioNode)).Nodup ∧
    extractMin scenarioNode [5, 3, 1] = some (5, [3, 1]) := by
  refine ⟨test_tree, fun s hs => ?_, by decide, by decide, by decide⟩
  rcases List.mem_cons.mp hs with rfl | hs
  · exact ⟨rfl, test_tree, rfl, rfl, rfl, by decide⟩
  · obtain rfl := List.mem_singleton.mp hs
    exact ⟨rfl, test_tree, rfl, rfl, rfl, by decide⟩

theorem test_witness_GencodesGivesTheTurns : coded.stage ≠ .treeBuilt ∧
    (loneBuilt.stage = .treeBuilt ∧ TreeOf loneBuilt.freq loneBuilt.node loneBuilt.root ∧
      (presentSymbols loneBuilt.freq).length = 1) ∧
    (built.stage = .treeBuilt ∧ TreeOf built.freq built.node built.root ∧ 2 ≤ (presentSymbols built.freq).length) :=
  ⟨by decide, ⟨rfl, test_lone_tree, by decide +kernel⟩, rfl, test_tree, by decide +kernel⟩

/-- Also for `RawCodeLengthIsBounded`. -/
theorem test_witness_RawCodesAreAPrefixCode : built.stage = .treeBuilt ∧ TreeOf built.freq built.node built.root :=
  ⟨rfl, test_tree⟩

/-- The eight bits of a symbol are a prefix code. -/
theorem test_witness_RawCodesAreMinimal : built.stage = .treeBuilt ∧ TreeOf built.freq built.node built.root ∧
    (∀ x ∈ presentSymbols built.freq, (List.range 8).map x.getLsbD ≠ []) ∧
    ∀ x ∈ presentSymbols built.freq, ∀ y ∈ presentSymbols built.freq,
      (List.range 8).map x.getLsbD <+: (List.range 8).map y.getLsbD → x = y :=
  ⟨rfl, test_tree, by decide +kernel, by decide +kernel⟩

theorem test_witness_CanonNumbersTheSymbols : built.stage ≠ .rawCodesGenerated ∧ coded.stage = .rawCodesGenerated ∧
    (∀ e ∈ coded.raw, e.2.len.toNat ≤ maxCodeLen) ∧
    codeBits coded.raw 0x5A = none ∧ codeBits coded.raw 0x41 = some [true, false] := by decide +kernel

/-- A property of the codes of a table, checked symbol by symbol. -/
theorem forall_codes {t : Sparse BitSeq} {p : Symbol → List Bool → Prop}
    (h : ∀ z : Symbol, ∀ c ∈ (codeBits t z).toList, p z c) : ∀ z c, codeBits t z = some c → p z c :=
  fun z c hc => h z c (by simp [hc])

/-- `C` and `B` follow one another across a change of length, `B` and `D` at one length. -/
theorem test_witness_CanonicalTableProperties : coded.stage = .rawCodesGenerated ∧ CodesFor coded.freq coded.raw ∧
    ∀ e ∈ [((0x43#8, [false, true]), (0x42#8, [true, false, false])),
        ((0x42#8, [true, false, false]), (0x44#8, [true, false, true]))],
      codeBits scenarioCan e.1.1 = some e.1.2 ∧ codeBits scenarioCan e.2.1 = some e.2.2 ∧
      (e.1.2.length < e.2.2.length ∨ (e.1.2.length = e.2.2.length ∧ e.1.1.toNat < e.2.1.toNat)) ∧
      ∀ z cz, codeBits scenarioCan z = some cz → z ≠ e.1.1 → z ≠ e.2.1 →
        ¬ ((e.1.2.length < cz.length ∨ (e.1.2.length = cz.length ∧ e.1.1.toNat < z.toNat)) ∧
          (cz.length < e.2.2.length ∨ (cz.length = e.2.2.length ∧ z.toNat < e.2.1.toNat))) := by
  refine ⟨rfl, test_raw_codes, fun e he => ?_⟩
  rcases List.mem_cons.mp he with rfl | he
  · exact ⟨by decide +kernel, by decide +kernel, by decide, forall_codes (by decide +kernel)⟩
  · obtain rfl := List.mem_singleton.mp he
    exact ⟨by decide +kernel, by decide +kernel, by decide, forall_codes (by decide +kernel)⟩

/-- `F` has the last code. -/
theorem test_witness_CanonicalNumbersFit : coded.stage = .rawCodesGenerated ∧ CodesFor coded.freq coded.raw ∧
    codeBits coded.raw 0x46 = some [false, true, false] ∧ 2 ≤ (presentSymbols coded.freq).length ∧
    codeBits scenarioCan 0x46 = some [true, true, true] ∧
    ∀ z cz, codeBits scenarioCan z = some cz → cz.length < 3 ∨ (cz.length = 3 ∧ z.toNat ≤ (0x46#8).toNat) :=
  ⟨rfl, test_raw_codes, by decide +kernel, by decide +kernel, by decide +kernel, forall_codes (by decide +kernel)⟩

theorem test_witness_CanonDependsOnLengthsOnly : coded.stage = .rawCodesGenerated ∧ SameLengths coded.raw scenarioCan :=
  ⟨rfl, by unfold SameLengths; decide +kernel⟩

/-- A wrong stage; an output that fits exactly; a byte with no code; a last code that is one bit too long. -/
theorem test_witness_EncodeConcatenatesTheCodes : coded.stage ≠ .canonicalCodesGenerated ∧
    ((small 38 canonical).stage = .canonicalCodesGenerated ∧ (15#32).toNat ≤ (small 38 canonical).tin.length ∧
      AllCoded (small 38 canonical).can scenarioText ∧
      (textCode (small 38 canonical).can scenarioText).length = (small 38 canonical).cfg.outCapBits.toNat) ∧
    (({ canonical with tin := [0x41, 0x5A, 0x42] } : State).tin.take (3#32).toNat = [0x41] ++ 0x5A :: [0x42] ∧
      AllCoded canonical.can [0x41] ∧ (textCode canonical.can [0x41]).length ≤ canonical.cfg.outCapBits.toNat ∧
      codeBits canonical.can 0x5A = none) ∧
    ((small 37 canonical).tin.take (15#32).toNat = scenarioText.take 14 ++ 0x46 :: [] ∧
      AllCoded (small 37 canonical).can (scenarioText.take 14) ∧
      (textCode (small 37 canonical).can (scenarioText.take 14)).length ≤ (small 37 canonical).cfg.outCapBits.toNat ∧
      codeBits (small 37 canonical).can 0x46 = some [true, true, true] ∧
      (small 37 canonical).cfg.outCapBits.toNat < (textCode (small 37 canonical).can (scenarioText.take 14)).length + 3) := by
  decide +kernel

theorem test_witness_EncodedTextDecodesToItself : SessionInv canonical ∧ canonical.stage = .canonicalCodesGenerated ∧
    (15#32).toNat ≤ canonical.tin.length ∧ (∀ b ∈ canonical.tin.take (15#32).toNat, b ∈ presentSymbols canonical.freq) ∧
    (textCode canonical.can (canonical.tin.take (15#32).toNat)).length ≤ canonical.cfg.outCapBits.toNat ∧
    (textCode canonical.raw (canonical.tin.take (15#32).toNat)).length ≤ canonical.cfg.outCapBits.toNat :=
  ⟨test_session, rfl, by decide +kernel, by decide +kernel, by decide +kernel, by decide +kernel⟩

theorem test_witness_EncodedLengthIsTheWeightedSum : SessionInv canonical ∧
    canonical.stage = .canonicalCodesGenerated ∧ (15#32).toNat ≤ canonical.tin.length ∧
    (∀ x : Symbol, (Sparse.read canonical.freq x.toNat).toNat = (canonical.tin.take (15#32).toNat).count x) ∧
    codeCost canonical.freq (fun x => ((codeBits canonical.raw x).getD []).length) ≤ canonical.cfg.outCapBits.toNat :=
  ⟨test_session, rfl, by decide +kernel, by decide +kernel, by decide +kernel⟩

theorem test_witness_LoneSymbolEncodesToZeros : SessionInv loneCanonical ∧
    loneCanonical.stage = .canonicalCodesGenerated ∧ presentSymbols loneCanonical.freq = [0x41] ∧
    loneCanonical.tin.take (4#32).toNat = List.replicate (4#32).toNat 0x41 ∧
    (4#32).toNat ≤ loneCanonical.cfg.outCapBits.toNat :=
  ⟨test_lone_session, rfl, by decide +kernel, by decide +kernel, by decide +kernel⟩

/-- A full scratch, and one with room for one bit. -/
theorem test_witness_BsappbAppendsOneBit : (small 4 scratch).cfg.scrCapBits.toNat < (small 4 scratch).scr.len.toNat + 1 ∧
    (small 5 scratch).scr.len.toNat + 1 ≤ (small 5 scratch).cfg.scrCapBits.toNat := by decide

/-- Each kind at the last stage that is too early for it, at the first that is not, with a symbol that has no code and with one
that has. For every statement with `RefusesSelectors` or `ResolvesTo`. -/
theorem test_witness_SelectorsResolveInTwoPhases :
    (TooEarly built (.raw 0x41) ∧ TooEarly coded (.can 0x41) ∧ TooEarly canonical .out) ∧
    (Absent coded (.raw 0x5A) ∧ Absent canonical (.can 0x5A)) ∧
    (ResolvesTo coded (.ofBits [true, false]) (.raw 0x41) ∧ ResolvesTo canonical (.ofBits [false, false]) (.can 0x41) ∧
      ResolvesTo encoded encoded.out .out ∧ ResolvesTo State.reset BitSeq.empty .scr) ∧
    (Instr.bseq (.raw 0x41) .out).wellFormed = true := by
  refine ⟨⟨(by decide : built.stage.code.toNat < 3), (by decide : coded.stage.code.toNat < 4),
    (by decide : canonical.stage ≠ .encoded)⟩, ⟨⟨?_, ?_⟩, ?_, ?_⟩, ⟨⟨?_, ?_⟩, ⟨?_, ?_⟩, ⟨rfl, rfl⟩, rfl⟩, rfl⟩ <;> decide +kernel

/-- `SCR` of 4 bits and `OUT` of 38: one bit short of room, and exactly enough. -/
theorem test_witness_BsappsAppendsASequence : Selector.out ≠ .scr ∧
    (opField 0x2210400000000000#64 = 0x22#8 ∧ kaField 0x2210400000000000#64 = 0#2) ∧
    ∀ c ∈ [41#32, 42#32], ResolvesTo (small c { encoded with scr := scratch.scr }) encoded.out .out ∧ scratch.scr.wf ∧
      ((small c { encoded with scr := scratch.scr }).cfg.scrCapBits.toNat < scratch.scr.len.toNat + encoded.out.len.toNat ↔
        c = 41#32) := by
  refine ⟨by decide, by decide, fun c hc => ⟨⟨rfl, rfl⟩, by decide +kernel, ?_⟩⟩
  rcases List.mem_cons.mp hc with rfl | hc
  · decide
  · obtain rfl := List.mem_singleton.mp hc
    decide

/-- The last bit, and the first index beyond it. -/
theorem test_witness_BsbitReadsOneBit : ResolvesTo encoded encoded.out .out ∧ (37#32).toNat < encoded.out.len.toNat ∧
    encoded.out.len.toNat ≤ (38#32).toNat := ⟨⟨rfl, rfl⟩, by decide, by decide⟩

theorem test_witness_BshexRendersThePackedBytes : ResolvesTo encoded encoded.out .out ∧ encoded.out.wf :=
  ⟨⟨rfl, rfl⟩, by decide +kernel⟩

theorem test_witness_BseqComparesBits : ResolvesTo encoded (.ofBits [true, true, false]) (.raw 0x45) ∧
    ResolvesTo encoded encoded.out .out ∧ (BitSeq.ofBits [true, true, false]).wf ∧ encoded.out.wf :=
  ⟨⟨by decide, by decide +kernel⟩, ⟨rfl, rfl⟩, by decide +kernel, by decide +kernel⟩

/-- Exactly the payload. -/
theorem test_witness_StageCheckTable : (Instr.encode true 15).wellFormed = true ∧ Supplied (.encode true 15) canonical ∧
    Supplied .build State.reset := by unfold Supplied; decide

/-- An unknown symbol, with exactly its payload, and an error of a command that is no `ENCODE`. -/
theorem test_witness_FailingCommandsChangeNothing : decode 0x1400000800000003#64 = .ok (.encode true 3) ∧
    payloadLength 0x1400000800000003#64 ≤ ([0x41, 0x42, 0x5A] : List Byte).length ∧
    (stateAfter (runWord 0x1400000800000003#64 { canonical with tin := [0x41, 0x42, 0x5A] })).map State.responses =
      some [⟨.unknownSymbol, 2, []⟩] ∧
    decode 0x2690400000000000#64 = .ok (.bsbin (.raw 0x41)) ∧
    (stateAfter (runWord 0x2690400000000000#64 built)).map State.responses = some [⟨.usageOrder, 0, []⟩] := by decide +kernel

/-- An output payload, and a command that writes. -/
theorem test_witness_OneResponsePerCommand : decode 0x2740000000000002#64 = .ok (.bshex .out 2) ∧
    (stateAfter (runWord 0x2740000000000002#64 encoded)).map State.responses = some [⟨.ok, 4, [0x30, 0x30, 0x39, 0x32]⟩] ∧
    decode 0x2000000000000000#64 = .ok .bsclr ∧ Instr.reads .bsclr = false ∧
    (stateAfter (runWord 0x2000000000000000#64 scratch)).map State.responses = some [⟨.ok, 0, []⟩] := by decide +kernel

/-- A success and each of the four errors that `exec` gives. -/
theorem test_witness_StatusCodesAndTheirCommands :
    (answer .build counted).map Response.status = some .ok ∧ (answer .build built).map Response.status = some .usageOrder ∧
    (answer (.bsbin (.raw 0x5A)) encoded).map Response.status = some .unknownSymbol ∧
    (answer .build { counted with nsym := 0, freq := [] }).map Response.status = some .emptyInput ∧
    (answer (.bsappb true) (small 4 scratch)).map Response.status = some .capacity := by decide +kernel

theorem test_witness_ReadCommandsArePure : Instr.reads (.bshex .out 2) = true := rfl

theorem test_witness_ScratchIsNoPartOfTheSession : Instr.scratchOnly (.bseq .scr .scr) = true ∧
    ({ encoded with scr := scratch.scr } : State).scr = scratch.scr ∧
    ({ encoded with scr := scratch.scr } : State).cfg.scrCapBits = scratch.cfg.scrCapBits ∧
    Instr.selectors .build = [] ∧ Instr.scratchOnly .build = false ∧ ∃ t, exec .build counted = .next t :=
  ⟨rfl, rfl, rfl, rfl, rfl, _, rfl⟩

/-- A command that moves `STAGE`. Also for `OnlyItsWritersChangeAPieceOfState` and `TransientRegistersCannotBeSeen`. -/
theorem test_witness_StageMovesOnlyByItsCommands : ∃ t, exec .build counted = .next t ∧ t.stage = .treeBuilt := ⟨_, rfl, rfl⟩

theorem test_witness_StepKeepsStorageAndLifetimes : StorageInv canonical ∧ LifetimeInv canonical ∧
    step canonical = .next canonical := ⟨test_storage, test_lifetime, rfl⟩

theorem test_witness_StepKeepsSession : SessionInv canonical ∧ step canonical = .next canonical := ⟨test_session, rfl⟩

/-- A fresh session whose host issues the five commands on a text. -/
def fresh (cap : BitVec 32) (n : Imm) (text : List Byte) : State :=
  { small cap State.reset with
    moves := [.command (encode (.count n)) text, .command (encode .build) [], .command (encode .gencodes) [],
      .command (encode .canon) [], .command (encode (.encode true n)) text] }

theorem session_fresh {cap : BitVec 32} {n : Imm} {text : List Byte} (hc : 1 ≤ cap.toNat) : SessionInv (fresh cap n text) := by
  refine ⟨⟨⟨hc, hc⟩, ?_, ?_, ?_, ?_, ?_, ?_, ?_, ?_, ?_, ?_, ?_, ?_, ?_⟩, ?_, ?_, ?_, ?_, ?_, ?_, ?_, ?_⟩
  case refine_14 => constructor <;> simp [fresh, small, State.reset, presentSymbols, allSymbols, Sparse.read]
  case refine_15 => show freqTotal [] < 2 ^ 32; decide +kernel
  case refine_10 => exact BitSeq.empty_wf
  case refine_12 => exact BitSeq.empty_wf
  all_goals simp [fresh, small, State.reset, Stage.code, Sparse.wf, BitSeq.empty]

/-- The scenario with an `OUT` of exactly its 38 bits; `"AAAA"`, whose best code has 4 bits, with an `OUT` of 4 and of 3. -/
theorem test_witness_FiveCommandsEncodeAText :
    (∀ cap ∈ [3#32, 4#32, 38#32], SessionInv (fresh cap 15 scenarioText) ∧ SessionInv (fresh cap 4 loneCanonical.tin)) ∧
    (fresh 38 15 scenarioText).stage = .empty ∧ (fresh 38 15 scenarioText).tin = [] ∧ 15#32 ≠ 0 ∧
    scenarioText.length = (15#32).toNat ∧ loneCanonical.tin.length = (4#32).toNat ∧
    (PrefixCodeOn scenarioText (fun x => (codeBits scenarioCan x).getD []) ∧
      (scenarioText.flatMap fun x => (codeBits scenarioCan x).getD []).length = (fresh 38 15 scenarioText).cfg.outCapBits.toNat) ∧
    (PrefixCodeOn loneCanonical.tin (fun _ => [false]) ∧ (loneCanonical.tin.flatMap fun _ => [false]).length =
      (fresh 4 4 loneCanonical.tin).cfg.outCapBits.toNat) ∧
    ∀ u, PrefixCodeOn loneCanonical.tin u →
      (fresh 3 4 loneCanonical.tin).cfg.outCapBits.toNat < (loneCanonical.tin.flatMap u).length := by
  refine ⟨fun cap h => ?_, rfl, rfl, by decide, rfl, rfl, ⟨⟨by decide +kernel, by decide +kernel⟩, by decide +kernel⟩,
    ⟨⟨fun _ _ => by simp, by decide⟩, rfl⟩, fun u hu => ?_⟩
  · have : 1 ≤ cap.toNat := (show ∀ c ∈ [3#32, 4#32, 38#32], 1 ≤ c.toNat by simp) cap h
    exact ⟨session_fresh this, session_fresh this⟩
  · have := List.length_pos_iff.mpr (hu.1 0x41#8 (by simp [loneCanonical]))
    show 3 < ([0x41#8, 0x41#8, 0x41#8, 0x41#8].flatMap u).length
    simp only [List.flatMap_cons, List.length_append]
    omega

end Sys2Proof.Tests
end

section
/-! PROOFS. The family 10_state.md: the reset values, `NEWSESSION`, and `SCR` apart from the session. -/

namespace Sys2Proof.Machine

/-! ## The commands that use only `SCR` (10_state.md R30) -/

/-- A command on `SCR` that reads a result off it: what it answers is a function of `SCR` alone. -/
theorem withSeq_scr_agree {s s' : State} (hscr : s'.scr = s.scr) (res : BitSeq → Imm) (chars : BitSeq → List Byte) :
    ∃ r q, withSeq .scr s (fun p => ok (res p) (chars p) s) = .next { s with scr := q, responses := r :: s.responses } ∧
      withSeq .scr s' (fun p => ok (res p) (chars p) s') = .next { s' with scr := q, responses := r :: s'.responses } := by
  refine ⟨⟨.ok, res s.scr, chars s.scr⟩, s.scr, rfl, ?_⟩
  rw [← hscr]
  rfl

theorem execBsappb_agree {s s' : State} (b : Bool) (hscr : s'.scr = s.scr)
    (hcap : s'.cfg.scrCapBits = s.cfg.scrCapBits) :
    ∃ r q, execBsappb b s = .next { s with scr := q, responses := r :: s.responses } ∧
      execBsappb b s' = .next { s' with scr := q, responses := r :: s'.responses } := by
  unfold execBsappb
  rw [hscr, hcap]
  split
  · exact ⟨⟨.capacity, 0, []⟩, s.scr, rfl, by rw [← hscr]; rfl⟩
  · exact ⟨⟨.ok, 0, []⟩, s.scr.append b, rfl, rfl⟩

theorem exec_scratchOnly_agree {i : Instr} {s s' : State} (hi : Instr.scratchOnly i = true) (hscr : s'.scr = s.scr)
    (hcap : s'.cfg.scrCapBits = s.cfg.scrCapBits) :
    ∃ r q, exec i s = .next { s with scr := q, responses := r :: s.responses } ∧
      exec i s' = .next { s' with scr := q, responses := r :: s'.responses } := by
  cases i with
  | bsclr => exact ⟨⟨.ok, 0, []⟩, BitSeq.empty, rfl, rfl⟩
  | bsappb b => exact execBsappb_agree b hscr hcap
  | bsbit a n =>
    obtain rfl : a = .scr := eq_of_beq hi
    exact withSeq_scr_agree hscr (fun p => if p.bitAt n.toNat then 1 else 0) fun _ => []
  | bslen a =>
    obtain rfl : a = .scr := eq_of_beq hi
    exact withSeq_scr_agree hscr (fun p => p.len) fun _ => []
  | bsbytes a =>
    obtain rfl : a = .scr := eq_of_beq hi
    exact withSeq_scr_agree hscr (fun p => BitVec.ofNat 32 p.byteCount) fun _ => []
  | bsbin a =>
    obtain rfl : a = .scr := eq_of_beq hi
    exact withSeq_scr_agree hscr (fun p => p.len) fun p => p.bits.map bitChar
  | bshex a n =>
    obtain rfl : a = .scr := eq_of_beq hi
    exact withSeq_scr_agree hscr (fun p => BitVec.ofNat 32 (2 * min n.toNat p.byteCount)) fun p =>
      (List.range (min n.toNat p.byteCount)).flatMap fun k => hexPair (p.byteAt k)
  | bseq a b =>
    obtain ⟨ha, hb⟩ := Bool.and_eq_true_iff.mp hi
    obtain rfl : a = .scr := eq_of_beq ha
    obtain rfl : b = .scr := eq_of_beq hb
    exact withSeq_scr_agree hscr (fun p => if p.same p then 1 else 0) fun _ => []
  | newsession | rdstage | rdfreq | count | build | gencodes | canon | encode | bsapps => cases hi

/-! ## The commands that do not touch `SCR` -/

/-- An outcome with another `SCR` in its next state. -/
def withScr (q : BitSeq) : Outcome → Outcome
  | .next t => .next { t with scr := q }
  | .fault r => .fault r
  | .refused r => .refused r

theorem atStage_withScr (want : Stage) (s : State) (q : BitSeq) {k : State → Outcome}
    (hk : k { s with scr := q } = withScr q (k s)) :
    atStage want { s with scr := q } k = withScr q (atStage want s k) := by
  by_cases h : s.stage = want
  · rw [atStage_pass h, atStage_pass (s := { s with scr := q }) h, hk]
  · rw [atStage_fail h, atStage_fail (s := { s with scr := q }) h]
    rfl

theorem withText_withScr (n : Imm) (s : State) (q : BitSeq) {k : List Byte → State → Outcome}
    (hk : ∀ text t, k text { t with scr := q } = withScr q (k text t)) :
    withText n { s with scr := q } k = withScr q (withText n s k) := by
  by_cases h : n.toNat ≤ s.tin.length
  · rw [withText_of_supplied h, withText_of_supplied (s := { s with scr := q }) h]
    exact hk _ { s with tin := s.tin.drop n.toNat }
  · have h := Nat.lt_of_not_le h
    rw [withText_of_withheld h, withText_of_withheld (s := { s with scr := q }) h]
    rfl

theorem execRdfreq_withScr (x : Symbol) (s : State) (q : BitSeq) :
    execRdfreq x { s with scr := q } = withScr q (execRdfreq x s) := by
  unfold execRdfreq
  split <;> rfl

theorem execCount_withScr (n : Imm) (s : State) (q : BitSeq) :
    execCount n { s with scr := q } = withScr q (execCount n s) := by
  refine withText_withScr n s q fun text t => atStage_withScr _ t q ?_
  rfl

theorem execGencodes_withScr (s : State) (q : BitSeq) :
    execGencodes { s with scr := q } = withScr q (execGencodes s) := by
  refine atStage_withScr _ s q ?_
  rfl

theorem execBuild_withScr (s : State) (q : BitSeq) : execBuild { s with scr := q } = withScr q (execBuild s) := by
  refine atStage_withScr _ s q ?_
  have htree := buildTree_transient s s.tie s.pool s.nextCode s.curLen q
  simp only [htree]
  split <;> rfl

theorem execCanon_withScr (s : State) (q : BitSeq) : execCanon { s with scr := q } = withScr q (execCanon s) := by
  refine atStage_withScr _ s q ?_
  have hcodes := numberCodes_transient s s.tie s.pool s.nextCode s.curLen q
  simp only [hcodes]
  rfl

theorem execEncode_withScr (f : Bool) (n : Imm) (s : State) (q : BitSeq) :
    execEncode f n { s with scr := q } = withScr q (execEncode f n s) := by
  refine withText_withScr n s q fun text t => atStage_withScr _ t q ?_
  have hmap : State.codeMap { t with scr := q } f = t.codeMap f := rfl
  simp only [hmap]
  cases encodeText t.cfg.outCapBits.toNat (t.codeMap f) 0 BitSeq.empty text <;> rfl

/-- A stage, session or read-out command on a state with another `SCR` does the same and keeps it. -/
theorem exec_withScr {i : Instr} (hsel : Instr.selectors i = []) (hi : Instr.scratchOnly i = false) (s : State)
    (q : BitSeq) : exec i { s with scr := q } = withScr q (exec i s) := by
  cases i with
  | newsession => rfl
  | rdstage => rfl
  | rdfreq x => exact execRdfreq_withScr x s q
  | count n => exact execCount_withScr n s q
  | build => exact execBuild_withScr s q
  | gencodes => exact execGencodes_withScr s q
  | canon => exact execCanon_withScr s q
  | encode f n => exact execEncode_withScr f n s q
  | bsclr | bsappb => cases hi
  | bsapps | bsbit | bslen | bsbytes | bsbin | bshex | bseq => cases hsel

/-- Settles O49: a command on `SCR` alone answers by `SCR` and its capacity (`exec_scratchOnly_agree`), and a stage, session
or read-out command commutes with replacing `SCR` (`exec_withScr`). -/
theorem scratchIsNoPartOfTheSession : Obligations.ScratchIsNoPartOfTheSession := by
  refine ⟨fun i s s' hi hscr hcap => exec_scratchOnly_agree hi hscr hcap, fun i s t q hsel hi h => ?_⟩
  rw [exec_withScr hsel hi, h, withScr]

/-! ## Reset values (10_state.md R35, R36) -/

theorem BitSeq.empty_reads_zero : BitSeq.empty.len = 0 ∧ ∀ k, BitSeq.empty.bytes.read k = 0 :=
  ⟨BitSeq.empty_len, Sparse.read_nil⟩

/-- Settles O10: reset lists no array entry, and both its sequences are `BitSeq.empty`. -/
theorem resetValues : Obligations.ResetValues :=
  ⟨rfl, rfl, Sparse.read_nil, Sparse.entry_nil, rfl, Sparse.entry_nil, Sparse.entry_nil,
    BitSeq.empty_reads_zero, BitSeq.empty_reads_zero⟩

/-- Settles O13: `NEWSESSION` has no check, and `State.clearSession` is the update of R36. -/
theorem newsessionClearsAllButScratch : Obligations.NewsessionClearsAllButScratch :=
  ⟨by decide, fun s => ok_eq 0 [] s.clearSession⟩

end Sys2Proof.Machine
end

section
/-! PROOFS. The family 30_encoding.md: the reserved opcodes, the fields that must be 0, and the words that are no command. -/

namespace Sys2Proof

/-! ## Reserved opcodes (30_encoding.md R67) -/

theorem decode_reserved {w : Word} (h : ∀ o : Opcode, o.code ≠ opField w) : decode w = .error .reservedOpcode := by
  rw [decode, Opcode.ofCode_eq_none.mpr h]

/-- The ranges of R67, read off the opcode map at each of the 256 values. -/
theorem Opcode.ofCode_eq_none_iff_ranges : ∀ c : BitVec 8, Opcode.ofCode c = none ↔
    (c.toNat = 0 ∨ (0x04 ≤ c.toNat ∧ c.toNat ≤ 0x0F) ∨ (0x15 ≤ c.toNat ∧ c.toNat ≤ 0x1F) ∨ 0x29 ≤ c.toNat) := by
  decide

/-- Settles O4: an `OP` value is reserved exactly when the opcode map has no row for it, and such a word fails the first test. -/
theorem reservedOpcodesAreIllegal : Obligations.ReservedOpcodesAreIllegal := by
  refine ⟨fun c => ?_, by decide +kernel, fun _ => decode_reserved, by decide⟩
  rw [← Opcode.ofCode_eq_none]
  exact Opcode.ofCode_eq_none_iff_ranges c

/-! ## Fields that are no operand (30_encoding.md R65) -/

theorem operand_or_zero {n : Nat} {b : Bool} {x : BitVec n} (h : b = false → x = 0) : (bif b then x else 0) = x := by
  cases b
  · exact (h rfl).symm
  · rfl

/-- A word that passes the mask test of a row is the row's opcode, the operand fields of its format, and zeros. -/
theorem word_of_mask_test {o : Opcode} {w : Word} (h : w &&& o.mask = o.pattern) :
    fieldsWord o.code (bif o.format.hasKA then kaField w else 0) (bif o.format.hasSA then saField w else 0)
      (bif o.format.hasB then kbField w else 0) (bif o.format.hasB then sbField w else 0)
      (bif o.format.hasF then fField w else 0) 0 (bif o.format.hasImm then immField w else 0) = w := by
  obtain ⟨hop, hka, hsa, hkb, hsb, hf, hrsv, himm⟩ := (mask_test_iff o w).mp h
  rw [operand_or_zero hka, operand_or_zero hsa, operand_or_zero hkb, operand_or_zero hsb, operand_or_zero hf,
    operand_or_zero himm, ← hop, ← hrsv, word_eq_fields]

/-- A word that decodes is the word of its command: `word_of_mask_test`, with each operand read back from its field. -/
theorem encode_of_decode {w : Word} {i : Instr} (h : decode w = .ok i) : encode i = w := by
  obtain ⟨o, -, hmask, hi⟩ := decode_cases h
  have hw := word_of_mask_test hmask
  cases o with
  | newsession | rdstage | rdfreq | count | build | gencodes | canon | bsclr =>
    cases hi
    exact hw
  | encode | bsappb =>
    cases hi
    rw [encode, ofBool_flagOf]
    exact hw
  | bsapps =>
    obtain ⟨a, ha, hi⟩ := withSelector_ok.mp hi
    obtain ⟨hk, hs⟩ := selectorA_fields ha
    split at hi <;> cases hi
    rw [encode, formatSI, ← hk, ← hs]
    exact hw
  | bsbit | bslen | bsbytes | bsbin | bshex =>
    obtain ⟨a, ha, hi⟩ := withSelector_ok.mp hi
    obtain ⟨hk, hs⟩ := selectorA_fields ha
    cases hi
    rw [encode, formatSI, ← hk, ← hs]
    exact hw
  | bseq =>
    obtain ⟨a, ha, hi⟩ := withSelector_ok.mp hi
    obtain ⟨b, hb, hi⟩ := withSelector_ok.mp hi
    obtain ⟨hka, hsa⟩ := selectorA_fields ha
    obtain ⟨hkb, hsb⟩ := selectorB_fields hb
    cases hi
    rw [encode, ← hka, ← hsa, ← hkb, ← hsb]
    exact hw

/-- Settles O5: the mask test is a test of fields (`mask_test_iff`), and a command has one word (`encode_of_decode`). -/
theorem fieldsThatAreNoOperandAreZero : Obligations.FieldsThatAreNoOperandAreZero := by
  refine ⟨fun w i h => ?_, fun w v i hw hv => (encode_of_decode hw).symm.trans (encode_of_decode hv)⟩
  obtain ⟨o, -, hmask, hi⟩ := decode_cases h
  obtain ⟨-, hka, hsa, hkb, hsb, hf, hrsv, himm⟩ := (mask_test_iff o w).mp hmask
  rw [opcode_of_decodeOperands hi]
  exact ⟨hrsv, hka, hsa, fun hB => ⟨hkb hB, hsb hB⟩, hf, himm⟩

/-! ## The four tests (30_encoding.md R68) -/

theorem withSelector_isOk {e : Except DecodeError Selector} {k : Selector → Except DecodeError Instr} :
    (∃ i, withSelector e k = .ok i) ↔ ∃ a, e = .ok a ∧ ∃ i, k a = .ok i := by
  simp only [withSelector_ok]
  exact ⟨fun ⟨i, a, ha, hi⟩ => ⟨a, ha, i, hi⟩, fun ⟨a, ha, i, hi⟩ => ⟨i, a, ha, hi⟩⟩

theorem selectorA_isOk {w : Word} : (∃ a, selectorA w = .ok a) ↔ ((kaField w).toNat ≤ 1 → saField w = 0) :=
  Selector.ofFields_ok_iff _ _

theorem selectorB_isOk {w : Word} : (∃ b, selectorB w = .ok b) ↔ ((kbField w).toNat ≤ 1 → sbField w = 0) :=
  Selector.ofFields_ok_iff _ _

theorem Selector.kind_eq_zero {a : Selector} : a.kind = 0 ↔ a = .scr := by
  cases a <;> simp [Selector.kind]

/-- Test (4) on the selector is a test of its kind field. -/
theorem decodeOperands_bsapps_isOk {w : Word} : (∃ i, decodeOperands w .bsapps = .ok i) ↔
    (∃ a, selectorA w = .ok a) ∧ kaField w ≠ 0 := by
  rw [decodeOperands, withSelector_isOk, ← exists_and_right]
  refine exists_congr fun a => and_congr_right fun ha => ?_
  rw [(selectorA_fields ha).1, ne_eq, Selector.kind_eq_zero]
  by_cases h : a = .scr <;> simp [h]

/-- Tests (3) and (4) of R68. -/
theorem decodeOperands_isOk {w : Word} {o : Opcode} : (∃ i, decodeOperands w o = .ok i) ↔
    (o.format.hasKA = true → (kaField w).toNat ≤ 1 → saField w = 0) ∧
    (o.format.hasB = true → (kbField w).toNat ≤ 1 → sbField w = 0) ∧ (o = .bsapps → kaField w ≠ 0) := by
  rw [← selectorA_isOk, ← selectorB_isOk]
  cases o with
  | newsession | rdstage | rdfreq | count | build | gencodes | canon | encode | bsclr | bsappb =>
    simp [decodeOperands, Opcode.format, Format.hasKA, Format.hasB]
  | bsbit | bslen | bsbytes | bsbin | bshex | bseq =>
    simp [decodeOperands, withSelector_isOk, Opcode.format, Format.hasKA, Format.hasB]
  | bsapps =>
    rw [decodeOperands_bsapps_isOk]
    simp [Opcode.format, Format.hasKA, Format.hasB]

end Sys2Proof

namespace Sys2Proof.Machine

theorem legalWord_iff_decodes (w : Word) : LegalWord w ↔ ∃ i, decode w = .ok i := by
  constructor
  · rintro ⟨o, -, hop, hmask, htests⟩
    rw [decode_row hop.symm hmask]
    exact decodeOperands_isOk.mpr htests
  · rintro ⟨i, h⟩
    obtain ⟨o, hop, hmask, hi⟩ := decode_cases h
    exact ⟨o, o.mem_all, hop, hmask, decodeOperands_isOk.mp ⟨i, hi⟩⟩

theorem runWord_of_illegal {w : Word} (h : ¬ LegalWord w) (s : State) : runWord w s = illegal w s := by
  rw [legalWord_iff_decodes] at h
  unfold runWord
  split
  · next i hi => exact absurd ⟨i, hi⟩ h
  · rfl

/-- Settles O6: each test of R68 is a branch of the decoder (`legalWord_iff_decodes`), and a word that fails one is answered
by `illegal`. -/
theorem illegalWordsAreAnswered : Obligations.IllegalWordsAreAnswered := by
  refine ⟨legalWord_iff_decodes, fun w s h hp => ?_⟩
  rw [runWord_of_illegal h]
  exact illegal_next hp

end Sys2Proof.Machine
end

section
/-! PROOFS. The family 41_bit_sequence.md: what a Bit Sequence command answers, and the two phases of its selectors. -/

namespace Sys2Proof

/-! ## The word of a command decodes to the command -/

theorem encode_row (i : Instr) : Laws.EncodesItsRow.Statement i := by
  cases i with
  | newsession => exact Laws.EncodesItsRow.newsession
  | rdstage => exact Laws.EncodesItsRow.rdstage
  | rdfreq s => exact Laws.EncodesItsRow.rdfreq s
  | count n => exact Laws.EncodesItsRow.count n
  | build => exact Laws.EncodesItsRow.build
  | gencodes => exact Laws.EncodesItsRow.gencodes
  | canon => exact Laws.EncodesItsRow.canon
  | encode f n => exact Laws.EncodesItsRow.encode f n
  | bsclr => exact Laws.EncodesItsRow.bsclr
  | bsappb b => exact Laws.EncodesItsRow.bsappb b
  | bsapps a => exact Laws.EncodesItsRow.bsapps a
  | bsbit a n => exact Laws.EncodesItsRow.bsbit a n
  | bslen a => exact Laws.EncodesItsRow.bslen a
  | bsbytes a => exact Laws.EncodesItsRow.bsbytes a
  | bsbin a => exact Laws.EncodesItsRow.bsbin a
  | bshex a n => exact Laws.EncodesItsRow.bshex a n
  | bseq a b => exact Laws.EncodesItsRow.bseq a b

@[simp] theorem selectorA_fieldsWord (op : BitVec 8) (a : Selector) (kb : BitVec 2) (sb : BitVec 8) (f : BitVec 1)
    (rsv : BitVec 3) (imm : BitVec 32) : selectorA (fieldsWord op a.kind a.symbol kb sb f rsv imm) = .ok a :=
  selectorA_ok (by simp) (by simp)

@[simp] theorem selectorB_fieldsWord (op : BitVec 8) (ka : BitVec 2) (sa : BitVec 8) (b : Selector) (f : BitVec 1)
    (rsv : BitVec 3) (imm : BitVec 32) : selectorB (fieldsWord op ka sa b.kind b.symbol f rsv imm) = .ok b :=
  selectorB_ok (by simp) (by simp)

/-- The operands of a row, read back from the fields of a command's word. -/
theorem decodeOperands_encode {i : Instr} (h : i.wellFormed = true) : decodeOperands (encode i) i.opcode = .ok i := by
  cases i with
  | newsession | rdstage | build | gencodes | canon | bsclr => rfl
  | rdfreq | count => simp [decodeOperands, Instr.opcode, encode, assembleWord_eq]
  | encode | bsappb => simp [decodeOperands, Instr.opcode, encode, assembleWord_eq, flagOf_ofBool]
  | bsapps a =>
    have ha : a ≠ .scr := by simpa [Instr.wellFormed] using h
    simp [decodeOperands, Instr.opcode, encode, formatSI, assembleWord_eq, withSelector, ha]
  | bsbit | bslen | bsbytes | bsbin | bshex | bseq =>
    simp [decodeOperands, Instr.opcode, encode, formatSI, assembleWord_eq, withSelector]

/-- 30_encoding.md R62, R66: the converse of `encode_of_decode`. -/
theorem decode_encode {i : Instr} (h : i.wellFormed = true) : decode (encode i) = .ok i := by
  obtain ⟨hop, hmask⟩ := encode_row i
  rw [decode_row hop hmask, decodeOperands_encode h]

end Sys2Proof

namespace Sys2Proof.Machine

/-! ## Selectors (41_bit_sequence.md R92) -/

theorem not_resolves_of_tooEarly {s : State} {a : Selector} (h : TooEarly s a) (q : BitSeq) : ¬ ResolvesTo s q a :=
  fun hq => not_tooEarly_of_resolves hq h

theorem not_resolves_of_absent {s : State} {a : Selector} (h : Absent s a) (q : BitSeq) : ¬ ResolvesTo s q a := by
  intro hq
  have hsome := denote_of_resolves hq
  rw [denote_of_absent h] at hsome
  cases hsome

theorem refuses_of_no_selectors {i : Instr} (h : Instr.selectors i = []) (s : State) : RefusesSelectors i s := by
  simp [RefusesSelectors, h]

/-- Settles O43: the three cases of `selector_cases` exclude each other, and each command with a selector refuses it by `withSeq`
or `withSeqs`. -/
theorem selectorsResolveInTwoPhases : Obligations.SelectorsResolveInTwoPhases := by
  refine ⟨fun s a => ?_, fun i s hi => ?_⟩
  · rcases selector_cases s a with h | h | ⟨q, hq⟩
    · exact .inl ⟨h, fun ha => not_tooEarly_of_absent ha h, not_resolves_of_tooEarly h⟩
    · exact .inr (.inl ⟨not_tooEarly_of_absent h, h, not_resolves_of_absent h⟩)
    · exact .inr (.inr ⟨not_tooEarly_of_resolves hq, fun ha => not_resolves_of_absent ha q hq, q, hq,
        fun p hp => resolves_unique hp hq⟩)
  · cases i with
    | newsession | rdstage | rdfreq | count | build | gencodes | canon | encode | bsclr | bsappb =>
      exact refuses_of_no_selectors rfl s
    | bsapps a => exact refuses_bsapps (by simpa [Instr.wellFormed] using hi) s
    | bsbit a n => exact refuses_bsbit a n s
    | bslen a => exact refuses_bslen a s
    | bsbytes a => exact refuses_bsbytes a s
    | bsbin a => exact refuses_bsbin a s
    | bshex a n => exact refuses_bshex a n s
    | bseq a b => exact refuses_bseq a b s

/-! ## Commands that write `SCR` (41_bit_sequence.md R80 to R84) -/

/-- Settles O34: `BSCLR` has no check, and it leaves the empty sequence. -/
theorem bsclrEmptiesScratch : Obligations.BsclrEmptiesScratch := by
  obtain ⟨hlen, hread⟩ := BitSeq.empty_reads_zero
  exact ⟨by decide, fun s => ⟨_, ok_eq 0 [] { s with scr := BitSeq.empty }, hlen, hread, BitSeq.empty_bits, rfl⟩⟩

theorem bsappb_full {b : Bool} {s : State} (h : s.cfg.scrCapBits.toNat < s.scr.len.toNat + 1) :
    exec (.bsappb b) s = .next { s with responses := ⟨.capacity, 0, []⟩ :: s.responses } := by
  rw [exec, execBsappb, if_pos h, raise_eq]

theorem bsappb_fits {b : Bool} {s : State} (h : s.scr.len.toNat + 1 ≤ s.cfg.scrCapBits.toNat) :
    exec (.bsappb b) s =
      .next { s with scr := s.scr.append b, responses := ⟨.ok, 0, []⟩ :: s.responses } := by
  rw [exec, execBsappb, if_neg (Nat.not_lt.mpr h), ok_eq]

/-- 20_memory.md R41: the bits of the byte that an append writes, most significant first. -/
theorem BitSeq.append_getLsbD (q : BitSeq) (b : Bool) {j : Nat} (hj : j < 8) :
    ((q.append b).bytes.read (q.len.toNat / 8)).getLsbD (7 - j) =
      if j = q.len.toNat % 8 then b
      else if q.len.toNat % 8 = 0 then false
      else (q.bytes.read (q.len.toNat / 8)).getLsbD (7 - j) := by
  have hpos : 7 - j = 7 - q.len.toNat % 8 ↔ j = q.len.toNat % 8 := by omega
  rw [BitSeq.append_read, if_pos rfl, setBit_getLsbD _ _ _ _ (by omega) (by omega), if_congr hpos rfl rfl]
  split_ifs with _ hbegun
  · rfl
  · exact BitVec.getLsbD_zero
  · rfl

/-- Settles O35: the capacity test decides between `bsappb_full` and `bsappb_fits`, and a capacity is below `2^32`, so the length
register does not wrap. -/
theorem bsappbAppendsOneBit : Obligations.BsappbAppendsOneBit := by
  refine ⟨fun b => ?_, fun b s => ⟨bsappb_full, fun hfit => ?_⟩⟩
  · rw [word_bsappb]
    exact decode_encode rfl
  · have hlen : s.scr.len.toNat + 1 < 2 ^ 32 := by omega
    exact ⟨s.scr.append b, bsappb_fits hfit, BitSeq.append_len _ b hlen, BitSeq.bits_append _ b hlen,
      fun k => BitSeq.append_read_ne _ b, fun j => BitSeq.append_getLsbD _ b⟩

/-- R84, 30_encoding.md R68 (4): a word of `BSAPPS` that names `SCR` fails the last test of the decoder, and its opcode takes no
payload. -/
theorem runWord_bsapps_scr {w : Word} {s : State} (hop : opField w = 0x22#8) (hk : kaField w = 0#2) :
    runWord w s = .next { s with responses := ⟨.illegalCommand, 0, []⟩ :: s.responses } := by
  have hillegal : ¬ LegalWord w := by
    rintro ⟨o, -, hcode, -, -, -, hself⟩
    exact hself (Opcode.code_inj (hcode.trans hop)) hk
  have hpay : payloadLength w = 0 := by simp [payloadLength, hop]
  rw [runWord_of_illegal hillegal, illegal_next (hpay ▸ Nat.zero_le _), hpay, List.drop_zero]

section

variable {a : Selector} {s : State} {q : BitSeq}

theorem bsapps_full (ha : a ≠ .scr) (hq : ResolvesTo s q a) (h : s.cfg.scrCapBits.toNat < s.scr.len.toNat + q.len.toNat) :
    exec (.bsapps a) s = .next { s with responses := ⟨.capacity, 0, []⟩ :: s.responses } := by
  rw [exec, execBsapps, if_neg ha, withSeq_resolves hq, if_pos h, raise_eq]

theorem bsapps_fits (ha : a ≠ .scr) (hq : ResolvesTo s q a) (h : s.scr.len.toNat + q.len.toNat ≤ s.cfg.scrCapBits.toNat) :
    exec (.bsapps a) s =
      .next { s with scr := s.scr.appendSeq q, responses := ⟨.ok, 0, []⟩ :: s.responses } := by
  rw [exec, execBsapps, if_neg ha, withSeq_resolves hq, if_neg (Nat.not_lt.mpr h), ok_eq]

end

/-- Settles O36: `runWord_bsapps_scr` for the word that names `SCR`; else the capacity test decides between `bsapps_full` and
`bsapps_fits`, and `BitSeq.appendSeq_spec` says what the appended sequence is. -/
theorem bsappsAppendsASequence : Obligations.BsappsAppendsASequence := by
  refine ⟨fun w s => runWord_bsapps_scr, fun a ha => ?_, fun a s ha => ⟨refuses_bsapps ha s, fun q hq =>
    ⟨bsapps_full ha hq, fun hfit => ?_⟩⟩⟩
  · rw [word_formatS 0x22#8 .bsapps rfl]
    exact decode_encode (i := .bsapps a) (by simpa [Instr.wellFormed] using ha)
  · obtain ⟨hbits, hlen, hwf, hread⟩ := BitSeq.appendSeq_spec s.scr q (by omega)
    exact ⟨s.scr.appendSeq q, bsapps_fits ha hq hfit, hlen, hbits, hwf, hread⟩

/-! ## Commands that read a sequence (41_bit_sequence.md R85 to R91) -/

section

variable {a b : Selector} {s : State} {q p : BitSeq}

theorem bsbit_resolves (hq : ResolvesTo s q a) (n : Imm) : exec (.bsbit a n) s =
    .next { s with responses := ⟨.ok, if q.bitAt n.toNat then 1 else 0, []⟩ :: s.responses } :=
  withSeq_resolves hq _

theorem bslen_resolves (hq : ResolvesTo s q a) :
    exec (.bslen a) s = .next { s with responses := ⟨.ok, q.len, []⟩ :: s.responses } :=
  withSeq_resolves hq _

theorem bsbytes_resolves (hq : ResolvesTo s q a) : exec (.bsbytes a) s =
    .next { s with responses := ⟨.ok, BitVec.ofNat 32 q.byteCount, []⟩ :: s.responses } :=
  withSeq_resolves hq _

theorem bsbin_resolves (hq : ResolvesTo s q a) :
    exec (.bsbin a) s = .next { s with responses := ⟨.ok, q.len, q.bits.map bitChar⟩ :: s.responses } :=
  withSeq_resolves hq _

theorem bshex_resolves (hq : ResolvesTo s q a) (n : Imm) : exec (.bshex a n) s =
    .next { s with responses := ⟨.ok, BitVec.ofNat 32 (2 * min n.toNat q.byteCount),
      (List.range (min n.toNat q.byteCount)).flatMap fun k => hexPair (q.byteAt k)⟩ :: s.responses } :=
  withSeq_resolves hq _

theorem bseq_resolves (hq : ResolvesTo s q a) (hp : ResolvesTo s p b) : exec (.bseq a b) s =
    .next { s with responses := ⟨.ok, if q.bits = p.bits then 1 else 0, []⟩ :: s.responses } := by
  rw [exec, execBseq, withSeqs_resolves hq hp, ok_eq, if_congr (BitSeq.same_iff q p) rfl rfl]

end

theorem bitResult_eq (v : Bool) : (if v then 1 else 0 : Imm) = (BitVec.ofBool v).setWidth 32 := by
  cases v <;> rfl

/-- R85: a bit within the length, by its place in the byte store. -/
theorem BitSeq.bitAt_of_lt {q : BitSeq} {i : Nat} (h : i < q.len.toNat) :
    q.bitAt i = (q.bytes.read (i / 8)).getLsbD (7 - i % 8) := if_pos h

theorem BitSeq.bitAt_of_le {q : BitSeq} {i : Nat} (h : q.len.toNat ≤ i) : q.bitAt i = false := if_neg (Nat.not_lt.mpr h)

/-- Settles O37: the result is `BitSeq.bitAt`, by its two cases. -/
theorem bsbitReadsOneBit : Obligations.BsbitReadsOneBit := by
  refine ⟨fun a n => ?_, fun a n s => ⟨refuses_bsbit a n s, fun q hq => ⟨q.bitAt n.toNat, ?_, BitSeq.bitAt_eq_getD q _,
    BitSeq.bitAt_of_lt, BitSeq.bitAt_of_le⟩⟩⟩
  · rw [word_formatSI 0x23#8 .bsbit rfl]
    exact decode_encode (i := .bsbit a n) rfl
  · rw [bsbit_resolves hq, bitResult_eq]

/-- Settles O38: the length register is the number of bits. -/
theorem bslenReadsTheLength : Obligations.BslenReadsTheLength := by
  refine ⟨fun a => ?_, fun a s => ⟨refuses_bslen a s, fun q hq => ⟨q.len, q.bits_length.symm, bslen_resolves hq⟩⟩⟩
  rw [word_formatS 0x24#8 .bslen rfl]
  exact decode_encode (i := .bslen a) rfl

/-- A length register of 32 bits bounds the byte count well below `2^32`. -/
theorem BitSeq.byteCount_le (q : BitSeq) : q.byteCount ≤ 2 ^ 29 := by
  have := q.len.isLt
  unfold BitSeq.byteCount
  omega

theorem BitSeq.byteCount_eq (q : BitSeq) : q.byteCount = (q.bits.length + 7) / 8 := by
  rw [BitSeq.bits_length, BitSeq.byteCount]

/-- Settles O39: the byte count fits the result (`BitSeq.byteCount_le`). -/
theorem bsbytesReadsTheByteCount : Obligations.BsbytesReadsTheByteCount := by
  refine ⟨fun a => ?_, fun a s => ⟨refuses_bsbytes a s, fun q hq => ⟨_, ?_, bsbytes_resolves hq⟩⟩⟩
  · rw [word_formatS 0x25#8 .bsbytes rfl]
    exact decode_encode (i := .bsbytes a) rfl
  · have := q.byteCount_le
    rw [BitVec.toNat_ofNat, Nat.mod_eq_of_lt (by omega), BitSeq.byteCount_eq]

/-- Settles O40: `bitChar` is the character of a bit. -/
theorem bsbinRendersEveryBit : Obligations.BsbinRendersEveryBit := by
  refine ⟨fun a => ?_, fun a s => ⟨refuses_bsbin a s, fun q hq => ⟨q.len, q.bits_length.symm, bsbin_resolves hq⟩⟩⟩
  rw [word_formatS 0x26#8 .bsbin rfl]
  exact decode_encode (i := .bsbin a) rfl

/-- R89: the two digits of a byte of storage in its form are those of the packed byte. -/
theorem BitSeq.hexPair_byteAt {q : BitSeq} (hq : q.wf) (k : Nat) : hexPair (q.byteAt k) =
    [hexDigits.getD (packByte q.bits k / 16) 0, hexDigits.getD (packByte q.bits k % 16) 0] := by
  rw [hexPair_eq, BitSeq.byteAt_eq_pack hq]

/-- Settles O41: each byte of the store is the packed byte (`BitSeq.hexPair_byteAt`), and the number of characters fits the
result (`BitSeq.byteCount_le`). -/
theorem bshexRendersThePackedBytes : Obligations.BshexRendersThePackedBytes := by
  refine ⟨fun a n => ?_, fun a n s => ⟨refuses_bshex a n s, fun q hq hwf => ⟨_, _, bshex_resolves hq n, ?_, ?_⟩⟩⟩
  · rw [word_formatSI 0x27#8 .bshex rfl]
    exact decode_encode (i := .bshex a n) rfl
  · have := q.byteCount_le
    rw [BitVec.toNat_ofNat, Nat.mod_eq_of_lt (by omega), BitSeq.byteCount_eq]
  · simp only [BitSeq.hexPair_byteAt hwf, BitSeq.byteCount_eq]

/-- R90: the same bits are the same length and the same bit at every index. -/
theorem BitSeq.bits_eq_iff (q p : BitSeq) :
    q.bits = p.bits ↔ q.bits.length = p.bits.length ∧ ∀ i < q.bits.length, q.bitAt i = p.bitAt i := by
  constructor
  · intro h
    exact ⟨by rw [h], fun i _ => by rw [BitSeq.bitAt_eq_getD, BitSeq.bitAt_eq_getD, h]⟩
  · rintro ⟨hlen, hbit⟩
    refine List.ext_getElem hlen fun i hi hi' => ?_
    rw [BitSeq.bits_getElem, BitSeq.bits_getElem, hbit i hi]

/-- R91, last sentence. -/
theorem BitSeq.bits_eq_iff_of_wf {q p : BitSeq} (hq : q.wf) (hp : p.wf) :
    q.bits = p.bits ↔ q.len = p.len ∧ q.bytes = p.bytes := by
  constructor
  · intro h
    rw [BitSeq.eq_of_bits hq hp h]
    exact ⟨rfl, rfl⟩
  · rintro ⟨hlen, hbytes⟩
    cases q; cases p; cases hlen; cases hbytes
    rfl

/-- Settles O42: `BitSeq.same` compares the lists of bits, and in canonical storage those are the storage. -/
theorem bseqComparesBits : Obligations.BseqComparesBits := by
  refine ⟨fun a b => ?_, fun a b s => ⟨refuses_bseq a b s, fun q p hq hp =>
    ⟨bseq_resolves hq hp, BitSeq.bits_eq_iff q p, BitSeq.bits_eq_iff_of_wf⟩⟩⟩
  rw [word_bseq]
  exact decode_encode rfl

end Sys2Proof.Machine
end

section
/-! PROOFS. The family 42_tree_builder.md: the counts of a text, the sorter's order, the tree of a Frequency Table and its
uniqueness, and the raw codes as turns. -/

namespace Sys2Proof.Machine

/-! ## Counting (42_tree_builder.md R100) -/

theorem count_next {n : Imm} {s : State} (hn : n.toNat ≤ s.tin.length) (h : s.stage = .empty) :
    exec (.count n) s = .next { s with
      tin := s.tin.drop n.toNat
      freq := countText (s.tin.take n.toNat)
      nsym := BitVec.ofNat 9 (presentSymbols (countText (s.tin.take n.toNat))).length
      stage := .frequenciesCounted
      responses := ⟨.ok, 0, []⟩ :: s.responses } := by
  simp only [exec, execCount]
  rw [withText_of_supplied hn, atStage_pass (by exact h), ok_eq]

theorem count_wrongStage {n : Imm} {s : State} (hn : n.toNat ≤ s.tin.length) (h : s.stage ≠ .empty) :
    exec (.count n) s = .next { s with
      tin := s.tin.drop n.toNat, responses := ⟨.usageOrder, 0, []⟩ :: s.responses } := by
  simp only [exec, execCount]
  rw [withText_of_supplied hn, atStage_fail (by exact h), raise_eq]

theorem length_take_imm_lt (n : Imm) (text : List Byte) : (text.take n.toNat).length < 2 ^ 32 :=
  (List.length_take_le _ _).trans_lt n.isLt

theorem presentSymbols_countText {text : List Byte} (h : text.length < 2 ^ 32) :
    presentSymbols (countText text) = allSymbols.filter fun x => 1 ≤ text.count x :=
  List.filter_congr fun x _ => by rw [read_countText h]

/-- Settles O16: the payload is there, and the stage decides between `count_next` and `count_wrongStage`; no count wraps, since
a text has fewer than `2^32` bytes. -/
theorem countCountsTheText : Obligations.CountCountsTheText := by
  refine ⟨fun n => ?_, fun n s hn => ⟨fun h => ⟨_, count_next hn h, fun x => ?_, ?_, rfl⟩, count_wrongStage hn⟩⟩
  · rw [word_count]
    exact decode_encode rfl
  · exact read_countText (length_take_imm_lt n s.tin) x
  · rw [nsym_toNat, presentSymbols_countText (length_take_imm_lt n s.tin)]

/-! ## The first in the sorter's order (42_tree_builder.md R102) -/

/-- `a` is the one of `P` that comes before every other. -/
def First (node : Sparse Node) (P : NodeIx → Prop) (a : NodeIx) : Prop := P a ∧ ∀ c, P c → c ≠ a → before node a c = true

/-- What comes first does not depend on how its set is held. -/
theorem First.unique {node : Sparse Node} {P : NodeIx → Prop} {a b : NodeIx} (ha : First node P a) (hb : First node P b) :
    a = b := by
  by_contra hne
  exact before_irrefl node a (before_trans (ha.2 b hb.1 (Ne.symm hne)) (hb.2 a ha.1 hne))

/-- R102: the sorter extracts the first of the pool. -/
theorem extractMin_first {node : Sparse Node} {pool : List NodeIx} (hd : (pool.map (nodeTiebreaker node)).Nodup)
    {a : NodeIx} {rest : List NodeIx} (h : extractMin node pool = some (a, rest)) : First node (· ∈ pool) a := by
  obtain ⟨ha, -, hmin⟩ := extractMin_spec h
  refine ⟨ha, fun c hc hca => ?_⟩
  have hties : nodeTiebreaker node a ≠ nodeTiebreaker node c := fun e => hca (List.inj_on_of_nodup_map hd ha hc e).symm
  exact (before_total hties).resolve_right (hmin c hc)

/-- Settles O18: the element extracted is the first of the pool, in the order that `before_iff` writes out. -/
theorem extractMinGivesTheLeastPair : Obligations.ExtractMinGivesTheLeastPair := by
  intro node pool hne hd
  obtain ⟨a, rest, h⟩ := extractMin_of_ne_nil node hne
  obtain ⟨ha, hfirst⟩ := extractMin_first hd h
  obtain ⟨-, rfl, -⟩ := extractMin_spec h
  exact ⟨a, h, ha, fun c hc hca => (before_iff node a c).mp (hfirst c hc hca)⟩

theorem extractMin_of_perm {node : Sparse Node} {pool pool' : List NodeIx} (hp : pool.Perm pool')
    (hd : (pool.map (nodeTiebreaker node)).Nodup) {a : NodeIx} {rest : List NodeIx}
    (h : extractMin node pool = some (a, rest)) : ∃ rest', extractMin node pool' = some (a, rest') ∧ rest.Perm rest' := by
  obtain ⟨ha, rfl, -⟩ := extractMin_spec h
  have hne : pool' ≠ [] := List.ne_nil_of_mem (hp.mem_iff.mp ha)
  obtain ⟨b, rest', h'⟩ := extractMin_of_ne_nil node hne
  have hfirst := extractMin_first ((hp.map _).nodup_iff.mp hd) h'
  simp only [← hp.mem_iff] at hfirst
  obtain rfl := (extractMin_first hd h).unique hfirst
  obtain ⟨-, rfl, -⟩ := extractMin_spec h'
  exact ⟨_, h', hp.erase a⟩

/-! ## `BUILD` (42_tree_builder.md R101) -/

theorem build_next {s : State} (h : s.stage = .frequenciesCounted) (hn : s.nsym ≠ 0) :
    exec .build s = .next { s with
      node := s.buildTree.node
      root := s.buildTree.pool.headD 0
      stage := .treeBuilt
      tie := 0#9
      pool := []
      responses := ⟨.ok, 0, []⟩ :: s.responses } := by
  simp only [exec, execBuild]
  rw [atStage_pass h, if_neg hn, ok_eq]

theorem build_empty {s : State} (h : s.stage = .frequenciesCounted) (hn : s.nsym = 0) :
    exec .build s = .next { s with responses := ⟨.emptyInput, 0, []⟩ :: s.responses } := by
  simp only [exec, execBuild]
  rw [atStage_pass h, if_pos hn, raise_eq]

theorem build_wrongStage {s : State} (h : s.stage ≠ .frequenciesCounted) :
    exec .build s = .next { s with responses := ⟨.usageOrder, 0, []⟩ :: s.responses } := by
  simp only [exec, execBuild]
  rw [atStage_fail h, raise_eq]

/-- 10_state.md R24. -/
theorem presentSymbols_ne_nil_of_nsym {s : State} (hn : s.nsym ≠ 0) (h : s.nsym.toNat = (presentSymbols s.freq).length) :
    presentSymbols s.freq ≠ [] := by
  intro hnil
  rw [hnil] at h
  exact hn (BitVec.eq_of_toNat_eq h)

/-- Settles O19: the two checks decide between the errors and `build_next`, and what the merges leave is the tree of the counts
(`buildTree_spec`). -/
theorem buildMakesTheTreeOfTheCounts : Obligations.BuildMakesTheTreeOfTheCounts := by
  refine ⟨by decide, fun s => ⟨build_wrongStage, build_empty, fun h hn hsym hnode htotal =>
    ⟨_, build_next h hn, ?_, rfl⟩⟩⟩
  obtain ⟨root, hpool, htree, -⟩ := buildTree_spec s hnode (presentSymbols_ne_nil_of_nsym hn hsym) htotal
  simpa only [hpool, List.headD_cons] using htree

/-! ## One Frequency Table has one tree (42_tree_builder.md R112) -/

/-- No merge before the one that makes `t` has taken `c`: `c` is in the pool of that merge. -/
def Untaken (node : Sparse Node) (t : Nat) (c : NodeIx) : Prop := c.toNat < t ∧ ∀ t' < t, ¬ ChildOf node c.toNat t'

section
variable {node node' : Sparse Node} {t : Nat}

theorem nodeFrequency_congr {a : NodeIx} (h : Sparse.entry node a.toNat = Sparse.entry node' a.toNat) :
    nodeFrequency node a = nodeFrequency node' a := by simp only [nodeFrequency, h]

theorem nodeTiebreaker_congr {a : NodeIx} (h : Sparse.entry node a.toNat = Sparse.entry node' a.toNat) :
    nodeTiebreaker node a = nodeTiebreaker node' a := by simp only [nodeTiebreaker, h]

theorem before_congr {a b : NodeIx} (ha : Sparse.entry node a.toNat = Sparse.entry node' a.toNat)
    (hb : Sparse.entry node b.toNat = Sparse.entry node' b.toNat) : before node a b = before node' a b := by
  simp only [before, nodeFrequency_congr ha, nodeFrequency_congr hb, nodeTiebreaker_congr ha, nodeTiebreaker_congr hb]

theorem untaken_congr (h : ∀ k < t, Sparse.entry node k = Sparse.entry node' k) :
    Untaken node t = Untaken node' t := by
  have hchild : ∀ c, ∀ t' < t, ChildOf node c t' ↔ ChildOf node' c t' := fun c t' ht' => by
    simp only [ChildOf, Children, h t' ht']
  funext c
  exact propext (and_congr_right fun _ => forall₂_congr fun t' ht' => not_congr (hchild _ t' ht'))

/-- Arenas that agree on a set have the same first of it. -/
theorem First.congr {P : NodeIx → Prop} (h : ∀ c, P c → Sparse.entry node c.toNat = Sparse.entry node' c.toNat) {a : NodeIx}
    (ha : First node P a) : First node' P a :=
  ⟨ha.1, fun c hc hca => before_congr (h a ha.1) (h c hc) ▸ ha.2 c hc hca⟩

end

namespace TreeOf

variable {freq : Sparse Freq} {node node' : Sparse Node} {root root' : NodeIx} {t : Nat} {l r l' r' : NodeIx}

/-- A node is in the pool of the merge that takes it (10_state.md R27). -/
theorem untaken_of_childOf (h : TreeOf freq node root) {c : NodeIx} (hc : ChildOf node c.toNat t) : Untaken node t c :=
  ⟨(h.childOf_lt hc).1, fun _ ht' hc' => ht'.ne (h.rightUnique hc' hc)⟩

/-- R105: the left child is the first of the pool. -/
theorem left_first (h : TreeOf freq node root) (hc : Children node t l r) : First node (Untaken node t) l := by
  obtain ⟨hlr, hrest⟩ := h.greedy t l r hc
  refine ⟨h.untaken_of_childOf ⟨l, r, hc, .inl rfl⟩, fun c hu hcl => ?_⟩
  by_cases hcr : c = r
  · exact hcr ▸ hlr
  · exact before_trans hlr (hrest c hu.1 hcl hcr hu.2)

/-- R105: the right child is the first of what the left leaves. -/
theorem right_first (h : TreeOf freq node root) (hc : Children node t l r) :
    First node (fun c => Untaken node t c ∧ c ≠ l) r := by
  obtain ⟨hlr, hrest⟩ := h.greedy t l r hc
  refine ⟨⟨h.untaken_of_childOf ⟨l, r, hc, .inr rfl⟩, ?_⟩, fun c ⟨hu, hcl⟩ hcr => hrest c hu.1 hcl hcr hu.2⟩
  rintro rfl
  exact before_irrefl node _ hlr

/-- A merge is decided by the nodes made before it. -/
theorem children_unique (h : TreeOf freq node root) (h' : TreeOf freq node' root')
    (hbelow : ∀ k < t, Sparse.entry node k = Sparse.entry node' k) (hc : Children node t l r)
    (hc' : Children node' t l' r') : l = l' ∧ r = r' := by
  have hu := untaken_congr hbelow
  have hl : First node' (Untaken node' t) l := hu ▸ (h.left_first hc).congr fun c hc => hbelow _ hc.1
  obtain rfl := hl.unique (h'.left_first hc')
  have hr : First node' (fun c => Untaken node' t c ∧ c ≠ l) r :=
    hu ▸ (h.right_first hc).congr fun c hc => hbelow _ hc.1.1
  exact ⟨rfl, hr.unique (h'.right_first hc')⟩

/-- By induction on the index: a leaf is given by the table, an internal node by the nodes before it. -/
theorem entry_unique (h : TreeOf freq node root) (h' : TreeOf freq node' root') (k : Nat) :
    Sparse.entry node k = Sparse.entry node' k := by
  induction k using Nat.strong_induction_on with
  | _ k ih =>
    by_cases hleaf : k < (presentSymbols freq).length
    · have hx := List.getElem?_eq_getElem hleaf
      rw [h.leaves k _ hx, h'.leaves k _ hx]
    by_cases hin : k + 1 < 2 * (presentSymbols freq).length
    · obtain ⟨f, l, r, e, hl, hr, -, hf⟩ := h.internals k (by omega) hin
      obtain ⟨f', l', r', e', -, -, -, hf'⟩ := h'.internals k (by omega) hin
      obtain ⟨rfl, rfl⟩ := h.children_unique h' ih ⟨_, _, e⟩ ⟨_, _, e'⟩
      have hff : f = f' := BitVec.eq_of_toNat_eq <| by
        rw [hf, hf', nodeFrequency_congr (ih _ hl), nodeFrequency_congr (ih _ hr)]
      rw [e, e', hff]
    · rw [Sparse.entry_range_none h.indices (by omega), Sparse.entry_range_none h'.indices (by omega)]

theorem rising (h : TreeOf freq node root) : Sparse.rising node := by
  rw [Sparse.rising, h.indices]
  exact List.pairwise_lt_range

/-- R112: the tree of a Frequency Table is unique. -/
theorem unique (h : TreeOf freq node root) (h' : TreeOf freq node' root') : node = node' ∧ root = root' := by
  refine ⟨Sparse.eq_of_entry h.rising h'.rising (h.entry_unique h'), BitVec.eq_of_toNat_eq ?_⟩
  have := h.rootLast
  have := h'.rootLast
  omega

end TreeOf

/-- `ENCODE` answers by the code tables, the payload and the capacity of `OUT`, and leaves the old `OUT` when it fails. -/
theorem encode_agree {s s' : State} {f : Bool} {n : Imm} (hn : n.toNat ≤ s.tin.length)
    (h : s.stage = .canonicalCodesGenerated) (h' : s'.stage = .canonicalCodesGenerated) (hraw : s'.raw = s.raw)
    (hcan : s'.can = s.can) (hcfg : s'.cfg = s.cfg) (htin : s'.tin = s.tin) (hout : s'.out = s.out) :
    ∃ t t' r, exec (.encode f n) s = .next t ∧ exec (.encode f n) s' = .next t' ∧ t'.out = t.out ∧
      t.responses = r :: s.responses ∧ t'.responses = r :: s'.responses := by
  have hn' : n.toNat ≤ s'.tin.length := htin ▸ hn
  have hrun : encodeText s'.cfg.outCapBits.toNat (s'.codeMap f) 0 BitSeq.empty (s'.tin.take n.toNat) =
      encodeText s.cfg.outCapBits.toNat (s.codeMap f) 0 BitSeq.empty (s.tin.take n.toNat) := by
    simp only [State.codeMap, hraw, hcan, hcfg, htin]
  cases hq : encodeText s.cfg.outCapBits.toNat (s.codeMap f) 0 BitSeq.empty (s.tin.take n.toNat) with
  | error e => exact ⟨_, _, _, encode_raises hn h hq, encode_raises hn' h' (hrun.trans hq), hout, rfl, rfl⟩
  | ok q => exact ⟨_, _, _, encode_next hn h hq, encode_next hn' h' (hrun.trans hq), rfl, rfl, rfl⟩

/-- What `CANON` leaves in `CAN` depends on `RAW` only. -/
theorem numberCodes_can_of_raw {s t : State} (h : s.raw = t.raw) : s.numberCodes.can = t.numberCodes.can :=
  numberCodes_can_congr (h ▸ fun _ => rfl)

/-- Settles O21: the tree is unique (`TreeOf.unique`) and so is the first of a pool (`extractMin_of_perm`); with one tree,
`GENCODES`, `CANON` and `ENCODE` read the same. -/
theorem treeDoesNotDependOnTheSorter : Obligations.TreeDoesNotDependOnTheSorter := by
  refine ⟨fun freq node node' root root' h h' => h.unique h', fun node pool pool' hp hd a rest h => extractMin_of_perm hp hd h,
    fun s s' hs hs' hfreq htree htree' => ?_⟩
  obtain ⟨hnode, hroot⟩ := (hfreq ▸ htree').unique htree
  have hraw : rawCodes s'.node s'.root = rawCodes s.node s.root := by rw [hnode, hroot]
  exact ⟨_, _, _, _, gencodes_next hs, gencodes_next hs', hraw, canon_next rfl, canon_next rfl, numberCodes_can_of_raw hraw,
    fun hcfg htin hout f n hn => encode_agree hn rfl rfl hraw (numberCodes_can_of_raw hraw) hcfg htin hout⟩

/-! ## `GENCODES` (42_tree_builder.md R107, R108) -/

theorem gencodes_wrongStage {s : State} (h : s.stage ≠ .treeBuilt) :
    exec .gencodes s = .next { s with responses := ⟨.usageOrder, 0, []⟩ :: s.responses } := by
  simp only [exec, execGencodes]
  rw [atStage_fail h, raise_eq]

/-- R108. -/
theorem rawCodes_lone {freq : Sparse Freq} {node : Sparse Node} {root : NodeIx} (h : TreeOf freq node root)
    (h1 : (presentSymbols freq).length = 1) (x : Symbol) (c : List Bool) :
    codeBits (rawCodes node root) x = some c ↔ x ∈ presentSymbols freq ∧ c = [false] := by
  obtain ⟨hcodes, -, -, hlone, -⟩ := rawCodes_spec h
  rw [mem_presentSymbols, ← hcodes.symbols x]
  constructor
  · intro hc
    exact ⟨Option.isSome_of_eq_some hc, hlone h1 x c hc⟩
  · rintro ⟨hsome, rfl⟩
    obtain ⟨d, hd⟩ := Option.isSome_iff_exists.mp hsome
    rw [hd, hlone h1 x d hd]

/-- R107. -/
theorem rawCodes_iff_descend {freq : Sparse Freq} {node : Sparse Node} {root : NodeIx} (h : TreeOf freq node root)
    (h2 : 2 ≤ (presentSymbols freq).length) (x : Symbol) (c : List Bool) :
    codeBits (rawCodes node root) x = some c ↔ ∃ f k, descend node root c = some (.leaf x f k) := by
  obtain ⟨-, -, -, -, hturns⟩ := rawCodes_spec h
  constructor
  · exact hturns h2 x c
  · rintro ⟨f, k, hd⟩
    exact rawCodes_of_descend h h2 hd

/-- Settles O22: `gencodes_next` leaves `rawCodes` of the tree, which `rawCodes_lone` and `rawCodes_iff_descend` describe. -/
theorem gencodesGivesTheTurns : Obligations.GencodesGivesTheTurns := by
  refine ⟨by decide, fun s => ⟨gencodes_wrongStage, fun h htree => ⟨_, gencodes_next h, rfl, ?_, ?_⟩⟩⟩
  · exact rawCodes_lone htree
  · exact rawCodes_iff_descend htree

end Sys2Proof.Machine
end

section
/-! PROOFS. The family 43_canonicalizer.md: the codes `CANON` gives, and the properties of the table they make. -/

namespace Sys2Proof.Machine

/-! ## Two tables of the same lengths -/

section
variable {t u : Sparse BitSeq}

theorem SameLengths.isSome_eq (h : SameLengths t u) (x : Symbol) : (codeBits u x).isSome = (codeBits t x).isSome := by
  simpa using (congrArg Option.isSome (h x)).symm

theorem SameLengths.exists_code (h : SameLengths t u) {x : Symbol} {d : List Bool} (hd : codeBits u x = some d) :
    ∃ c, codeBits t x = some c ∧ c.length = d.length := by
  rw [← Option.map_eq_some_iff, h x, hd, Option.map_some]

/-- The number R122 reaches, as a sum over the pairs (length, symbol), the only thing `CANON` reads (R121). -/
theorem canonicalValue_eq_sum_codeLengths (t : Sparse BitSeq) (L : Nat) (x : Symbol) : canonicalValue t L x =
    ((codeLengths t).map fun e => if e.1 < L ∨ (e.1 = L ∧ e.2.toNat < x.toNat) then 2 ^ (L - e.1) else 0).sum :=
  (codeLengths_sum t fun l y => if l < L ∨ (l = L ∧ y.toNat < x.toNat) then 2 ^ (L - l) else 0).symm

theorem SameLengths.canonicalValue_eq (h : SameLengths t u) (L : Nat) (x : Symbol) :
    canonicalValue u L x = canonicalValue t L x := by
  rw [canonicalValue_eq_sum_codeLengths, canonicalValue_eq_sum_codeLengths, codeLengths_congr h]

end

/-! ## The codes `CANON` gives (43_canonicalizer.md R120 to R123) -/

theorem canon_wrongStage {s : State} (h : s.stage ≠ .rawCodesGenerated) :
    exec .canon s = .next { s with responses := ⟨.usageOrder, 0, []⟩ :: s.responses } := by
  simp only [exec, execCanon]
  rw [atStage_fail h, raise_eq]

/-- R123: the code is rendered from the low bits of the number reached, whether or not the number fits. -/
theorem numberCodes_rendered (s : State) (hs : CodesFit s.raw) {x : Symbol} {c : List Bool} (h : codeBits s.raw x = some c) :
    ∃ d, codeBits s.numberCodes.can x = some d ∧ d.length = c.length ∧
      bitsVal d = canonicalValue s.raw c.length x % 2 ^ c.length := by
  obtain ⟨pre, post, hsplit, hentry⟩ := numberCodes_code s hs h
  have h32 := length_lt_of_codeBits h
  refine ⟨(BitSeq.ofNat c.length (roomAt c.length pre)).bits, by simp [codeBits, hentry], ?_, ?_⟩
  · rw [BitSeq.bits_length, BitSeq.ofNat_len _ _ h32]
  · rw [BitSeq.bits_ofNat _ _ h32, bitsVal_render, roomAt_eq_canonicalValue hsplit]

/-- Settles O26: the stage decides between `canon_wrongStage` and `canon_next`, and `numberCodes_rendered` is the code of each
symbol with a raw code. -/
theorem canonNumbersTheSymbols : Obligations.CanonNumbersTheSymbols := by
  refine ⟨by decide, fun s => ⟨canon_wrongStage, fun h hsizes => ⟨_, canon_next h, rfl, ?_, ?_⟩⟩⟩
  · intro x hx
    have hnone := numberCodes_none s (codesFit_of_sizes hsizes) hx
    simp [codeBits, hnone]
  · exact fun x c hc => numberCodes_rendered s (codesFit_of_sizes hsizes) hc

/-! ## The canonical table (43_canonicalizer.md R124) -/

/-- R125: on a code table no bit of a number is dropped, so the canonical table numbers itself. -/
theorem bitsVal_numberCodes {freq : Sparse Freq} {s : State} (h : CodesFor freq s.raw) {x : Symbol} {d : List Bool}
    (hd : codeBits s.numberCodes.can x = some d) : bitsVal d = canonicalValue s.numberCodes.can d.length x := by
  obtain ⟨-, hsame, hvalue⟩ := numberCodes_spec s h
  obtain ⟨c, hc, hlen⟩ := hsame.exists_code hd
  obtain ⟨d', hd', -, hval⟩ := hvalue x c hc
  obtain rfl : d = d' := Option.some.inj (hd.symm.trans hd')
  rw [hval, hlen, hsame.canonicalValue_eq]

/-- Settles O27: (a), (b) and (d) are `numberCodes_spec`; (c) is the step of the numbers from one symbol to the next,
`canonicalValue_next`, on the canonical table itself. -/
theorem canonicalTableProperties : Obligations.CanonicalTableProperties := by
  intro s h hcodes
  obtain ⟨hcan, hsame, -⟩ := numberCodes_spec s hcodes
  refine ⟨_, canon_next h, hsame, hcan.prefixFree, fun x => ?_, fun x y cx cy hx hy hlt hnext => ?_⟩
  · exact Bool.eq_iff_iff.mp (hsame.isSome_eq x)
  · rw [bitsVal_numberCodes hcodes hx, bitsVal_numberCodes hcodes hy]
    exact canonicalValue_next hx hy hlt hnext

end Sys2Proof.Machine
end

section
/-! PROOFS. The family 44_encoder.md: what `ENCODE` answers, and its output read back by the reference decoder. -/

namespace Sys2Proof.Machine

/-! ## What `ENCODE` answers (44_encoder.md R130 to R134) -/

section
variable {f : Bool} {n : Imm} {s : State} {pre post : List Byte} {b : Byte} {c : List Bool}

theorem encode_wrongStage (hn : n.toNat ≤ s.tin.length) (h : s.stage ≠ .canonicalCodesGenerated) :
    exec (.encode f n) s = .next { s with
      tin := s.tin.drop n.toNat, responses := ⟨.usageOrder, 0, []⟩ :: s.responses } := by
  simp only [exec, execEncode]
  rw [withText_of_supplied hn, atStage_fail (by exact h), raise_eq]

/-- R130, R131: the capacity is below `2^32`, so a text that fits does not wrap the length register of `OUT`. -/
theorem encode_coded (hn : n.toNat ≤ s.tin.length) (h : s.stage = .canonicalCodesGenerated)
    (hcoded : AllCoded (s.codeMap f) (s.tin.take n.toNat))
    (hfit : (textCode (s.codeMap f) (s.tin.take n.toNat)).length ≤ s.cfg.outCapBits.toNat) :
    ∃ q : BitSeq, q.wf ∧ q.bits = textCode (s.codeMap f) (s.tin.take n.toNat) ∧ exec (.encode f n) s = .next { s with
      tin := s.tin.drop n.toNat, out := q, stage := .encoded, responses := ⟨.ok, 0, []⟩ :: s.responses } := by
  obtain ⟨q, hq, hbits, -, hwf⟩ := encodeText_ok s.cfg.outCapBits.isLt (acc := .empty) 0 hcoded (by simpa using hfit)
  exact ⟨q, hwf BitSeq.empty_wf, by simpa using hbits, encode_next hn h hq⟩

/-- R132: the index is that of the byte in the text. -/
theorem encode_absent (hn : n.toNat ≤ s.tin.length) (h : s.stage = .canonicalCodesGenerated)
    (htext : s.tin.take n.toNat = pre ++ b :: post) (hcoded : AllCoded (s.codeMap f) pre)
    (hfit : (textCode (s.codeMap f) pre).length ≤ s.cfg.outCapBits.toNat) (hb : codeBits (s.codeMap f) b = none) :
    exec (.encode f n) s = .next { s with
      tin := s.tin.drop n.toNat
      responses := ⟨.unknownSymbol, BitVec.ofNat 32 pre.length, []⟩ :: s.responses } := by
  have hloop := encodeText_unknown s.cfg.outCapBits.isLt (acc := .empty) (post := post) 0 hcoded (by simpa using hfit) hb
  rw [← htext, Nat.zero_add] at hloop
  exact encode_raises hn h hloop

/-- R134. -/
theorem encode_overflow (hn : n.toNat ≤ s.tin.length) (h : s.stage = .canonicalCodesGenerated)
    (htext : s.tin.take n.toNat = pre ++ b :: post) (hcoded : AllCoded (s.codeMap f) pre)
    (hfit : (textCode (s.codeMap f) pre).length ≤ s.cfg.outCapBits.toNat) (hb : codeBits (s.codeMap f) b = some c)
    (hover : s.cfg.outCapBits.toNat < (textCode (s.codeMap f) pre).length + c.length) :
    exec (.encode f n) s = .next { s with
      tin := s.tin.drop n.toNat, responses := ⟨.capacity, 0, []⟩ :: s.responses } := by
  have hloop := encodeText_capacity s.cfg.outCapBits.isLt (acc := .empty) (post := post) 0 hcoded (by simpa using hfit) hb
    (by simpa using hover)
  rw [← htext] at hloop
  exact encode_raises hn h hloop

end

/-- Settles O30: the stage decides `encode_wrongStage`; at the right one the text is all coded and fits (`encode_coded`), or a
byte ends the coded part, with no code (`encode_absent`) or with one that overflows (`encode_overflow`). -/
theorem encodeConcatenatesTheCodes : Obligations.EncodeConcatenatesTheCodes := by
  refine ⟨fun f n => ?_, fun f n s hn => ⟨encode_wrongStage hn, encode_coded hn, ?_⟩⟩
  · rw [word_encode]
    exact decode_encode rfl
  · intro h pre b post htext hcoded hfit
    exact ⟨encode_absent hn h htext hcoded hfit, fun c => encode_overflow hn h htext hcoded hfit⟩

/-! ## The output decodes to the text (44_encoder.md R135) -/

/-- R109 (c), R124 (d): a code table gives every byte of a text of known symbols a code. -/
theorem CodesFor.allCoded {freq : Sparse Freq} {t : Sparse BitSeq} (h : CodesFor freq t) {text : List Byte}
    (hknown : ∀ b ∈ text, b ∈ presentSymbols freq) : AllCoded t text :=
  fun b hb => (h.symbols b).mpr (mem_presentSymbols.mp (hknown b hb))

/-- R135 for a code table: its words are not empty and none is a prefix of another. -/
theorem CodesFor.refDecode_textCode {freq : Sparse Freq} {t : Sparse BitSeq} (h : CodesFor freq t) {text : List Byte}
    (hcoded : AllCoded t text) {fuel : Nat} (hfuel : text.length ≤ fuel) : refDecode t fuel (textCode t text) = some text :=
  Machine.refDecode_textCode h.prefixFree (fun x c hc => (h.lengths x c hc).1) text hcoded fuel hfuel

/-- Settles O31: in a session either table is a code table for the counted symbols, so `ENCODE` succeeds (`encode_coded`) and its
output is read back (`CodesFor.refDecode_textCode`). -/
theorem encodedTextDecodesToItself : Obligations.EncodedTextDecodesToItself := by
  intro f n s hsession h hn hknown hfit
  have hcodes : CodesFor s.freq (s.codeMap f) := hsession.mapCodes h f
  have hcoded := hcodes.allCoded hknown
  obtain ⟨q, -, hbits, hexec⟩ := encode_coded hn h hcoded hfit
  refine ⟨_, hexec, rfl, ?_⟩
  rw [hbits]
  exact hcodes.refDecode_textCode hcoded (List.length_take_le _ _)

end Sys2Proof.Machine
end

section
/-! PROOFS. The family 45_session_readout.md: the stage, one count, and the total of the counts. -/

namespace Sys2Proof.Machine

/-! ## Reading the stage (45_session_readout.md R141) -/

/-- Settles O14: `RDSTAGE` has no check, and its word is all zeros below `OP`. -/
theorem rdstageReadsTheStage : Obligations.RdstageReadsTheStage :=
  ⟨by decide, fun s => ok_eq (s.stage.code.setWidth 32) [] s, rfl⟩

/-! ## Reading one count (45_session_readout.md R142) -/

/-- 10_state.md R22: `Empty` is the only stage before 1. -/
theorem Stage.atLeast_one_iff (st : Stage) : st.atLeast 1 = true ↔ st ≠ .empty := by
  cases st <;> decide

theorem rdfreq_empty {x : Symbol} {s : State} (h : s.stage = .empty) :
    exec (.rdfreq x) s = .next { s with responses := ⟨.usageOrder, 0, []⟩ :: s.responses } := by
  rw [exec, execRdfreq, if_neg (by simp [Stage.atLeast_one_iff, h]), raise_eq]

theorem rdfreq_counted {x : Symbol} {s : State} (h : s.stage ≠ .empty) :
    exec (.rdfreq x) s = .next { s with responses := ⟨.ok, Sparse.read s.freq x.toNat, []⟩ :: s.responses } := by
  rw [exec, execRdfreq, if_pos ((Stage.atLeast_one_iff _).mpr h), ok_eq]

/-- Settles O15: the stage check decides between `rdfreq_empty` and `rdfreq_counted`. -/
theorem rdfreqReadsACount : Obligations.RdfreqReadsACount := by
  refine ⟨fun x => ?_, fun x s => ⟨rdfreq_empty, rdfreq_counted⟩⟩
  rw [word_rdfreq]
  exact decode_encode rfl

/-! ## The total of the counts (45_session_readout.md R143) -/

/-- R143: the Frequency Table side of "`NSYM = 0` exactly when `n = 0`"; `nsym_eq_zero_iff` is the register side. -/
theorem presentSymbols_countText_eq_nil {text : List Byte} (h : text.length < 2 ^ 32) :
    presentSymbols (countText text) = [] ↔ text = [] := by
  simp only [List.eq_nil_iff_forall_not_mem, mem_presentSymbols_countText h]

theorem nsym_eq_zero_iff (f : Sparse Freq) : BitVec.ofNat 9 (presentSymbols f).length = 0 ↔ presentSymbols f = [] := by
  rw [← BitVec.toNat_inj, nsym_toNat, ← List.length_eq_zero_iff]
  rfl

/-- Settles O17: `COUNT` leaves the counts of its text (`count_next`), which sum to the text's length (`freqTotal_countText`),
and no symbol is present exactly when the text is empty. -/
theorem countsAddUpToTheTextLength : Obligations.CountsAddUpToTheTextLength := by
  intro n s hn h
  have hlt := length_take_imm_lt n s.tin
  have hlen : (s.tin.take n.toNat).length = n.toNat := List.length_take_of_le hn
  refine ⟨_, count_next hn h, read_countText hlt, (freqTotal_countText hlt).trans hlen, ?_⟩
  calc BitVec.ofNat 9 (presentSymbols (countText (s.tin.take n.toNat))).length = 0
      ↔ presentSymbols (countText (s.tin.take n.toNat)) = [] := nsym_eq_zero_iff _
    _ ↔ s.tin.take n.toNat = [] := presentSymbols_countText_eq_nil hlt
    _ ↔ n.toNat = 0 := by rw [← List.length_eq_zero_iff, hlen]
    _ ↔ n = 0 := BitVec.toNat_inj (y := 0)

end Sys2Proof.Machine
end

section
/-! PROOFS. The family 60_exceptions.md: which commands the stage check refuses, and what a failing command leaves. -/

namespace Sys2Proof.Machine

/-! ## The stage check (60_exceptions.md R152) -/

/-- A command given in `s` is answered, and with `UsageOrderError` exactly when its check `P` fails. -/
def StageChecked (s : State) (P : Prop) (o : Outcome) : Prop :=
  ∃ t r, o = .next t ∧ t.responses = r :: s.responses ∧ (r.status = .usageOrder ↔ ¬ P)

theorem StageChecked.congr {s : State} {P Q : Prop} {o : Outcome} (h : StageChecked s P o) (hPQ : P ↔ Q) :
    StageChecked s Q o := by rwa [← hPQ]

/-- The state `t` in which the command ends may differ from `s`, but not in the responses given before. -/
theorem ok_stageChecked {s t : State} (ht : t.responses = s.responses) (res : Imm) (chars : List Byte) :
    StageChecked s True (ok res chars t) :=
  ⟨_, ⟨.ok, res, chars⟩, rfl, by rw [State.respond_responses, ht], by simp⟩

theorem raise_stageChecked {e : Status} {s t : State} (he : e ≠ .usageOrder) (ht : t.responses = s.responses) (info : Imm) :
    StageChecked s True (raise e info t) :=
  ⟨_, ⟨e, info, []⟩, rfl, by rw [State.respond_responses, ht], by simp [he]⟩

theorem usageOrder_stageChecked {P : Prop} {s t : State} (hP : ¬ P) (ht : t.responses = s.responses) :
    StageChecked s P (raise .usageOrder 0 t) :=
  ⟨_, ⟨.usageOrder, 0, []⟩, rfl, by rw [State.respond_responses, ht], by simp [hP]⟩

theorem atStage_stageChecked {want : Stage} {s t : State} {k : State → Outcome} (ht : t.responses = s.responses)
    (hk : StageChecked s True (k t)) : StageChecked s (t.stage = want) (atStage want t k) := by
  by_cases h : t.stage = want
  · rw [atStage_pass h]
    exact hk.congr (by simp [h])
  · rw [atStage_fail h]
    exact usageOrder_stageChecked h ht

theorem withSeq_stageChecked {a : Selector} {s : State} {k : BitSeq → Outcome} (hk : ∀ q, StageChecked s True (k q)) :
    StageChecked s (¬ TooEarly s a) (withSeq a s k) := by
  rcases selector_cases s a with ha | ha | ⟨q, hq⟩
  · rw [withSeq_tooEarly ha]
    exact usageOrder_stageChecked (not_not.mpr ha) rfl
  · rw [withSeq_absent ha]
    exact (raise_stageChecked (by decide) rfl 0).congr (by simp [not_tooEarly_of_absent ha])
  · rw [withSeq_resolves hq]
    exact (hk q).congr (by simp [not_tooEarly_of_resolves hq])

/-- 41_bit_sequence.md R92: phase 1 of both selectors decides, whatever phase 2 finds. -/
theorem withSeqs_stageChecked {a b : Selector} {s : State} {k : BitSeq → BitSeq → Outcome}
    (hk : ∀ q p, StageChecked s True (k q p)) :
    StageChecked s (¬ TooEarly s a ∧ ¬ TooEarly s b) (withSeqs a b s k) := by
  by_cases hearly : TooEarly s a ∨ TooEarly s b
  · rw [withSeqs_tooEarly hearly]
    exact usageOrder_stageChecked (by tauto) rfl
  · obtain ⟨ha, hb⟩ := not_or.mp hearly
    refine StageChecked.congr ?_ (iff_of_true trivial ⟨ha, hb⟩)
    by_cases habsent : Absent s a ∨ Absent s b
    · rw [withSeqs_absent ha hb habsent]
      exact raise_stageChecked (by decide) rfl 0
    · obtain ⟨ha', hb'⟩ := not_or.mp habsent
      obtain ⟨q, hq⟩ := ((selector_cases s a).resolve_left ha).resolve_left ha'
      obtain ⟨p, hp⟩ := ((selector_cases s b).resolve_left hb).resolve_left hb'
      rw [withSeqs_resolves hq hp]
      exact hk q p

/-- 10_state.md R22. -/
theorem Stage.eq_iff_code (a b : Stage) : a = b ↔ a.code.toNat = b.code.toNat :=
  ⟨fun h => by rw [h], Stage.code_inj⟩

/-- The rows of R152 on one selector. -/
theorem not_tooEarly_iff_selectorsPass (s : State) (a : Selector) :
    ¬ TooEarly s a ↔ selectorsPass s.stage.code.toNat [a] := by
  simpa [Instr.selectors] using (selectorsPass_iff (.bslen a) (s := s)).symm

/-- The row of `BSEQ`. -/
theorem not_tooEarly_iff_selectorsPass_pair (s : State) (a b : Selector) :
    ¬ TooEarly s a ∧ ¬ TooEarly s b ↔ selectorsPass s.stage.code.toNat [a, b] := by
  simpa [Instr.selectors] using (selectorsPass_iff (.bseq a b) (s := s)).symm

theorem count_stageChecked {n : Imm} {s : State} (hn : n.toNat ≤ s.tin.length) :
    StageChecked s (s.stage = .empty) (execCount n s) := by
  rw [execCount, withText_of_supplied hn]
  exact atStage_stageChecked rfl (ok_stageChecked rfl _ _)

/-- R154: the empty table is looked at only after the stage check. -/
theorem build_stageChecked (s : State) : StageChecked s (s.stage = .frequenciesCounted) (execBuild s) := by
  refine atStage_stageChecked rfl ?_
  by_cases hn : s.nsym = 0
  · rw [if_pos hn]
    exact raise_stageChecked (by decide) rfl _
  · rw [if_neg hn]
    exact ok_stageChecked rfl _ _

theorem gencodes_stageChecked (s : State) : StageChecked s (s.stage = .treeBuilt) (execGencodes s) :=
  atStage_stageChecked rfl (ok_stageChecked rfl _ _)

theorem canon_stageChecked (s : State) : StageChecked s (s.stage = .rawCodesGenerated) (execCanon s) :=
  atStage_stageChecked rfl (ok_stageChecked rfl _ _)

theorem encode_stageChecked {f : Bool} {n : Imm} {s : State} (hn : n.toNat ≤ s.tin.length) :
    StageChecked s (s.stage = .canonicalCodesGenerated) (execEncode f n s) := by
  rw [execEncode, withText_of_supplied hn]
  refine atStage_stageChecked rfl ?_
  split
  · next e info he =>
    have hne : e ≠ .usageOrder := by rcases encodeText_error he with rfl | ⟨rfl, -⟩ <;> decide
    exact raise_stageChecked hne rfl _
  · exact ok_stageChecked rfl _ _

theorem rdfreq_stageChecked (x : Symbol) (s : State) : StageChecked s (1 ≤ s.stage.code.toNat) (execRdfreq x s) := by
  rw [execRdfreq]
  split
  · next h => exact (ok_stageChecked rfl _ _).congr (by simp [(Stage.atLeast_iff _ _).mp h])
  · next h => exact usageOrder_stageChecked (mt (Stage.atLeast_iff _ _).mpr h) rfl

theorem bsappb_stageChecked (b : Bool) (s : State) : StageChecked s True (execBsappb b s) := by
  rw [execBsappb]
  split
  · exact raise_stageChecked (by decide) rfl _
  · exact ok_stageChecked rfl _ _

theorem bsapps_stageChecked {a : Selector} (ha : a ≠ .scr) (s : State) : StageChecked s (¬ TooEarly s a) (execBsapps a s) := by
  rw [execBsapps, if_neg ha]
  refine withSeq_stageChecked fun q => ?_
  split
  · exact raise_stageChecked (by decide) rfl _
  · exact ok_stageChecked rfl _ _

/-- Settles O44: each command makes its check by `atStage`, `withSeq` or `withSeqs`, or makes none, and what follows a passed
check never raises `UsageOrderError`. -/
theorem stageCheckTable : Obligations.StageCheckTable := by
  intro i s hi hs
  show StageChecked s (passesStageCheck s.stage.code.toNat i) (exec i s)
  cases i with
  | newsession | rdstage | bsclr => exact ok_stageChecked rfl _ _
  | rdfreq x => exact rdfreq_stageChecked x s
  | count n => exact (count_stageChecked hs).congr (Stage.eq_iff_code _ _)
  | build => exact (build_stageChecked s).congr (Stage.eq_iff_code _ _)
  | gencodes => exact (gencodes_stageChecked s).congr (Stage.eq_iff_code _ _)
  | canon => exact (canon_stageChecked s).congr (Stage.eq_iff_code _ _)
  | encode f n => exact (encode_stageChecked hs).congr (Stage.eq_iff_code _ _)
  | bsappb b => exact bsappb_stageChecked b s
  | bsapps a =>
    have ha : a ≠ .scr := by simpa [Instr.wellFormed] using hi
    exact (bsapps_stageChecked ha s).congr (not_tooEarly_iff_selectorsPass s a)
  | bsbit a _ | bslen a | bsbytes a | bsbin a | bshex a _ =>
    exact (withSeq_stageChecked fun q => ok_stageChecked rfl _ _).congr (not_tooEarly_iff_selectorsPass s a)
  | bseq a b =>
    exact (withSeqs_stageChecked fun q p => ok_stageChecked rfl _ _).congr (not_tooEarly_iff_selectorsPass_pair s a b)

/-! ## What a failing command leaves (60_exceptions.md R151, R156) -/

theorem runWord_of_decode {w : Word} {i : Instr} (h : decode w = .ok i) (s : State) : runWord w s = exec i s := by
  rw [runWord, h]

/-- R151, 44_encoder.md R132. -/
theorem encode_unknown_res {f : Bool} {n : Imm} {s t : State} {r : Response} (hexec : exec (.encode f n) s = .next t)
    (hr : t.responses = r :: s.responses) (hunknown : r.status = .unknownSymbol) :
    r.res = BitVec.ofNat 32 ((s.tin.take n.toNat).findIdx fun b => (codeBits (s.codeMap f) b).isNone) := by
  obtain ⟨hn, -⟩ := exec_next hexec
  by_cases hstage : s.stage = .canonicalCodesGenerated
  · cases hloop : encodeText s.cfg.outCapBits.toNat (s.codeMap f) 0 BitSeq.empty (s.tin.take n.toNat) with
    | error x =>
      obtain ⟨e, info⟩ := x
      rw [encode_raises hn hstage hloop] at hexec
      cases hexec
      cases hr
      cases hunknown
      rw [encodeText_unknown_index hloop, Nat.zero_add]
    | ok q =>
      rw [encode_next hn hstage hloop] at hexec
      cases hexec
      cases hr
      cases hunknown
  · rw [encode_wrongStage hn hstage] at hexec
    cases hexec
    cases hr
    cases hunknown

/-- Settles O46: a word that decodes is answered as `exec_responds` says, with `encode_unknown_res` for the index; any other word
by `illegal_next`. -/
theorem failingCommandsChangeNothing : Obligations.FailingCommandsChangeNothing := by
  intro w s hp
  by_cases hw : LegalWord w
  · obtain ⟨i, hi⟩ := (legalWord_iff_decodes w).mp hw
    obtain ⟨t, r, hexec, hr, -, hcases⟩ := exec_responds (supplied_of_payload hi hp)
    refine ⟨t, r, (runWord_of_decode hi s).trans hexec, hr, fun hfail => ?_⟩
    obtain ⟨-, hchars, hres, ht⟩ := hcases.resolve_right fun h => hfail h.1
    rw [textLength_eq_payloadLength hi] at ht
    refine ⟨hchars, ht, fun f n hencode hunknown => ?_, fun hother => ?_⟩
    · cases hi.symm.trans hencode
      exact encode_unknown_res hexec hr hunknown
    · refine hres.resolve_right ?_
      rintro ⟨⟨f, n, rfl⟩, hunknown⟩
      exact hother f n hi hunknown
  · refine ⟨_, ⟨.illegalCommand, 0, []⟩, (runWord_of_illegal hw s).trans (illegal_next hp), rfl, fun _ =>
      ⟨rfl, rfl, fun f n hencode => ?_, fun _ => rfl⟩⟩
    exact absurd ((legalWord_iff_decodes w).mpr ⟨_, hencode⟩) hw

end Sys2Proof.Machine
end

section
/-! PROOFS. The round trip of the encoding, and the words that a line of a program assembles to (30_encoding.md). -/

namespace Sys2Proof

/-! ## The round trip (30_encoding.md R62, R68) -/

/-- Settles O1: `decode_encode`, which reads each operand back from its field. -/
theorem decodeOfEncode : Obligations.DecodeOfEncode := fun _ => decode_encode

/-- R68 (4) is the one check on terms. -/
theorem Instr.wellFormed_iff (i : Instr) : i.wellFormed = true ↔ i ≠ .bsapps .scr := by
  cases i <;> simp [Instr.wellFormed]

theorem decode_ne_bsapps_scr (w : Word) : decode w ≠ .ok (.bsapps .scr) := by
  intro h
  obtain ⟨o, -, -, hi⟩ := decode_cases h
  obtain rfl : Opcode.bsapps = o := opcode_of_decodeOperands hi
  obtain ⟨a, -, ha⟩ := withSelector_ok.mp hi
  split at ha
  · cases ha
  · next hne => cases ha; exact hne rfl

/-- Settles O2: `encode_of_decode`, and the decoder never gives the one ill-formed term. -/
theorem encodeOfDecode : Obligations.EncodeOfDecode := by
  refine fun w i h => ⟨encode_of_decode h, (Instr.wellFormed_iff i).mpr ?_⟩
  rintro rfl
  exact decode_ne_bsapps_scr w h

/-- Settles O3: the decoder run on the eight words. -/
theorem writtenWordsDecode : Obligations.WrittenWordsDecode := by
  unfold Obligations.WrittenWordsDecode
  decide

end Sys2Proof

namespace Sys2Proof.Machine

/-! ## Assembled moves (30_encoding.md R70, R71, R72) -/

/-- Every move is a command word that decodes, with as many payload bytes as its command consumes. -/
def Framed (ms : List HostMove) : Prop :=
  ∀ m ∈ ms, ∃ w text i, m = .command w text ∧ decode w = .ok i ∧ text.length = Instr.textLength i

theorem framed_singleton {i : Instr} {text : List Byte} (hi : i.wellFormed = true) (hlen : text.length = Instr.textLength i) :
    Framed [.command (encode i) text] := by
  intro m hm
  exact ⟨_, _, i, List.mem_singleton.mp hm, decode_encode hi, hlen⟩

theorem plainMove_framed {i : Instr} (hi : Instr.textLength i = 0) {ms : List HostMove} (h : plainMove i = some ms) :
    Framed ms := by
  obtain ⟨hwf, ⟨⟩⟩ := Option.ite_none_right_eq_some.mp h
  exact framed_singleton hwf hi.symm

/-- The byte count of a text below `2^32` is what `IMM` holds. -/
theorem textMove_framed {c : Imm → Instr} (hwf : ∀ n, (c n).wellFormed = true)
    (hlen : ∀ n, Instr.textLength (c n) = n.toNat) {text : List Byte} {ms : List HostMove} (h : textMove c text = some ms) :
    Framed ms := by
  obtain ⟨hlt, ⟨⟩⟩ := Option.ite_none_right_eq_some.mp h
  refine framed_singleton (hwf _) ?_
  rw [hlen, BitVec.toNat_ofNat, Nat.mod_eq_of_lt hlt]

theorem bits_framed (bs : List Bool) : Framed (bs.map fun b => .command (encode (.bsappb b)) []) := by
  intro m hm
  obtain ⟨b, -, rfl⟩ := List.mem_map.mp hm
  exact ⟨_, _, .bsappb b, rfl, decode_encode rfl, rfl⟩

theorem assemble_framed {l : AsmLine} {ms : List HostMove} (h : l.assemble = some ms) : Framed ms := by
  cases l with
  | newsession | rdstage | rdfreq | build | gencodes | canon | bsclr | bsappb | bsapps | bsbit | bslen | bsbytes | bsbin
  | bshex | bseq | bshexAll => exact plainMove_framed rfl h
  | count | encodeCan | encodeRaw => exact textMove_framed (fun _ => rfl) (fun _ => rfl) h
  | bits bs =>
    cases h
    exact bits_framed bs

theorem plainMove_eq {i : Instr} {w : Word} (hi : i.wellFormed = true) (hw : w = encode i) :
    plainMove i = some [.command w []] := by rw [plainMove, if_pos hi, hw]

theorem textMove_eq {c : Imm → Instr} {text : List Byte} {w : Word} (hlt : text.length < 2 ^ 32)
    (hw : w = encode (c (BitVec.ofNat 32 text.length))) : textMove c text = some [.command w text] := by
  rw [textMove, if_pos hlt, hw]

theorem textMove_too_long {c : Imm → Instr} {text : List Byte} (h : 2 ^ 32 ≤ text.length) : textMove c text = none :=
  if_neg (Nat.not_lt.mpr h)

/-- Settles O7: each line is one move or, for `BITS`, one a bit (`assemble_framed`), and the word written field by field is
that of its command (`word_rdfreq` to `word_bseq`). -/
theorem assembledMovesAreFramed : Obligations.AssembledMovesAreFramed := by
  refine ⟨fun l ms => assemble_framed, by decide, by decide, fun x => plainMove_eq rfl (word_rdfreq x), fun text =>
    ⟨fun hlt => ⟨textMove_eq hlt (word_count _), textMove_eq hlt (word_encode true _), textMove_eq hlt (word_encode false _)⟩,
      fun hlong => ⟨textMove_too_long hlong, textMove_too_long hlong, textMove_too_long hlong⟩⟩,
    by decide, by decide, by decide, by decide, fun b => plainMove_eq rfl (word_bsappb b), rfl, fun a =>
    ⟨fun ha => plainMove_eq ?_ (word_formatS _ .bsapps rfl a), fun n => plainMove_eq rfl (word_formatSI _ .bsbit rfl a n),
      plainMove_eq rfl (word_formatS _ .bslen rfl a), plainMove_eq rfl (word_formatS _ .bsbytes rfl a),
      plainMove_eq rfl (word_formatS _ .bsbin rfl a), fun n => plainMove_eq rfl (word_formatSI _ .bshex rfl a n),
      plainMove_eq rfl (word_formatSI _ .bshex rfl a _), fun b => plainMove_eq rfl (word_bseq a b)⟩, fun bs => ?_⟩
  · exact (Instr.wellFormed_iff _).mpr (by simpa using ha)
  · simp only [AsmLine.assemble, ← word_bsappb]

end Sys2Proof.Machine
end

section
/-! PROOFS. One step of the machine: a command word, a reset, no move, the one way to stop, and the response to a word
(30_encoding.md, 70_reset_and_hazards.md). -/

namespace Sys2Proof.Machine

/-! ## What a step does with the host's next move -/

section
variable {s : State} {w : Word} {text : List Byte} {rest : List HostMove}

theorem step_idle (h : s.moves = []) : step s = .next s := by rw [step, h]

theorem step_command (h : s.moves = .command w text :: rest) : step s = runWord w (s.accept text rest) := by
  rw [step, h]

theorem step_reset (h : s.moves = .reset :: rest) : step s = .next (State.hardReset { s with moves := rest }) := by
  rw [step, h]

end

/-- Settles O8: `step_command`, and a word that decodes runs its command. -/
theorem stepRunsTheDecodedCommand : Obligations.StepRunsTheDecodedCommand :=
  fun _ _ _ _ _ hmoves hi => (step_command hmoves).trans (runWord_of_decode hi _)

/-- Settles O9: `State.hardReset` is the reset state but for the parameters, the moves and the responses. -/
theorem resetGivesTheResetState : Obligations.ResetGivesTheResetState := fun _ _ => step_reset

/-- Settles O11. -/
theorem idleStepHoldsTheState : Obligations.IdleStepHoldsTheState := fun _ => step_idle

/-! ## Stopping (70_reset_and_hazards.md R174) -/

theorem runWord_of_delivered {w : Word} {s : State} (h : payloadLength w ≤ s.tin.length) : ∃ t, runWord w s = .next t := by
  by_cases hw : LegalWord w
  · obtain ⟨i, hi⟩ := (legalWord_iff_decodes w).mp hw
    rw [runWord_of_decode hi]
    exact exec_of_supplied (supplied_of_payload hi h)
  · exact ⟨_, (runWord_of_illegal hw s).trans (illegal_next h)⟩

theorem illegal_withheld {w : Word} {s : State} (h : s.tin.length < payloadLength w) :
    illegal w s = .fault .payloadWithheld := by
  unfold payloadLength at h
  split at h
  · next hop => rw [illegal, if_pos (by simpa [takesPayload] using hop), withText_of_withheld h]
  · exact absurd h (Nat.not_lt_zero _)

theorem runWord_withheld {w : Word} {s : State} (h : s.tin.length < payloadLength w) :
    runWord w s = .fault .payloadWithheld := by
  by_cases hw : LegalWord w
  · obtain ⟨i, hi⟩ := (legalWord_iff_decodes w).mp hw
    rw [runWord_of_decode hi]
    refine exec_of_not_supplied ?_
    rw [Supplied, textLength_eq_payloadLength hi]
    exact Nat.not_le.mpr h
  · rw [runWord_of_illegal hw, illegal_withheld h]

/-- The next move is a word whose payload is not all there. -/
def Withheld (s : State) : Prop :=
  ∃ w text rest, s.moves = .command w text :: rest ∧ s.tin.length + text.length < payloadLength w

theorem step_of_withheld {s : State} (h : Withheld s) : step s = .fault .payloadWithheld := by
  obtain ⟨w, text, rest, hmoves, hlt⟩ := h
  rw [step_command hmoves]
  exact runWord_withheld (by simpa using hlt)

theorem step_of_not_withheld {s : State} (h : ¬ Withheld s) : ∃ t, step s = .next t := by
  cases hmoves : s.moves with
  | nil => exact ⟨s, step_idle hmoves⟩
  | cons m rest =>
    cases m with
    | reset => exact ⟨_, step_reset hmoves⟩
    | command w text =>
      rw [step_command hmoves]
      refine runWord_of_delivered (Nat.not_lt.mp fun hlt => h ⟨w, text, rest, hmoves, ?_⟩)
      simpa using hlt

/-- Settles O12: a step on a withheld payload faults (`step_of_withheld`), and every other step answers a next state
(`step_of_not_withheld`). -/
theorem onlyAWithheldPayloadStops : Obligations.OnlyAWithheldPayloadStops := by
  intro s
  by_cases h : Withheld s
  · have hstep := step_of_withheld h
    exact ⟨fun r => by simp [hstep], iff_of_true ⟨_, hstep⟩ h⟩
  · obtain ⟨t, hstep⟩ := step_of_not_withheld h
    exact ⟨fun r => by simp [hstep], iff_of_false (by simp [hstep]) h⟩

/-! ## One response a word (30_encoding.md R72, R73) -/

/-- A response with the shape of a success of command `i`. -/
structure Reports (i : Instr) (r : Response) : Prop where
  chars : r.chars ≠ [] → (∃ a, i = .bsbin a) ∨ ∃ a n, i = .bshex a n
  count : (∃ a, i = .bsbin a) ∨ (∃ a n, i = .bshex a n) → r.chars.length = r.res.toNat
  res : Instr.reads i = false → r.res = 0

theorem hexPairs_length (l : List Nat) (g : Nat → Byte) : (l.flatMap fun k => hexPair (g k)).length = 2 * l.length := by
  induction l with
  | nil => rfl
  | cons k l ih => rw [List.flatMap_cons, List.length_append, ih, List.length_cons, hexPair]; simp; omega

/-- A successful command that is no `BSBIN` and no `BSHEX` has no output payload. -/
theorem reports_no_chars {i : Instr} {r : Response} (hr : r.chars = []) (hbin : ∀ a, i ≠ .bsbin a)
    (hhex : ∀ a n, i ≠ .bshex a n) (hres : Instr.reads i = false → r.res = 0) : Reports i r where
  chars h := absurd hr h
  count := by rintro (⟨a, h⟩ | ⟨a, n, h⟩); exacts [absurd h (hbin a), absurd h (hhex a n)]
  res := hres

theorem Effect.reports {s t : State} {i : Instr} {r : Response} (h : Effect s t i) (hr : t.responses = r :: s.responses) :
    Reports i r := by
  cases i with
  | newsession | rdstage | bsclr =>
    obtain rfl := h
    cases hr
    exact reports_no_chars rfl nofun nofun (by simp [Instr.reads])
  | rdfreq | count | gencodes | canon | bsappb =>
    obtain ⟨-, rfl⟩ := h
    cases hr
    exact reports_no_chars rfl nofun nofun (by simp [Instr.reads])
  | build | bsbit | bslen | bsbytes =>
    obtain ⟨_, _, rfl⟩ := h
    cases hr
    exact reports_no_chars rfl nofun nofun (by simp [Instr.reads])
  | encode =>
    obtain ⟨_, _, _, rfl⟩ := h
    cases hr
    exact reports_no_chars rfl nofun nofun (by simp [Instr.reads])
  | bsapps | bseq =>
    obtain ⟨_, _, _, _, rfl⟩ := h
    cases hr
    exact reports_no_chars rfl nofun nofun (by simp [Instr.reads])
  | bsbin a =>
    obtain ⟨q, -, rfl⟩ := h
    cases hr
    exact ⟨fun _ => .inl ⟨a, rfl⟩, fun _ => by simp, nofun⟩
  | bshex a n =>
    obtain ⟨q, -, rfl⟩ := h
    cases hr
    refine ⟨fun _ => .inr ⟨a, n, rfl⟩, fun _ => ?_, nofun⟩
    have := q.byteCount_le
    rw [hexPairs_length, List.length_range, BitVec.toNat_ofNat, Nat.mod_eq_of_lt (by omega)]

/-- Settles O47: a word that decodes is answered as `exec_responds` says, a success in the shape of `Effect.reports`; any other
word by `illegal_next`. -/
theorem oneResponsePerCommand : Obligations.OneResponsePerCommand := by
  intro w s hp
  by_cases hw : LegalWord w
  · obtain ⟨i, hi⟩ := (legalWord_iff_decodes w).mp hw
    obtain ⟨t, r, hexec, hr, htin, hcases⟩ := exec_responds (supplied_of_payload hi hp)
    rw [textLength_eq_payloadLength hi] at htin
    refine ⟨t, r, (runWord_of_decode hi s).trans hexec, hr, htin, ?_⟩
    simp only [hi, Except.ok.injEq, forall_eq']
    rcases hcases with ⟨hfail, hchars, -⟩ | ⟨hok, heffect⟩
    · exact ⟨fun h => absurd hchars h, fun h => absurd h hfail⟩
    · have hreports := heffect.reports hr
      exact ⟨fun h => ⟨hok, hreports.chars h⟩, fun _ => ⟨hreports.count, hreports.res⟩⟩
  · refine ⟨_, ⟨.illegalCommand, 0, []⟩, (runWord_of_illegal hw s).trans (illegal_next hp), rfl, rfl, fun h => absurd rfl h,
      fun i hi => ?_⟩
    exact absurd ((legalWord_iff_decodes w).mpr ⟨i, hi⟩) hw

end Sys2Proof.Machine
end

section
/-! PROOFS. The tree and its code tables: the root's frequency, the raw codes as a minimal prefix code, the canonical numbers, and
the length of an encoded text (42_tree_builder.md, 43_canonicalizer.md, 44_encoder.md). -/

namespace Sys2Proof.Machine

/-! ## The root (42_tree_builder.md R110) -/

/-- Settles O20: `buildTree_spec`, whose growing tree keeps the sum over the pool at the total of the counts. -/
theorem rootFrequencyIsTheTotal : Obligations.RootFrequencyIsTheTotal := by
  intro s h hn hsym hnode htotal
  obtain ⟨root, hpool, -, hfreq⟩ := buildTree_spec s hnode (presentSymbols_ne_nil_of_nsym hn hsym) htotal
  refine ⟨_, build_next h hn, rfl, ?_⟩
  simpa only [hpool, List.headD_cons] using hfreq

/-! ## The raw codes (42_tree_builder.md R109, R111) -/

/-- Settles O23: what `GENCODES` leaves is `rawCodes` of the tree, a code table for its counts (`rawCodes_spec`). -/
theorem rawCodesAreAPrefixCode : Obligations.RawCodesAreAPrefixCode :=
  fun _ h htree => ⟨_, gencodes_next h, (rawCodes_spec htree).1⟩

/-- No prefix code codes the counts in fewer bits than the table. -/
def Minimal (freq : Sparse Freq) (t : Sparse BitSeq) : Prop := ∀ u, PrefixCodeOn (presentSymbols freq) u →
  codeCost freq (fun x => ((codeBits t x).getD []).length) ≤ codeCost freq fun x => (u x).length

namespace TreeOf

variable {freq : Sparse Freq} {node : Sparse Node} {root : NodeIx}

/-- A tree has a leaf: with none, no index would be its root. -/
theorem one_or_more (h : TreeOf freq node root) :
    (presentSymbols freq).length = 1 ∨ 2 ≤ (presentSymbols freq).length := by
  have := h.rootLast
  omega

theorem exists_rawCode (h : TreeOf freq node root) {x : Symbol} (hx : x ∈ presentSymbols freq) :
    ∃ c, codeBits (rawCodes node root) x = some c :=
  Option.isSome_iff_exists.mp (((rawCodes_spec h).1.symbols x).mpr (mem_presentSymbols.mp hx))

/-- R109 (a) for a lone symbol: its one bit is no more than any word that is not empty. -/
theorem rawCodes_cost_le_of_lone (h : TreeOf freq node root) (h1 : (presentSymbols freq).length = 1)
    {u : Symbol → List Bool} (hu : ∀ x ∈ presentSymbols freq, u x ≠ []) :
    codeCost freq (fun x => ((codeBits (rawCodes node root) x).getD []).length) ≤ codeCost freq fun x => (u x).length := by
  obtain ⟨x, hx⟩ := List.length_eq_one_iff.mp h1
  have hmem : x ∈ presentSymbols freq := by simp [hx]
  have hcode := (rawCodes_lone h h1 x [false]).mpr ⟨hmem, rfl⟩
  have hlen : 1 ≤ (u x).length := List.length_pos_iff.mpr (hu x hmem)
  simpa [codeCost, hx, hcode] using Nat.le_mul_of_pos_right _ hlen

/-- R109 (a) for a tree with a merge: each raw code is a list of turns to its leaf. -/
theorem rawCodes_cost_le (h : TreeOf freq node root) (h2 : 2 ≤ (presentSymbols freq).length) {u : Symbol → List Bool}
    (hu : ∀ x ∈ presentSymbols freq, ∀ y ∈ presentSymbols freq, u x <+: u y → x = y) :
    codeCost freq (fun x => ((codeBits (rawCodes node root) x).getD []).length) ≤ codeCost freq fun x => (u x).length := by
  refine h.codeCost_le h2 _ u (fun x hx => ?_) hu
  obtain ⟨c, hc⟩ := h.exists_rawCode hx
  rw [hc]
  exact (rawCodes_iff_descend h h2 x c).mp hc

theorem rawCodes_minimal (h : TreeOf freq node root) : Minimal freq (rawCodes node root) := by
  rintro u ⟨hne, hprefix⟩
  rcases h.one_or_more with h1 | h2
  · exact h.rawCodes_cost_le_of_lone h1 hne
  · exact h.rawCodes_cost_le h2 hprefix

/-- R111: a path passes fewer internal nodes than there are leaves. -/
theorem descend_length_lt (h : TreeOf freq node root) {x : Symbol} {c : List Bool} {f : Freq} {k : NodeIx}
    (hd : descend node root c = some (.leaf x f k)) : c.length < (presentSymbols freq).length := by
  obtain ⟨shape, hshape⟩ := h.exists_shape root le_rfl
  have hpath : c.length ≤ shape.depth := by
    simpa using (shape.codes_prefix [] _ (mem_codes_of_descend hshape [] c hd)).2
  have hleaves := (h.leaves_perm hshape).length_eq
  have := shape.depth_lt_leaves
  omega

end TreeOf

/-- Settles O24: `TreeOf.rawCodes_minimal`, by the exchange argument, or for a lone symbol because no word is empty. -/
theorem rawCodesAreMinimal : Obligations.RawCodesAreMinimal :=
  fun _ h htree => ⟨_, gencodes_next h, fun u hne hprefix => htree.rawCodes_minimal u ⟨hne, hprefix⟩⟩

/-- Settles O25: a raw code is the one bit of a lone symbol or a list of turns, shorter than the number of leaves
(`TreeOf.descend_length_lt`). -/
theorem rawCodeLengthIsBounded : Obligations.RawCodeLengthIsBounded := by
  refine fun s h htree => ⟨_, gencodes_next h, fun x c hc => ?_⟩
  rcases htree.one_or_more with h1 | h2
  · obtain ⟨-, rfl⟩ := (rawCodes_lone htree h1 x c).mp hc
    exact le_max_left _ _
  · obtain ⟨f, k, hd⟩ := (rawCodes_iff_descend htree h2 x c).mp hc
    have := htree.descend_length_lt hd
    omega

/-! ## The canonical numbers (43_canonicalizer.md R121, R125) -/

/-- Settles O29: the numbering reads the lengths only (`numberCodes_can_congr`). -/
theorem canonDependsOnLengthsOnly : Obligations.CanonDependsOnLengthsOnly := by
  intro s u h hsame
  refine ⟨_, canon_next h, ?_⟩
  rw [canon_next (s := { s with raw := u }) h,
    numberCodes_can_congr (s := { s with raw := u }) (t := s) fun x => (hsame x).symm]
  rfl

/-- R125: the number of a symbol is the value of its canonical code, so it fits the length. -/
theorem CodesFor.canonicalValue_lt {freq : Sparse Freq} {s : State} (h : CodesFor freq s.raw) {x : Symbol} {c : List Bool}
    (hc : codeBits s.raw x = some c) : canonicalValue s.raw c.length x < 2 ^ c.length := by
  obtain ⟨-, -, hvalue⟩ := numberCodes_spec s h
  obtain ⟨d, -, hlen, hval⟩ := hvalue x c hc
  rw [← hval, ← hlen]
  exact bitsVal_lt d

/-- `x`, of code `c`, is the last symbol of a table in the order (length, symbol). -/
def LastCode (t : Sparse BitSeq) (x : Symbol) (c : List Bool) : Prop :=
  ∀ z cz, codeBits t z = some cz → cz.length < c.length ∨ (cz.length = c.length ∧ z.toNat ≤ x.toNat)

/-- R125: at the last symbol all the room is taken but for its own number. -/
theorem LastCode.canonicalValue_succ {t : Sparse BitSeq} {x : Symbol} {c : List Bool} (hlast : LastCode t x c)
    (hc : codeBits t x = some c) (hmax : c.length ≤ maxCodeLen) :
    (canonicalValue t c.length x + 1) * 2 ^ (maxCodeLen - c.length) = kraftSum t := by
  rw [← sum_one_symbol x, canonicalValue, ← List.sum_map_add, ← List.sum_map_mul_right, kraftSum]
  refine congrArg List.sum (List.map_congr_left fun z _ => ?_)
  by_cases hzx : z = x
  · subst hzx
    simp [hc]
  cases hz : codeBits t z with
  | none => simp [hzx]
  | some cz =>
    have hne : z.toNat ≠ x.toNat := fun e => hzx (BitVec.eq_of_toNat_eq e)
    have hbefore := hlast z cz hz
    have hexp : c.length - cz.length + (maxCodeLen - c.length) = maxCodeLen - cz.length := by omega
    simp only [hzx, if_false, Nat.add_zero]
    rw [if_pos (by omega), ← pow_add, hexp]

theorem bitsVal_replicate_true (L : Nat) : bitsVal (List.replicate L true) + 1 = 2 ^ L := by
  induction L with
  | zero => rfl
  | succ L ih =>
    rw [List.replicate_succ', bitsVal_append_one, pow_succ, ← ih, Bool.toNat_true]
    omega

/-- The last code of a table that numbers itself and fills the code space is all ones. -/
theorem LastCode.all_ones {t : Sparse BitSeq} {x : Symbol} {c : List Bool} (hlast : LastCode t x c)
    (hc : codeBits t x = some c) (hmax : c.length ≤ maxCodeLen) (hval : bitsVal c = canonicalValue t c.length x)
    (hfull : kraftSum t = 2 ^ maxCodeLen) : c = List.replicate c.length true := by
  refine bitsVal_inj (by simp) (Nat.succ_injective ?_)
  have hroom : (bitsVal c + 1) * 2 ^ (maxCodeLen - c.length) = 2 ^ c.length * 2 ^ (maxCodeLen - c.length) := by
    rw [hval, hlast.canonicalValue_succ hc hmax, hfull, ← pow_add, Nat.add_sub_cancel' hmax]
  exact (Nat.eq_of_mul_eq_mul_right (Nat.two_pow_pos _) hroom).trans (bitsVal_replicate_true _).symm

/-- Settles O28: `CodesFor.canonicalValue_lt`; the canonical table numbers itself (`bitsVal_numberCodes`), and with two symbols its
Kraft sum is 1, so `LastCode.all_ones` holds of it. -/
theorem canonicalNumbersFit : Obligations.CanonicalNumbersFit := by
  refine fun s h hcodes => ⟨_, canon_next h, fun x c => hcodes.canonicalValue_lt, fun h2 x c hc hlast => ?_⟩
  obtain ⟨hcan, -, -⟩ := numberCodes_spec s hcodes
  have hfull : kraftSum s.numberCodes.can = 2 ^ maxCodeLen := by rw [hcan.kraft, if_neg (by omega)]
  exact LastCode.all_ones hlast hc (hcan.fit x c hc) (bitsVal_numberCodes hcodes hc) hfull

/-! ## The length of an encoded text (44_encoder.md R133) -/

/-- R133 (e): in a session a text takes the same bits with either table. -/
theorem SessionInv.textCode_length {s : State} (hi : SessionInv s) (h : s.stage = .canonicalCodesGenerated) (f : Bool)
    (text : List Byte) :
    (textCode (s.codeMap f) text).length = (text.map fun b => ((codeBits s.raw b).getD []).length).sum := by
  rw [Machine.textCode_length]
  exact congrArg List.sum (List.map_congr_left fun b _ => hi.mapLengths h f b)

/-- A text with the counts of a Frequency Table holds its symbols and no others. -/
theorem mem_presentSymbols_iff_mem {freq : Sparse Freq} {text : List Byte}
    (hc : ∀ x : Symbol, (Sparse.read freq x.toNat).toNat = text.count x) (x : Symbol) : x ∈ presentSymbols freq ↔ x ∈ text := by
  rw [mem_presentSymbols, hc, Nat.one_le_iff_ne_zero, ne_eq, List.count_eq_zero, not_not]

/-- R133 (e): summed by symbol, the code words of a text are the weighted sum of its counts. -/
theorem SessionInv.textCode_length_eq_cost {s : State} (hi : SessionInv s) (h : s.stage = .canonicalCodesGenerated) (f : Bool)
    {text : List Byte} (hc : ∀ x : Symbol, (Sparse.read s.freq x.toNat).toNat = text.count x) :
    (textCode (s.codeMap f) text).length = codeCost s.freq fun x => ((codeBits s.raw x).getD []).length :=
  (hi.textCode_length h f text).trans (sum_text_eq_codeCost hc _)

theorem SessionInv.allCoded_of_counts {s : State} (hi : SessionInv s) (h : s.stage = .canonicalCodesGenerated) (f : Bool)
    {text : List Byte} (hc : ∀ x : Symbol, (Sparse.read s.freq x.toNat).toNat = text.count x) : AllCoded (s.codeMap f) text :=
  (hi.mapCodes h f).allCoded fun b => (mem_presentSymbols_iff_mem hc b).mpr

/-- Settles O32: the counted text is all coded, so it is encoded (`encode_coded`), in the bits of the weighted sum
(`SessionInv.textCode_length_eq_cost`). -/
theorem encodedLengthIsTheWeightedSum : Obligations.EncodedLengthIsTheWeightedSum := by
  intro n s hi h hn hcounts hfit f
  have hlen := hi.textCode_length_eq_cost h f hcounts
  obtain ⟨q, -, hbits, hexec⟩ := encode_coded hn h (hi.allCoded_of_counts h f hcounts) (hlen.trans_le hfit)
  refine ⟨_, hexec, rfl, ?_⟩
  rw [← BitSeq.bits_length, hbits, hlen]

/-! ## A lone symbol (42_tree_builder.md R108, 44_encoder.md R133 (d)) -/

/-- The first symbol of a table has the number 0: no code word comes before it. -/
theorem canonicalValue_of_lone {t : Sparse BitSeq} {x : Symbol} (L : Nat) (hx : ∀ c, codeBits t x = some c → c.length = L)
    (hother : ∀ y, y ≠ x → codeBits t y = none) : canonicalValue t L x = 0 := by
  refine List.sum_eq_zero fun v hv => ?_
  obtain ⟨y, -, rfl⟩ := List.mem_map.mp hv
  by_cases hyx : y = x
  · subst hyx
    cases hy : codeBits t y with
    | none => rfl
    | some c => simp [hx c hy]
  · rw [hother y hyx]

theorem CodesFor.eq_none {freq : Sparse Freq} {t : Sparse BitSeq} (h : CodesFor freq t) {y : Symbol}
    (hy : y ∉ presentSymbols freq) : codeBits t y = none := by
  rwa [← Option.not_isSome_iff_eq_none, h.symbols, ← mem_presentSymbols]

/-- By R108 the raw code of a lone symbol is one 0, and by R122 so is its canonical code. -/
theorem SessionInv.lone_code {s : State} (hi : SessionInv s) (h : s.stage = .canonicalCodesGenerated) {x : Symbol}
    (hx : presentSymbols s.freq = [x]) (f : Bool) : codeBits (s.codeMap f) x = some [false] := by
  have h3 : 3 ≤ s.stage.code.toNat := by rw [h]; decide
  have h4 : 4 ≤ s.stage.code.toNat := by rw [h]; decide
  have hlone := hi.lone h3 (by simp [hx])
  have hmem : 1 ≤ (Sparse.read s.freq x.toNat).toNat := mem_presentSymbols.mp (by simp [hx])
  obtain ⟨c, hc⟩ := Option.isSome_iff_exists.mp (((hi.mapCodes h f).symbols x).mpr hmem)
  cases f with
  | false => exact hc.trans (congrArg some (hlone x c hc))
  | true =>
    obtain ⟨d, hd, hlen⟩ := (hi.can h4).2.exists_code hc
    obtain rfl := hlone x d hd
    have hval : bitsVal c = 0 := by
      rw [hi.numbers h4 x c hc]
      refine canonicalValue_of_lone _ (fun e he => ?_) fun y hy => (hi.raw h3).eq_none (by simpa [hx] using hy)
      rw [hlone x e he, hlen]
    exact hc.trans (congrArg some (bitsVal_inj hlen.symm hval))

theorem textCode_replicate {t : Sparse BitSeq} {x : Symbol} (hx : codeBits t x = some [false]) (m : Nat) :
    textCode t (List.replicate m x) = List.replicate m false := by
  induction m with
  | zero => rfl
  | succ m ih => rw [List.replicate_succ, textCode_cons, ih, hx]; rfl

/-- Settles O33: with either table the code of the symbol is one 0 (`SessionInv.lone_code`), so the text is all coded and its code
is as many zeros. -/
theorem loneSymbolEncodesToZeros : Obligations.LoneSymbolEncodesToZeros := by
  intro f n x s hi h hx htext hfit
  have hcode := hi.lone_code h hx f
  have hzeros := textCode_replicate hcode n.toNat
  have hn : n.toNat ≤ s.tin.length := by
    simpa using (congrArg List.length htext).symm.le
  have hcoded : AllCoded (s.codeMap f) (s.tin.take n.toNat) := by
    rw [htext]
    intro b hb
    rw [List.eq_of_mem_replicate hb, hcode]
    rfl
  obtain ⟨q, -, hbits, hexec⟩ := encode_coded hn h hcoded (by rw [htext, hzeros]; simpa using hfit)
  exact ⟨_, hexec, rfl, by rw [hbits, htext, hzeros]⟩

end Sys2Proof.Machine
end

section
/-! PROOFS. Every command: what it reads and writes, where the stage moves, and which errors it can give (10_state.md,
20_memory.md, 60_exceptions.md). -/

namespace Sys2Proof.Machine

/-! ## Two selectors (41_bit_sequence.md R92) -/

/-- `selector_cases` for a command on two selectors, in the order in which the command looks at them. -/
theorem selector_pair_cases (s : State) (a b : Selector) : (TooEarly s a ∨ TooEarly s b) ∨
    (¬ TooEarly s a ∧ ¬ TooEarly s b ∧ (Absent s a ∨ Absent s b)) ∨ ∃ q p, ResolvesTo s q a ∧ ResolvesTo s p b := by
  by_cases ha : TooEarly s a
  · exact .inl (.inl ha)
  by_cases hb : TooEarly s b
  · exact .inl (.inr hb)
  rcases (selector_cases s a).resolve_left ha with ha' | ⟨q, hq⟩
  · exact .inr (.inl ⟨ha, hb, .inl ha'⟩)
  rcases (selector_cases s b).resolve_left hb with hb' | ⟨p, hp⟩
  · exact .inr (.inl ⟨ha, hb, .inr hb'⟩)
  · exact .inr (.inr ⟨q, p, hq, hp⟩)

/-! ## The read commands (20_memory.md R49) -/

/-- A command on one selector that only reads it: its response does not depend on the responses given before. -/
theorem withSeq_reads (a : Selector) (s : State) (res : BitSeq → Imm) (chars : BitSeq → List Byte) :
    ∃ r, ∀ rs, withSeq a { s with responses := rs } (fun q => ok (res q) (chars q) { s with responses := rs }) =
      .next { s with responses := r :: rs } := by
  rcases selector_cases s a with ha | ha | ⟨q, hq⟩
  · exact ⟨_, fun rs => withSeq_tooEarly (s := { s with responses := rs }) ha _⟩
  · exact ⟨_, fun rs => withSeq_absent (s := { s with responses := rs }) ha _⟩
  · exact ⟨_, fun rs => withSeq_resolves (s := { s with responses := rs }) hq _⟩

theorem bseq_reads (a b : Selector) (s : State) :
    ∃ r, ∀ rs, execBseq a b { s with responses := rs } = .next { s with responses := r :: rs } := by
  rcases selector_pair_cases s a b with h | ⟨ha, hb, h⟩ | ⟨q, p, hq, hp⟩
  · exact ⟨_, fun rs => withSeqs_tooEarly (s := { s with responses := rs }) h _⟩
  · exact ⟨_, fun rs => withSeqs_absent (s := { s with responses := rs }) ha hb h _⟩
  · exact ⟨_, fun rs => withSeqs_resolves (s := { s with responses := rs }) hq hp _⟩

theorem rdfreq_reads (x : Symbol) (s : State) :
    ∃ r, ∀ rs, execRdfreq x { s with responses := rs } = .next { s with responses := r :: rs } := by
  by_cases h : s.stage = .empty
  · exact ⟨_, fun rs => rdfreq_empty (s := { s with responses := rs }) h⟩
  · exact ⟨⟨.ok, Sparse.read s.freq x.toNat, []⟩, fun rs => rdfreq_counted (s := { s with responses := rs }) h⟩

theorem exec_reads {i : Instr} (hi : Instr.reads i = true) (s : State) :
    ∃ r, ∀ rs, exec i { s with responses := rs } = .next { s with responses := r :: rs } := by
  cases i with
  | rdstage => exact ⟨⟨.ok, s.stage.code.setWidth 32, []⟩, fun rs => rfl⟩
  | rdfreq x => exact rdfreq_reads x s
  | bsbit a n => exact withSeq_reads a s (fun q => if q.bitAt n.toNat then 1 else 0) fun _ => []
  | bslen a => exact withSeq_reads a s (fun q => q.len) fun _ => []
  | bsbytes a => exact withSeq_reads a s (fun q => BitVec.ofNat 32 q.byteCount) fun _ => []
  | bsbin a => exact withSeq_reads a s (fun q => q.len) fun q => q.bits.map bitChar
  | bshex a n =>
    exact withSeq_reads a s (fun q => BitVec.ofNat 32 (2 * min n.toNat q.byteCount)) fun q =>
      (List.range (min n.toNat q.byteCount)).flatMap fun k => hexPair (q.byteAt k)
  | bseq a b => exact bseq_reads a b s
  | newsession | count | build | gencodes | canon | encode | bsclr | bsappb | bsapps => cases hi

/-- Settles O48: `exec_reads` with the responses before the first issue and before the second. -/
theorem readCommandsArePure : Obligations.ReadCommandsArePure := by
  intro i s hi
  obtain ⟨r, hr⟩ := exec_reads hi s
  exact ⟨r, hr s.responses, hr (r :: s.responses)⟩

/-! ## What a command changes (10_state.md R20, R21) -/

theorem Failed.eq {i : Instr} {s t : State} (h : Failed i s t) :
    ∃ r, t = { s with tin := s.tin.drop (Instr.textLength i), responses := r :: s.responses } := by
  obtain ⟨e, info, -, -, rfl⟩ := h
  exact ⟨_, rfl⟩

theorem Effect.eq_of_reads {i : Instr} {s t : State} (hi : Instr.reads i = true) (h : Effect s t i) :
    ∃ r, t = { s with responses := r :: s.responses } := by
  cases i with
  | rdstage => exact ⟨_, h⟩
  | rdfreq => exact ⟨_, h.2⟩
  | bsbit | bslen | bsbytes | bsbin | bshex =>
    obtain ⟨q, -, h⟩ := h
    exact ⟨_, h⟩
  | bseq =>
    obtain ⟨q, p, -, -, h⟩ := h
    exact ⟨_, h⟩
  | newsession | count | build | gencodes | canon | encode | bsclr | bsappb | bsapps => cases hi

/-- Settles O50: a failing command changes no stage (`Failed.eq`), nor does a read command (`Effect.eq_of_reads`); the effect of
each other command says what it leaves. -/
theorem stageMovesOnlyByItsCommands : Obligations.StageMovesOnlyByItsCommands := by
  intro i s t h
  obtain ⟨-, hfailed | heffect⟩ := exec_next h
  · obtain ⟨r, rfl⟩ := hfailed.eq
    exact .inl rfl
  cases i with
  | rdstage | rdfreq | bsbit | bslen | bsbytes | bsbin | bshex | bseq =>
    obtain ⟨r, rfl⟩ := heffect.eq_of_reads rfl
    exact .inl rfl
  | newsession =>
    obtain rfl := heffect
    simp
  | count | gencodes | canon =>
    obtain ⟨hstage, rfl⟩ := heffect
    simp [hstage]
  | build =>
    obtain ⟨hstage, -, rfl⟩ := heffect
    simp [hstage]
  | encode =>
    obtain ⟨hstage, q, -, rfl⟩ := heffect
    simp [hstage]
  | bsclr =>
    obtain rfl := heffect
    exact .inl rfl
  | bsappb =>
    obtain ⟨-, rfl⟩ := heffect
    exact .inl rfl
  | bsapps =>
    obtain ⟨-, q, -, -, rfl⟩ := heffect
    exact .inl rfl

/-- Settles O51: a failing command and a read command change the payload and the responses only (`Failed.eq`,
`Effect.eq_of_reads`); the effect of each other command is an update of the pieces its rows name. -/
theorem onlyItsWritersChangeAPieceOfState : Obligations.OnlyItsWritersChangeAPieceOfState := by
  intro i s t h
  obtain ⟨-, hfailed | heffect⟩ := exec_next h
  · obtain ⟨r, rfl⟩ := hfailed.eq
    simp
  cases i with
  | rdstage | rdfreq | bsbit | bslen | bsbytes | bsbin | bshex | bseq =>
    obtain ⟨r, rfl⟩ := heffect.eq_of_reads rfl
    simp
  | newsession | bsclr =>
    obtain rfl := heffect
    simp
  | count | gencodes | canon | bsappb =>
    obtain ⟨-, rfl⟩ := heffect
    simp
  | build =>
    obtain ⟨-, -, rfl⟩ := heffect
    simp
  | encode =>
    obtain ⟨-, q, -, rfl⟩ := heffect
    simp
  | bsapps =>
    obtain ⟨-, q, -, -, rfl⟩ := heffect
    simp

/-! ## The transient registers (10_state.md R20, R33) -/

/-- A state with other values in the transient registers. -/
def State.withTransient (s : State) (tie : NodeIx) (pool : List NodeIx) (nextCode : Nat) (curLen : BitVec 8) : State :=
  { s with tie := tie, pool := pool, nextCode := nextCode, curLen := curLen }

/-- The second outcome is the first but for the transient registers of its state. -/
def SameButTransient (o o' : Outcome) : Prop :=
  ∀ t, o = .next t → ∃ tie pool nextCode curLen, o' = .next (t.withTransient tie pool nextCode curLen)

section
variable {s : State} {tie : NodeIx} {pool : List NodeIx} {nextCode : Nat} {curLen : BitVec 8}

theorem sameButTransient_next (t : State) : SameButTransient (.next t) (.next (t.withTransient tie pool nextCode curLen)) := by
  rintro _ ⟨⟩
  exact ⟨_, _, _, _, rfl⟩

theorem ite_sameButTransient {c : Prop} [Decidable c] {a a' b b' : Outcome} (ha : SameButTransient a a')
    (hb : SameButTransient b b') : SameButTransient (if c then a else b) (if c then a' else b') := by
  split
  · exact ha
  · exact hb

theorem atStage_sameButTransient {want : Stage} {k : State → Outcome}
    (hk : SameButTransient (k s) (k (s.withTransient tie pool nextCode curLen))) :
    SameButTransient (atStage want s k) (atStage want (s.withTransient tie pool nextCode curLen) k) :=
  ite_sameButTransient hk (sameButTransient_next _)

theorem withText_sameButTransient {n : Imm} {k : List Byte → State → Outcome}
    (hk : ∀ text t, SameButTransient (k text t) (k text (t.withTransient tie pool nextCode curLen))) :
    SameButTransient (withText n s k) (withText n (s.withTransient tie pool nextCode curLen) k) := by
  by_cases h : n.toNat ≤ s.tin.length
  · rw [withText_of_supplied h, withText_of_supplied (s := s.withTransient tie pool nextCode curLen) h]
    exact hk _ { s with tin := s.tin.drop n.toNat }
  · rw [withText_of_withheld (Nat.lt_of_not_le h)]
    nofun

theorem denote_withTransient (a : Selector) : denote (s.withTransient tie pool nextCode curLen) a = denote s a := by
  cases a <;> rfl

theorem withPresent_sameButTransient {a : Selector} {k k' : BitSeq → Outcome} (hk : ∀ q, SameButTransient (k q) (k' q)) :
    SameButTransient (withPresent a s k) (withPresent a (s.withTransient tie pool nextCode curLen) k') := by
  rw [withPresent, withPresent, denote_withTransient]
  cases denote s a with
  | none => exact sameButTransient_next _
  | some q => exact hk q

theorem withSeq_sameButTransient {a : Selector} {k k' : BitSeq → Outcome} (hk : ∀ q, SameButTransient (k q) (k' q)) :
    SameButTransient (withSeq a s k) (withSeq a (s.withTransient tie pool nextCode curLen) k') :=
  ite_sameButTransient (withPresent_sameButTransient hk) (sameButTransient_next _)

theorem withSeqs_sameButTransient {a b : Selector} {k k' : BitSeq → BitSeq → Outcome}
    (hk : ∀ q p, SameButTransient (k q p) (k' q p)) :
    SameButTransient (withSeqs a b s k) (withSeqs a b (s.withTransient tie pool nextCode curLen) k') :=
  ite_sameButTransient (withPresent_sameButTransient fun q => withPresent_sameButTransient (hk q)) (sameButTransient_next _)

/-- The merges begin with their own `TIE` and `POOL`, and leave `NEXTCODE` and `CURLEN` alone. -/
theorem build_sameButTransient :
    SameButTransient (execBuild s) (execBuild (s.withTransient tie pool nextCode curLen)) := by
  refine atStage_sameButTransient ?_
  have htree : (s.withTransient tie pool nextCode curLen).buildTree = { s.buildTree with nextCode, curLen, scr := s.scr } :=
    buildTree_transient s tie pool nextCode curLen s.scr
  rw [htree]
  refine ite_sameButTransient (sameButTransient_next _) ?_
  rintro _ ⟨⟩
  exact ⟨0#9, [], nextCode, curLen, rfl⟩

/-- The numbering begins with its own `NEXTCODE` and `CURLEN`, and leaves `TIE` and `POOL` alone. -/
theorem canon_sameButTransient :
    SameButTransient (execCanon s) (execCanon (s.withTransient tie pool nextCode curLen)) := by
  refine atStage_sameButTransient ?_
  have hcodes : (s.withTransient tie pool nextCode curLen).numberCodes = { s.numberCodes with tie, pool, scr := s.scr } :=
    numberCodes_transient s tie pool nextCode curLen s.scr
  rw [hcodes]
  rintro _ ⟨⟩
  exact ⟨tie, pool, 0, 0#8, rfl⟩

theorem encode_sameButTransient (f : Bool) (n : Imm) :
    SameButTransient (execEncode f n s) (execEncode f n (s.withTransient tie pool nextCode curLen)) := by
  refine withText_sameButTransient fun text t => atStage_sameButTransient ?_
  have hmap : (t.withTransient tie pool nextCode curLen).codeMap f = t.codeMap f := rfl
  have hcfg : (t.withTransient tie pool nextCode curLen).cfg = t.cfg := rfl
  rw [hmap, hcfg]
  cases encodeText t.cfg.outCapBits.toNat (t.codeMap f) 0 BitSeq.empty text <;> exact sameButTransient_next _

theorem exec_sameButTransient (i : Instr) :
    SameButTransient (exec i s) (exec i (s.withTransient tie pool nextCode curLen)) := by
  cases i with
  | newsession | rdstage | bsclr => exact sameButTransient_next _
  | rdfreq => exact ite_sameButTransient (sameButTransient_next _) (sameButTransient_next _)
  | count n =>
    show SameButTransient (execCount n s) (execCount n _)
    refine withText_sameButTransient fun text t => atStage_sameButTransient ?_
    exact sameButTransient_next _
  | build => exact build_sameButTransient
  | gencodes =>
    show SameButTransient (execGencodes s) (execGencodes _)
    refine atStage_sameButTransient ?_
    exact sameButTransient_next _
  | canon => exact canon_sameButTransient
  | encode f n => exact encode_sameButTransient f n
  | bsappb => exact ite_sameButTransient (sameButTransient_next _) (sameButTransient_next _)
  | bsapps =>
    refine ite_sameButTransient (sameButTransient_next _) (withSeq_sameButTransient fun q => ?_)
    exact ite_sameButTransient (sameButTransient_next _) (sameButTransient_next _)
  | bsbit | bslen | bsbytes | bsbin | bshex => exact withSeq_sameButTransient fun q => sameButTransient_next _
  | bseq => exact withSeqs_sameButTransient fun q p => sameButTransient_next _

end

/-- Settles O52: `exec_sameButTransient`. -/
theorem transientRegistersCannotBeSeen : Obligations.TransientRegistersCannotBeSeen := by
  intro i s t tie pool nextCode curLen h
  obtain ⟨tie', pool', nextCode', curLen', h'⟩ := exec_sameButTransient i t h
  exact ⟨_, h', rfl⟩

/-! ## The errors of a command (60_exceptions.md R151) -/

/-- The statuses a response to command `i` can have. -/
def MayAnswer (i : Instr) : Status → Prop
  | .ok => True
  | .usageOrder => (∃ n, i = .count n) ∨ i = .build ∨ i = .gencodes ∨ i = .canon ∨ (∃ f n, i = .encode f n) ∨
      (∃ x, i = .rdfreq x) ∨ Instr.selectors i ≠ []
  | .unknownSymbol => (∃ f n, i = .encode f n) ∨ ∃ x, .raw x ∈ Instr.selectors i ∨ .can x ∈ Instr.selectors i
  | .emptyInput => i = .build
  | .capacity => (∃ f n, i = .encode f n) ∨ (∃ b, i = .bsappb b) ∨ ∃ a, i = .bsapps a
  | .illegalCommand => False

/-- The status of the response that an outcome adds to those of `s` meets `P`. -/
def AnswersBy (P : Status → Prop) (s : State) (o : Outcome) : Prop :=
  ∀ t r, o = .next t → t.responses = r :: s.responses → P r.status

section
variable {P : Status → Prop} {s t : State}

theorem respond_answersBy {st : Status} (hP : P st) (ht : t.responses = s.responses) (res : Imm) (chars : List Byte) :
    AnswersBy P s (.next (t.respond st res chars)) := by
  rintro _ r ⟨⟩ hr
  rw [State.respond_responses, ht] at hr
  cases hr
  exact hP

theorem ite_answersBy {c : Prop} [Decidable c] {a b : Outcome} (ha : AnswersBy P s a) (hb : AnswersBy P s b) :
    AnswersBy P s (if c then a else b) := by
  split
  · exact ha
  · exact hb

theorem atStage_answersBy {want : Stage} {k : State → Outcome} (hP : P .usageOrder) (ht : t.responses = s.responses)
    (hk : AnswersBy P s (k t)) : AnswersBy P s (atStage want t k) :=
  ite_answersBy hk (respond_answersBy hP ht 0 [])

theorem withText_answersBy {n : Imm} {k : List Byte → State → Outcome}
    (hk : ∀ text tin, AnswersBy P s (k text { s with tin := tin })) : AnswersBy P s (withText n s k) :=
  fun t r h => hk _ _ t r (withText_next h).2

theorem symbol_of_absent {a : Selector} (h : Absent s a) : ∃ x, a = .raw x ∨ a = .can x := by
  cases a with
  | scr | out => exact h.elim
  | raw x => exact ⟨x, .inl rfl⟩
  | can x => exact ⟨x, .inr rfl⟩

theorem withSeq_answersBy {a : Selector} {k : BitSeq → Outcome} (hearly : P .usageOrder)
    (habsent : Absent s a → P .unknownSymbol) (hk : ∀ q, AnswersBy P s (k q)) : AnswersBy P s (withSeq a s k) := by
  rcases selector_cases s a with ha | ha | ⟨q, hq⟩
  · rw [withSeq_tooEarly ha]
    exact respond_answersBy hearly rfl 0 []
  · rw [withSeq_absent ha]
    exact respond_answersBy (habsent ha) rfl 0 []
  · rw [withSeq_resolves hq]
    exact hk q

theorem withSeqs_answersBy {a b : Selector} {k : BitSeq → BitSeq → Outcome} (hearly : P .usageOrder)
    (habsent : Absent s a ∨ Absent s b → P .unknownSymbol) (hk : ∀ q p, AnswersBy P s (k q p)) :
    AnswersBy P s (withSeqs a b s k) := by
  rcases selector_pair_cases s a b with h | ⟨ha, hb, h⟩ | ⟨q, p, hq, hp⟩
  · rw [withSeqs_tooEarly h]
    exact respond_answersBy hearly rfl 0 []
  · rw [withSeqs_absent ha hb h]
    exact respond_answersBy (habsent h) rfl 0 []
  · rw [withSeqs_resolves hq hp]
    exact hk q p

end

theorem mayAnswer_usageOrder {i : Instr} (h : Instr.selectors i ≠ []) : MayAnswer i .usageOrder := by
  simp only [MayAnswer, h, ne_eq, not_false_eq_true, or_true]

theorem mayAnswer_unknownSymbol {i : Instr} {s : State} {a : Selector} (ha : a ∈ Instr.selectors i) (h : Absent s a) :
    MayAnswer i .unknownSymbol := by
  obtain ⟨x, rfl | rfl⟩ := symbol_of_absent h
  · exact .inr ⟨x, .inl ha⟩
  · exact .inr ⟨x, .inr ha⟩

theorem encode_answersBy (f : Bool) (n : Imm) (s : State) : AnswersBy (MayAnswer (.encode f n)) s (execEncode f n s) := by
  refine withText_answersBy fun text tin => atStage_answersBy (by simp [MayAnswer]) rfl ?_
  split
  · next e info he =>
    refine respond_answersBy ?_ rfl _ _
    rcases encodeText_error he with rfl | ⟨rfl, -⟩ <;> exact .inl ⟨f, n, rfl⟩
  · exact respond_answersBy trivial rfl _ _

/-- A command is answered with success or one of its own errors. -/
theorem exec_answersBy {i : Instr} (hi : i.wellFormed = true) (s : State) : AnswersBy (MayAnswer i) s (exec i s) := by
  cases i with
  | newsession | rdstage | bsclr => exact respond_answersBy trivial rfl _ _
  | rdfreq x =>
    have hearly : MayAnswer (.rdfreq x) .usageOrder := by simp [MayAnswer]
    exact ite_answersBy (respond_answersBy trivial rfl _ _) (respond_answersBy hearly rfl _ _)
  | count n =>
    have hearly : MayAnswer (.count n) .usageOrder := by simp [MayAnswer]
    rw [exec, execCount]
    refine withText_answersBy fun text tin => atStage_answersBy hearly rfl ?_
    exact respond_answersBy trivial rfl _ _
  | build =>
    have hearly : MayAnswer .build .usageOrder := by simp [MayAnswer]
    have hempty : MayAnswer .build .emptyInput := rfl
    rw [exec, execBuild]
    refine atStage_answersBy hearly rfl ?_
    exact ite_answersBy (respond_answersBy hempty rfl _ _) (respond_answersBy trivial rfl _ _)
  | gencodes =>
    have hearly : MayAnswer .gencodes .usageOrder := by simp [MayAnswer]
    rw [exec, execGencodes]
    refine atStage_answersBy hearly rfl ?_
    exact respond_answersBy trivial rfl _ _
  | canon =>
    have hearly : MayAnswer .canon .usageOrder := by simp [MayAnswer]
    rw [exec, execCanon]
    refine atStage_answersBy hearly rfl ?_
    exact respond_answersBy trivial rfl _ _
  | encode f n => exact encode_answersBy f n s
  | bsappb => exact ite_answersBy (respond_answersBy (by simp [MayAnswer]) rfl _ _) (respond_answersBy trivial rfl _ _)
  | bsapps a =>
    rw [exec, execBsapps, if_neg (by simpa [Instr.wellFormed] using hi)]
    refine withSeq_answersBy (mayAnswer_usageOrder nofun) (mayAnswer_unknownSymbol (List.mem_singleton_self a)) fun q => ?_
    exact ite_answersBy (respond_answersBy (by simp [MayAnswer]) rfl _ _) (respond_answersBy trivial rfl _ _)
  | bsbit a | bslen a | bsbytes a | bsbin a | bshex a =>
    exact withSeq_answersBy (mayAnswer_usageOrder nofun) (mayAnswer_unknownSymbol (List.mem_singleton_self a)) fun q =>
      respond_answersBy trivial rfl _ _
  | bseq a b =>
    refine withSeqs_answersBy (mayAnswer_usageOrder nofun) (fun h => ?_) fun q p => respond_answersBy trivial rfl _ _
    rcases h with h | h
    · exact mayAnswer_unknownSymbol (a := a) (by simp [Instr.selectors]) h
    · exact mayAnswer_unknownSymbol (a := b) (by simp [Instr.selectors]) h

/-- Settles O45: the codes are those of `Status.code`, and `exec_answersBy` says which of them a command can give. -/
theorem statusCodesAndTheirCommands : Obligations.StatusCodesAndTheirCommands := by
  refine ⟨rfl, fun st => by cases st <;> decide, fun i s t r hi h hr => ?_⟩
  have hmay := exec_answersBy hi s t r h hr
  refine ⟨?_, ?_, ?_, ?_, ?_⟩ <;> intro hst <;> rw [hst] at hmay <;> exact hmay

end Sys2Proof.Machine
end

section
/-! PROOFS. The invariants of a run: reset meets them, and every step keeps the storage forms, the lifetimes and the session
(10_state.md). -/

namespace Sys2Proof.Machine

/-! ## Reset (10_state.md R35) -/

theorem Sparse.wf_nil {α : Type} (bound : Nat) : Sparse.wf bound ([] : Sparse α) := ⟨List.Pairwise.nil, nofun⟩

theorem storageInv_hardReset {s : State} (hcfg : s.cfg.wf) : StorageInv s.hardReset where
  cfg := hcfg
  freqKeys := Sparse.wf_nil _
  freqPresent := nofun
  nodeKeys := Sparse.wf_nil _
  rawKeys := Sparse.wf_nil _
  rawCodes := nofun
  rawSizes := nofun
  canKeys := Sparse.wf_nil _
  canCodes := nofun
  canSizes := nofun
  out := BitSeq.empty_wf
  outFits := Nat.zero_le _
  scr := BitSeq.empty_wf
  scrFits := Nat.zero_le _

theorem lifetimeInv_hardReset (s : State) : LifetimeInv s.hardReset where
  nsym := (congrArg List.length presentSymbols_nil).symm
  empty _ := rfl
  noTree _ := ⟨rfl, rfl⟩
  noRaw _ := rfl
  noCan _ := rfl
  noOut _ := rfl
  rest := ⟨rfl, rfl, rfl, rfl⟩

theorem freqTotal_nil : freqTotal [] = 0 := by
  rw [freqTotal_eq_present, presentSymbols_nil]
  rfl

/-- At `Empty` a session has no tree and no codes, so the lifetimes are all it is. -/
theorem sessionInv_of_empty {s : State} (hs : StorageInv s) (hl : LifetimeInv s) (h : s.stage = .empty) : SessionInv s := by
  have hcode : s.stage.code.toNat = 0 := by rw [h]; rfl
  refine ⟨hs, hl, ?_, fun _ => by omega, fun ht => ?_, fun _ => by omega, fun _ => by omega, fun _ => by omega,
    fun _ => by omega⟩
  · rw [hl.empty h, freqTotal_nil]
    decide
  · rw [h] at ht
    cases ht

theorem sessionInv_hardReset {s : State} (hcfg : s.cfg.wf) : SessionInv s.hardReset :=
  sessionInv_of_empty (storageInv_hardReset hcfg) (lifetimeInv_hardReset s) rfl

/-- Settles O55: the reset state is what a reset leaves of it, at `Empty`. -/
theorem resetMeetsTheInvariants : Obligations.ResetMeetsTheInvariants := by
  have hi : SessionInv State.reset := sessionInv_hardReset (s := State.reset) (by decide)
  exact ⟨hi.storage, hi.lifetime, hi⟩

/-! ## The host's side

The invariants do not speak of the moves, the payload and the responses. -/

section
variable {s : State} (moves : List HostMove) (tin : List Byte) (responses : List Response)

theorem StorageInv.withHost (h : StorageInv s) :
    StorageInv { s with moves := moves, tin := tin, responses := responses } := { h with }

theorem LifetimeInv.withHost (h : LifetimeInv s) :
    LifetimeInv { s with moves := moves, tin := tin, responses := responses } := { h with }

theorem SessionInv.withHost (h : SessionInv s) :
    SessionInv { s with moves := moves, tin := tin, responses := responses } :=
  { h with storage := h.storage.withHost moves tin responses, lifetime := h.lifetime.withHost moves tin responses }

end

/-! ## The effect of each command on the storage and the lifetimes -/

theorem presentSymbols_ne_nil {s : State} (hl : LifetimeInv s) (hn : s.nsym ≠ 0) : presentSymbols s.freq ≠ [] :=
  presentSymbols_ne_nil_of_nsym hn hl.nsym

theorem Effect.storageInv {i : Instr} {s t : State} (h : Effect s t i) (hs : StorageInv s) (hl : LifetimeInv s) :
    StorageInv t := by
  cases i with
  | rdstage | rdfreq | bsbit | bslen | bsbytes | bsbin | bshex | bseq =>
    obtain ⟨r, rfl⟩ := h.eq_of_reads rfl
    exact hs.withHost _ _ _
  | newsession =>
    obtain rfl := h
    exact { storageInv_hardReset hs.cfg with scr := hs.scr, scrFits := hs.scrFits }
  | count n =>
    obtain ⟨-, rfl⟩ := h
    obtain ⟨hkeys, hpresent⟩ := countText_wf (s.tin.take n.toNat)
    exact { hs with freqKeys := hkeys, freqPresent := hpresent }
  | build =>
    obtain ⟨hstage, hn, rfl⟩ := h
    have hnode : s.node = [] := (hl.noTree (by simp [hstage])).1
    exact { hs with nodeKeys := buildTree_nodeKeys s hnode (presentSymbols_ne_nil hl hn) }
  | gencodes =>
    obtain ⟨-, rfl⟩ := h
    obtain ⟨hkeys, hcodes⟩ := rawCodes_wf s.node s.root
    exact { hs with
      nodeKeys := Sparse.wf_nil _, rawKeys := hkeys, rawCodes := fun e he => (hcodes e he).1
      rawSizes := fun e he => (hcodes e he).2 }
  | canon =>
    obtain ⟨-, rfl⟩ := h
    obtain ⟨hkeys, hcodes, hsizes⟩ := numberCodes_wf s (codesFit_of_sizes hs.rawSizes)
    exact { hs with canKeys := hkeys, canCodes := hcodes, canSizes := hsizes }
  | encode =>
    obtain ⟨-, q, hq, rfl⟩ := h
    obtain ⟨-, -, hfit, hwf⟩ := encode_output hq
    exact { hs with out := hwf, outFits := hfit }
  | bsclr =>
    obtain rfl := h
    exact { hs with scr := BitSeq.empty_wf, scrFits := Nat.zero_le _ }
  | bsappb b =>
    obtain ⟨hfit, rfl⟩ := h
    have hlen : s.scr.len.toNat + 1 < 2 ^ 32 := by omega
    exact { hs with scr := BitSeq.append_wf _ b hs.scr hlen, scrFits := (BitSeq.append_len _ b hlen).trans_le hfit }
  | bsapps =>
    obtain ⟨-, q, -, hfit, rfl⟩ := h
    obtain ⟨-, hlen, hwf, -⟩ := BitSeq.appendSeq_spec s.scr q (by omega)
    exact { hs with scr := hwf hs.scr, scrFits := hlen.trans_le hfit }

/-- What is empty at the stage a stage command leaves was empty at the stage it found. -/
theorem Effect.lifetimeInv {i : Instr} {s t : State} (h : Effect s t i) (hl : LifetimeInv s) : LifetimeInv t := by
  cases i with
  | rdstage | rdfreq | bsbit | bslen | bsbytes | bsbin | bshex | bseq =>
    obtain ⟨r, rfl⟩ := h.eq_of_reads rfl
    exact hl.withHost _ _ _
  | newsession =>
    obtain rfl := h
    exact { lifetimeInv_hardReset s with rest := hl.rest }
  | count n =>
    obtain ⟨hstage, rfl⟩ := h
    have hcode : s.stage.code.toNat = 0 := by rw [hstage]; rfl
    exact { hl with
      nsym := nsym_toNat _, empty := nofun, noTree := fun _ => hl.noTree (by simp [hstage])
      noRaw := fun _ => hl.noRaw (by omega), noCan := fun _ => hl.noCan (by omega), noOut := fun _ => hl.noOut (by omega) }
  | build =>
    obtain ⟨hstage, -, rfl⟩ := h
    have hcode : s.stage.code.toNat = 1 := by rw [hstage]; rfl
    exact { hl with
      empty := nofun, noTree := fun h => absurd rfl h, noRaw := fun _ => hl.noRaw (by omega)
      noCan := fun _ => hl.noCan (by omega), noOut := fun _ => hl.noOut (by omega)
      rest := ⟨rfl, rfl, hl.rest.2.2⟩ }
  | gencodes =>
    obtain ⟨hstage, rfl⟩ := h
    have hcode : s.stage.code.toNat = 2 := by rw [hstage]; rfl
    exact { hl with
      empty := nofun, noTree := fun _ => ⟨rfl, rfl⟩, noRaw := fun h => absurd h (show ¬ 3 < 3 by decide)
      noCan := fun _ => hl.noCan (by omega), noOut := fun _ => hl.noOut (by omega) }
  | canon =>
    obtain ⟨hstage, rfl⟩ := h
    have hcode : s.stage.code.toNat = 3 := by rw [hstage]; rfl
    exact { hl with
      empty := nofun, noTree := fun _ => hl.noTree (by simp [hstage]), noRaw := fun h => absurd h (show ¬ 4 < 3 by decide)
      noCan := fun h => absurd h (show ¬ 4 < 4 by decide), noOut := fun _ => hl.noOut (by omega)
      rest := ⟨hl.rest.1, hl.rest.2.1, rfl, rfl⟩ }
  | encode =>
    obtain ⟨hstage, q, -, rfl⟩ := h
    exact { hl with
      empty := nofun, noTree := fun _ => hl.noTree (by simp [hstage]), noRaw := fun h => absurd h (show ¬ 5 < 3 by decide)
      noCan := fun h => absurd h (show ¬ 5 < 4 by decide), noOut := fun h => absurd h (show ¬ 5 < 5 by decide) }
  | bsclr =>
    obtain rfl := h
    exact { hl with }
  | bsappb =>
    obtain ⟨-, rfl⟩ := h
    exact { hl with }
  | bsapps =>
    obtain ⟨-, q, -, -, rfl⟩ := h
    exact { hl with }

/-! ## The effect of each command on the session -/

section
variable {s t : State}

/-- R100: the counts of a text of fewer than `2^32` bytes. -/
theorem Effect.sessionInv_count {n : Imm} (h : Effect s t (.count n)) (hs : StorageInv t) (hl : LifetimeInv t) :
    SessionInv t := by
  obtain ⟨-, rfl⟩ := h
  have hlt := length_take_imm_lt n s.tin
  exact {
    storage := hs, lifetime := hl, total := (freqTotal_countText hlt).trans_lt hlt
    nonempty := fun h => absurd h (show ¬ 2 ≤ 1 by decide), tree := nofun
    raw := fun h => absurd h (show ¬ 3 ≤ 1 by decide), can := fun h => absurd h (show ¬ 4 ≤ 1 by decide)
    lone := fun h => absurd h (show ¬ 3 ≤ 1 by decide), numbers := fun h => absurd h (show ¬ 4 ≤ 1 by decide) }

/-- R101, from the empty arena that the lifetimes give. -/
theorem Effect.sessionInv_build (h : Effect s t .build) (hi : SessionInv s) (hs : StorageInv t) (hl : LifetimeInv t) :
    SessionInv t := by
  obtain ⟨hstage, hn, rfl⟩ := h
  have hne := presentSymbols_ne_nil hi.lifetime hn
  obtain ⟨root, hpool, htree, -⟩ := buildTree_spec s (hi.lifetime.noTree (by simp [hstage])).1 hne hi.total
  exact {
    storage := hs, lifetime := hl, total := hi.total, nonempty := fun _ => hne
    tree := fun _ => by simpa [hpool] using htree
    raw := fun h => absurd h (show ¬ 3 ≤ 2 by decide), can := fun h => absurd h (show ¬ 4 ≤ 2 by decide)
    lone := fun h => absurd h (show ¬ 3 ≤ 2 by decide), numbers := fun h => absurd h (show ¬ 4 ≤ 2 by decide) }

/-- R107 to R109, from the tree. -/
theorem Effect.sessionInv_gencodes (h : Effect s t .gencodes) (hi : SessionInv s) (hs : StorageInv t) (hl : LifetimeInv t) :
    SessionInv t := by
  obtain ⟨hstage, rfl⟩ := h
  obtain ⟨hcodes, -, -, hlone, -⟩ := rawCodes_spec (hi.tree hstage)
  exact {
    storage := hs, lifetime := hl, total := hi.total, nonempty := fun _ => hi.nonempty (by rw [hstage]; decide)
    tree := nofun, raw := fun _ => hcodes, can := fun h => absurd h (show ¬ 4 ≤ 3 by decide), lone := fun _ => hlone
    numbers := fun h => absurd h (show ¬ 4 ≤ 3 by decide) }

/-- R122, R124: each canonical code is the number of its raw code. -/
theorem Effect.sessionInv_canon (h : Effect s t .canon) (hi : SessionInv s) (hs : StorageInv t) (hl : LifetimeInv t) :
    SessionInv t := by
  obtain ⟨hstage, rfl⟩ := h
  have h3 : 3 ≤ s.stage.code.toNat := by rw [hstage]; decide
  have hraw := hi.raw h3
  obtain ⟨hcan, hsame, -⟩ := numberCodes_spec s hraw
  exact {
    storage := hs, lifetime := hl, total := hi.total, nonempty := fun _ => hi.nonempty (by omega), tree := nofun
    raw := fun _ => hraw, can := fun _ => ⟨hcan, hsame⟩, lone := fun _ => hi.lone h3
    numbers := fun _ x d hd => (bitsVal_numberCodes hraw hd).trans (hsame.canonicalValue_eq _ _) }

/-- `ENCODE` leaves the tables as they are. -/
theorem Effect.sessionInv_encode {f : Bool} {n : Imm} (h : Effect s t (.encode f n)) (hi : SessionInv s) (hs : StorageInv t)
    (hl : LifetimeInv t) : SessionInv t := by
  obtain ⟨hstage, q, -, rfl⟩ := h
  have h4 : 4 ≤ s.stage.code.toNat := by rw [hstage]; decide
  exact {
    storage := hs, lifetime := hl, total := hi.total, nonempty := fun _ => hi.nonempty (by omega), tree := nofun
    raw := fun _ => hi.raw (by omega), can := fun _ => hi.can h4, lone := fun _ => hi.lone (by omega)
    numbers := fun _ => hi.numbers h4 }

theorem Effect.sessionInv {i : Instr} (h : Effect s t i) (hi : SessionInv s) : SessionInv t := by
  have hs := h.storageInv hi.storage hi.lifetime
  have hl := h.lifetimeInv hi.lifetime
  cases i with
  | rdstage | rdfreq | bsbit | bslen | bsbytes | bsbin | bshex | bseq =>
    obtain ⟨r, rfl⟩ := h.eq_of_reads rfl
    exact hi.withHost _ _ _
  | newsession => exact sessionInv_of_empty hs hl (by obtain rfl := h; rfl)
  | count => exact h.sessionInv_count hs hl
  | build => exact h.sessionInv_build hi hs hl
  | gencodes => exact h.sessionInv_gencodes hi hs hl
  | canon => exact h.sessionInv_canon hi hs hl
  | encode => exact h.sessionInv_encode hi hs hl
  | bsclr =>
    obtain rfl := h
    exact { hi with storage := hs, lifetime := hl }
  | bsappb =>
    obtain ⟨-, rfl⟩ := h
    exact { hi with storage := hs, lifetime := hl }
  | bsapps =>
    obtain ⟨-, q, -, -, rfl⟩ := h
    exact { hi with storage := hs, lifetime := hl }

end

/-! ## Every step -/

/-- A property of the state that a step keeps: a reset gives it, the host's side does not matter to it, and the effect of each
command keeps it. -/
theorem step_keeps {P : State → Prop} (hreset : ∀ s, P s → P s.hardReset)
    (hhost : ∀ s moves tin responses, P s → P { s with moves := moves, tin := tin, responses := responses })
    (heffect : ∀ i s t, Effect s t i → P s → P t) {s t : State} (hs : P s) (h : step s = .next t) : P t := by
  obtain ⟨-, rfl⟩ | ⟨rest, -, rfl⟩ | ⟨w, text, rest, d, -, -, k, rfl⟩ | ⟨w, text, rest, i, -, -, hexec⟩ := step_next h
  · exact hs
  · exact hreset _ (hhost s rest s.tin s.responses hs)
  · exact hhost s rest _ _ hs
  · have haccept : P (s.accept text rest) := hhost s rest _ s.responses hs
    obtain ⟨-, hfailed | heff⟩ := exec_next hexec
    · obtain ⟨r, rfl⟩ := hfailed.eq
      exact hhost _ rest _ _ haccept
    · exact heffect i _ t heff haccept

/-- Settles O53: `step_keeps` for the two invariants together, since `BUILD` needs the lifetimes for the storage. -/
theorem stepKeepsStorageAndLifetimes : Obligations.StepKeepsStorageAndLifetimes := by
  intro s t hs hl
  refine step_keeps (P := fun s => StorageInv s ∧ LifetimeInv s) (fun s ⟨hs, _⟩ => ?_)
    (fun s moves tin responses ⟨hs, hl⟩ => ?_) (fun i s t heffect ⟨hs, hl⟩ => ?_) ⟨hs, hl⟩
  · exact ⟨storageInv_hardReset hs.cfg, lifetimeInv_hardReset s⟩
  · exact ⟨hs.withHost moves tin responses, hl.withHost moves tin responses⟩
  · exact ⟨heffect.storageInv hs hl, heffect.lifetimeInv hl⟩

/-- Settles O54: `step_keeps` for the session, each stage command by its own lemma (`Effect.sessionInv`). -/
theorem stepKeepsSession : Obligations.StepKeepsSession := fun _ _ =>
  step_keeps (P := SessionInv) (fun _ hi => sessionInv_hardReset hi.storage.cfg)
    (fun _ moves tin responses hi => hi.withHost moves tin responses) fun _ _ _ heffect hi => heffect.sessionInv hi

end Sys2Proof.Machine
end

section
/-! PROOFS. The five commands that encode a text (70_reset_and_hazards.md R173). -/

namespace Sys2Proof.Machine

/-! ## Prefix codes on a counted text -/

section
variable {freq : Sparse Freq} {text : List Byte} (hc : ∀ x : Symbol, (Sparse.read freq x.toNat).toNat = text.count x)
include hc

theorem prefixCodeOn_text_iff (u : Symbol → List Bool) : PrefixCodeOn text u ↔ PrefixCodeOn (presentSymbols freq) u := by
  simp only [PrefixCodeOn, mem_presentSymbols_iff_mem hc]

theorem flatMap_length_eq_cost (u : Symbol → List Bool) : (text.flatMap u).length = codeCost freq fun x => (u x).length := by
  rw [List.length_flatMap, sum_text_eq_codeCost hc]

/-- R109 (a) on the text itself. -/
theorem Minimal.cost_le_flatMap {t : Sparse BitSeq} (hm : Minimal freq t) {u : Symbol → List Bool} (hu : PrefixCodeOn text u) :
    codeCost freq (fun x => ((codeBits t x).getD []).length) ≤ (text.flatMap u).length := by
  rw [flatMap_length_eq_cost hc]
  exact hm u ((prefixCodeOn_text_iff hc u).mp hu)

end

/-- A code table is a prefix code of words that are not empty. -/
theorem CodesFor.prefixCodeOn {freq : Sparse Freq} {t : Sparse BitSeq} (h : CodesFor freq t) {text : List Byte}
    (hcoded : AllCoded t text) : PrefixCodeOn text fun x => (codeBits t x).getD [] := by
  refine ⟨fun x hx => ?_, fun x hx y hy hxy => ?_⟩
  · obtain ⟨c, hcx⟩ := Option.isSome_iff_exists.mp (hcoded x hx)
    simpa [hcx] using List.length_pos_iff.mp (h.lengths x c hcx).1
  · obtain ⟨c, hcx⟩ := Option.isSome_iff_exists.mp (hcoded x hx)
    obtain ⟨d, hdy⟩ := Option.isSome_iff_exists.mp (hcoded y hy)
    exact h.prefixFree x y c d hcx hdy (by simpa [hcx, hdy] using hxy)

/-! ## A run of commands -/

theorem step_of_exec {s t : State} {i : Instr} {text : List Byte} {rest : List HostMove} (hi : i.wellFormed = true)
    (hmoves : s.moves = .command (encode i) text :: rest) (h : exec i (s.accept text rest) = .next t) : step s = .next t := by
  rw [step_command hmoves, runWord_of_decode (decode_encode hi), h]

/-- In session `t` the host has issued `k` commands since `s`, each a success without a result, and `rest` is what it issues
next. -/
structure Running (s : State) (k : Nat) (rest : List HostMove) (t : State) : Prop where
  session : SessionInv t
  moves : t.moves = rest
  tin : t.tin = []
  scr : t.scr = s.scr
  cfg : t.cfg = s.cfg
  responses : t.responses = List.replicate k ⟨.ok, 0, []⟩ ++ s.responses

section
variable {s t t' : State} {k : Nat} {text : List Byte} {rest : List HostMove} {n : Imm}

/-- One more success. -/
theorem Running.succ {i : Instr} (h : Running s k (.command (encode i) text :: rest) t) (hi : i.wellFormed = true)
    (hexec : exec i (t.accept text rest) = .next t') (hmoves : t'.moves = rest) (htin : t'.tin = []) (hscr : t'.scr = t.scr)
    (hcfg : t'.cfg = t.cfg) (hresponses : t'.responses = ⟨.ok, 0, []⟩ :: t.responses) :
    step t = .next t' ∧ Running s (k + 1) rest t' := by
  have hstep := step_of_exec hi h.moves hexec
  refine ⟨hstep, stepKeepsSession t t' h.session hstep, hmoves, htin, hscr.trans h.scr, hcfg.trans h.cfg, ?_⟩
  rw [hresponses, h.responses, List.replicate_succ, List.cons_append]

theorem Running.accept_tin {m : HostMove} (h : Running s k (m :: rest) t) : (t.accept text rest).tin = text := by
  rw [State.accept_tin, h.tin, List.nil_append]

/-- A payload of exactly `IMM` bytes is there, and all of it is consumed (R174). -/
theorem Running.accept_payload {m : HostMove} (h : Running s k (m :: rest) t) (hlen : text.length = n.toNat) :
    n.toNat ≤ (t.accept text rest).tin.length ∧ (t.accept text rest).tin.take n.toNat = text ∧
      (t.accept text rest).tin.drop n.toNat = [] := by
  rw [h.accept_tin, ← hlen]
  exact ⟨le_rfl, List.take_length, List.drop_length⟩

theorem Running.count (h : Running s k (.command (encode (.count n)) text :: rest) t) (hstage : t.stage = .empty)
    (hlen : text.length = n.toNat) (hn : n ≠ 0) : ∃ t', step t = .next t' ∧ Running s (k + 1) rest t' ∧
      t'.stage = .frequenciesCounted ∧ t'.freq = countText text ∧ t'.nsym ≠ 0 := by
  obtain ⟨hsupplied, htake, hdrop⟩ := h.accept_payload hlen
  have hexec := count_next (s := t.accept text rest) (n := n) hsupplied hstage
  rw [htake, hdrop] at hexec
  obtain ⟨hstep, hrun⟩ := h.succ rfl hexec rfl rfl rfl rfl rfl
  refine ⟨_, hstep, hrun, rfl, rfl, ?_⟩
  rw [ne_eq, nsym_eq_zero_iff, presentSymbols_countText_eq_nil (hlen ▸ n.isLt), ← List.length_eq_zero_iff, hlen]
  exact fun h0 => hn (BitVec.eq_of_toNat_eq h0)

theorem Running.build (h : Running s k (.command (encode .build) [] :: rest) t) (hstage : t.stage = .frequenciesCounted)
    (hn : t.nsym ≠ 0) : ∃ t', step t = .next t' ∧ Running s (k + 1) rest t' ∧ t'.stage = .treeBuilt ∧ t'.freq = t.freq := by
  have hexec := build_next (s := t.accept [] rest) hstage hn
  obtain ⟨hstep, hrun⟩ := h.succ rfl hexec rfl h.accept_tin rfl rfl rfl
  exact ⟨_, hstep, hrun, rfl, rfl⟩

theorem Running.gencodes (h : Running s k (.command (encode .gencodes) [] :: rest) t) (hstage : t.stage = .treeBuilt) :
    ∃ t', step t = .next t' ∧ Running s (k + 1) rest t' ∧ t'.stage = .rawCodesGenerated ∧ t'.freq = t.freq ∧
      Minimal t.freq t'.raw := by
  have hexec := gencodes_next (s := t.accept [] rest) hstage
  obtain ⟨hstep, hrun⟩ := h.succ rfl hexec rfl h.accept_tin rfl rfl rfl
  exact ⟨_, hstep, hrun, rfl, rfl, (h.session.tree hstage).rawCodes_minimal⟩

theorem Running.canon (h : Running s k (.command (encode .canon) [] :: rest) t) (hstage : t.stage = .rawCodesGenerated) :
    ∃ t', step t = .next t' ∧ Running s (k + 1) rest t' ∧ t'.stage = .canonicalCodesGenerated ∧ t'.freq = t.freq ∧
      t'.raw = t.raw := by
  have hexec := canon_next (s := t.accept [] rest) hstage
  obtain ⟨hstep, hrun⟩ := h.succ rfl hexec rfl h.accept_tin rfl rfl rfl
  exact ⟨_, hstep, hrun, rfl, rfl, rfl⟩

end

/-! ## The first four commands -/

/-- After `COUNT`, `BUILD`, `GENCODES` and `CANON` of a text: a run at `CanonicalCodesGenerated` with the counts of the text and raw
codes that are minimal for them. -/
structure Coded (s : State) (text : List Byte) (rest : List HostMove) (t : State) : Prop where
  running : Running s 4 rest t
  stage : t.stage = .canonicalCodesGenerated
  counts : ∀ x : Symbol, (Sparse.read t.freq x.toNat).toNat = text.count x
  minimal : Minimal t.freq t.raw

theorem four_commands {s : State} {n : Imm} {text : List Byte} {rest : List HostMove} (hi : SessionInv s)
    (hstage : s.stage = .empty) (htin : s.tin = []) (hn : n ≠ 0) (hlen : text.length = n.toNat)
    (hmoves : s.moves = .command (encode (.count n)) text :: .command (encode .build) [] ::
      .command (encode .gencodes) [] :: .command (encode .canon) [] :: rest) :
    ∃ t1 t2 t3 t4, step s = .next t1 ∧ step t1 = .next t2 ∧ step t2 = .next t3 ∧ step t3 = .next t4 ∧
      Coded s text rest t4 := by
  have hrun : Running s 0 _ s := ⟨hi, hmoves, htin, rfl, rfl, rfl⟩
  obtain ⟨t1, e1, h1, hstage1, hfreq1, hn1⟩ := hrun.count hstage hlen hn
  obtain ⟨t2, e2, h2, hstage2, hfreq2⟩ := h1.build hstage1 hn1
  obtain ⟨t3, e3, h3, hstage3, hfreq3, hmin⟩ := h2.gencodes hstage2
  obtain ⟨t4, e4, h4, hstage4, hfreq4, hraw⟩ := h3.canon hstage3
  refine ⟨t1, t2, t3, t4, e1, e2, e3, e4, h4, hstage4, fun x => ?_, ?_⟩
  · rw [hfreq4, hfreq3, hfreq2, hfreq1]
    exact read_countText (hlen ▸ n.isLt) x
  · rw [hraw, hfreq4, hfreq3]
    exact hmin

/-! ## `ENCODE` of the counted text -/

/-- The bits of the counted text in the code tables of a session. -/
def costOf (t : State) : Nat := codeCost t.freq fun x => ((codeBits t.raw x).getD []).length

namespace Coded

variable {s t : State} {text : List Byte} {rest : List HostMove} {f : Bool} {n : Imm}

theorem textCode_length (h : Coded s text rest t) (f : Bool) : (textCode (t.codeMap f) text).length = costOf t :=
  h.running.session.textCode_length_eq_cost h.stage f h.counts

theorem allCoded (h : Coded s text rest t) (f : Bool) : AllCoded (t.codeMap f) text :=
  h.running.session.allCoded_of_counts h.stage f h.counts

theorem costOf_le (h : Coded s text rest t) {u : Symbol → List Bool} (hu : PrefixCodeOn text u) :
    costOf t ≤ (text.flatMap u).length := h.minimal.cost_le_flatMap h.counts hu

/-- The raw codes are one of the prefix codes, so the least of them is reached. -/
theorem exists_prefixCode (h : Coded s text rest t) : ∃ u, PrefixCodeOn text u ∧ (text.flatMap u).length = costOf t := by
  have hcodes : CodesFor t.freq t.raw := h.running.session.mapCodes h.stage false
  exact ⟨_, hcodes.prefixCodeOn (h.allCoded false), flatMap_length_eq_cost h.counts _⟩

theorem encode_fits (h : Coded s text (.command (encode (.encode f n)) text :: rest) t) (hlen : text.length = n.toNat)
    (hfit : costOf t ≤ t.cfg.outCapBits.toNat) : ∃ t', step t = .next t' ∧ Running s 5 rest t' ∧ t'.stage = .encoded ∧
      refDecode (t'.codeMap f) n.toNat t'.out.bits = some text ∧ t'.out.len.toNat = costOf t := by
  obtain ⟨hsupplied, htake, hdrop⟩ := h.running.accept_payload hlen
  obtain ⟨q, -, hbits, hexec⟩ := encode_coded (s := t.accept text rest) (f := f) (n := n) hsupplied h.stage
    (by rw [htake]; exact h.allCoded f) (by rw [htake]; exact (h.textCode_length f).trans_le hfit)
  rw [htake] at hbits
  rw [hdrop] at hexec
  obtain ⟨hstep, hrun⟩ := h.running.succ rfl hexec rfl rfl rfl rfl rfl
  refine ⟨_, hstep, hrun, rfl, ?_, ?_⟩
  · have hcodes : CodesFor t.freq (t.codeMap f) := h.running.session.mapCodes h.stage f
    rw [hbits]
    exact hcodes.refDecode_textCode (h.allCoded f) hlen.le
  · rw [← BitSeq.bits_length, hbits]
    exact h.textCode_length f

theorem encode_overflows (h : Coded s text (.command (encode (.encode f n)) text :: rest) t) (hlen : text.length = n.toNat)
    (hover : t.cfg.outCapBits.toNat < costOf t) :
    step t = .next { t with moves := rest, tin := [], responses := ⟨.capacity, 0, []⟩ :: t.responses } := by
  obtain ⟨hsupplied, htake, hdrop⟩ := h.running.accept_payload hlen
  have hloop := encodeText_overflow t.cfg.outCapBits.isLt (h.allCoded f) (hover.trans_eq (h.textCode_length f).symm)
  have hexec := encode_raises (s := t.accept text rest) (f := f) (n := n) hsupplied h.stage
    (by rw [htake]; exact hloop)
  rw [hdrop] at hexec
  exact step_of_exec rfl h.running.moves hexec

end Coded

/-- Settles O56: the first four commands leave minimal codes for the text (`four_commands`), so some prefix code fits `OUT` exactly
when the codes of the session do, and that decides between `Coded.encode_fits` and `Coded.encode_overflows`. -/
theorem fiveCommandsEncodeAText : Obligations.FiveCommandsEncodeAText := by
  intro s f n text rest hi hstage htin hn hlen hmoves
  obtain ⟨t1, t2, t3, t4, e1, e2, e3, e4, hcoded⟩ := four_commands hi hstage htin hn hlen hmoves
  have hrun := hcoded.running
  have hcfg : t4.cfg = s.cfg := hrun.cfg
  obtain ⟨v, hv, hcost⟩ := hcoded.exists_prefixCode
  by_cases hfit : costOf t4 ≤ s.cfg.outCapBits.toNat
  · obtain ⟨t5, e5, h5, hstage5, hdecode, hout⟩ := hcoded.encode_fits hlen (hcfg ▸ hfit)
    refine ⟨t1, t2, t3, t4, t5, e1, e2, e3, e4, e5, h5.moves, h5.tin, h5.scr, fun _ =>
      ⟨hstage5, h5.responses, hdecode, fun u hu => hout.trans_le (hcoded.costOf_le hu)⟩, fun hnone => ?_⟩
    have := hnone v hv
    omega
  · have e5 := hcoded.encode_overflows hlen (hcfg ▸ Nat.lt_of_not_le hfit)
    refine ⟨t1, t2, t3, t4, _, e1, e2, e3, e4, e5, rfl, rfl, hrun.scr, ?_, fun _ => ⟨hcoded.stage, ?_⟩⟩
    · rintro ⟨u, hu, hufit⟩
      have := hcoded.costOf_le hu
      omega
    · rw [hrun.responses, List.cons_append]

end Sys2Proof.Machine
end
